-- ==== Sys2Proof/Word.lean ====
section
/-! DEFINITION. The word types of the block: the 32-bit word of the command channel and of every register, the
8-bit byte of the DMA space, and the 64-bit DMA address (spec 00_scope R5, R7; 20_memory R60). -/

namespace Sys2Proof

/-- A command-channel word, and the width of every register (R5, R7). Bit 0 is the least significant. -/
abbrev Word := BitVec 32

/-- A byte of the DMA address space (R60). -/
abbrev Byte := BitVec 8

/-- An address of the DMA address space (R5, R60). -/
abbrev Addr := BitVec 64

end Sys2Proof
end

