-- ==== Sys2Proof/Config.lean ====
section
/-! DEFINITION. The configuration record `Cfg` (00_scope R6), the values no rule constrains, and what the DMA oracle can answer. `Cfg` is
an argument of the model: it stands in State, where no step changes it (10_state R45; log 1). The spec's defaults are in Decode.lean.
`Cfg.dma` is the external memory and the answers in State (log 3, log 4). -/

namespace Sys2Proof

/-- What the DMA oracle answers to one access (20_memory R66; `noAnswer`: it has not answered yet, 70_reset_and_hazards R291,
93_implementation_defined U3). -/
inductive DmaAnswer where
  | ok
  | fail
  | noAnswer
  deriving DecidableEq, Repr, Inhabited

/-- Where a field starts: the word of the command it lies in, and the position in it of its least significant bit. -/
structure Place where
  word : Nat
  lo   : Nat
  deriving DecidableEq, Repr

/-- `Cfg.layout`: every number of the encoding that is not the document's own (30_encoding, its preamble; 00_scope R6; decisions D1 to D11).
A field of word 0 has the position of its least significant bit (`Nat`), a field of DATA or STORE_IV its `Place`, a low address word its
place in the command. `…Bits` is a width, `…Words` a word count. The other widths are the document's: one bit for a flag and for the two
cipher contexts, two for the length class (30_encoding R94) and for the selector of the four IV slots in IV and DATA (10_state R25). The
width of STORE_IV's selector is a parameter (93_implementation_defined U4). -/
structure Layout where
  opcode           : Nat
  opcodeBits       : Nat
  opKey            : Word
  opIv             : Word
  opData           : Word
  opStoreIv        : Word
  opFlag           : Word
  keyCtx           : Nat
  keySelect        : Nat
  keySelectBits    : Nat
  keyLen           : Nat
  keyLen128        : BitVec 2
  keyLen192        : BitVec 2
  keyLen256        : BitVec 2
  keyWrapped       : Nat
  keyEncrypt       : Nat
  keyEncryptValue  : Bool
  keyFunc          : Nat
  keyFuncBits      : Nat
  keyMode          : Nat
  keyModeBits      : Nat
  modeEcb          : Word
  modeCbc          : Word
  modeCtr          : Word
  keyCommandId     : Nat
  keyCommandIdBits : Nat
  ivSlot           : Nat
  dataWords        : Nat
  dataKeyCtx       : Place
  dataIvCtx        : Place
  dataLength       : Place
  dataDstExt       : Place
  dataSrcExt       : Place
  dataSrcLo        : Nat
  dataDstLo        : Nat
  storeIvWords     : Nat
  storeIvSlot      : Place
  storeIvSlotBits  : Nat
  storeIvDstExt    : Place
  storeIvDstLo     : Nat
  flagSendInt      : Nat
  flagStop         : Nat
  flagIdCode       : Nat
  flagIdCodeBits   : Nat
  deriving DecidableEq, Repr

/-- `Cfg.regmap`: the byte offsets of the registers (40_register_interface R130; decision D12) and the positions and widths of the fields
inside them (R134, R140, 10_state R28, R34, R35; decisions D13 to D18). -/
structure RegMap where
  control            : Nat
  keyId              : Nat
  intStatus          : Nat
  intEnable          : Nat
  watermarks         : Nat
  commandFifoStatus  : Nat
  flagCommand        : Nat
  commandFifo        : Nat
  invalidCommandBit  : Nat
  flagCommandBit     : Nat
  invalidLengthBit   : Nat
  key0DisabledBit    : Nat
  key1DisabledBit    : Nat
  keySelect0         : Nat
  enabled0           : Nat
  commandId0         : Nat
  keySelect1         : Nat
  enabled1           : Nat
  commandId1         : Nat
  keySelectBits      : Nat
  commandIdBits      : Nat
  emptyBit           : Nat
  fullBit            : Nat
  overflowBit        : Nat
  lowBit             : Nat
  level              : Nat
  levelBits          : Nat
  lowThreshold       : Nat
  lowThresholdBits   : Nat
  flagCode           : Nat
  flagCodeBits       : Nat
  deriving DecidableEq, Repr

/-- `Cfg.ctrl_codes` (30_encoding R109; decision D19). -/
structure CtrlCodes where
  start       : Word
  stop        : Word
  reset       : Word
  resetEngine : Word
  deriving DecidableEq, Repr

/-- `Cfg.aes`: AES, or any other block function, each under a number of its own (43_cipher_modes R220; decision D31; log 2). -/
inductive BlockFunction where
  | aes
  | other (n : Nat)
  deriving DecidableEq, Repr

/-- The configuration (00_scope R6), plain data. -/
structure Cfg where
  layout         : Layout
  regmap         : RegMap
  ctrl           : CtrlCodes
  fifoCapacity   : Nat
  extBits        : Nat
  lenBits        : Nat
  keyselSoftware : Word
  aes            : BlockFunction
  deriving DecidableEq, Repr

namespace Config

/-- A byte of `draw` (00_scope R8): the n-th free byte of a run. No rule constrains it, and nothing in Lean can evaluate it (log 6). -/
opaque freeByte : Nat → Byte

/-- The DMA oracle's answer once the listed answers of State are used up (20_memory R66; log 4). -/
opaque dmaAnswer : Nat → DmaAnswer

/-- The block function number n under a key: some permutation of the 16-byte blocks, which is all that a claim may assume of it
(43_cipher_modes R220; log 2). -/
opaque blockPermutation : Nat → List Byte → Equiv.Perm (BitVec 128)

end Config

end Sys2Proof
end

