-- ==== Sys2Proof/Syntax.lean ====
section
/-! DEFINITION. The instructions: one constructor for each of the 23 rows of spec/opcode_table.json, with every operand of the
encoding, the ignored bits among them (30_encoding R90 to R109), and the names of the register map (40_register_interface R130). -/

namespace Sys2Proof

/-- The length classes of a key (R94). Class 3 has no key length and is never stored (R106; log 18). -/
inductive KeyLen where
  | k128
  | k192
  | k256
  deriving DecidableEq, Repr

/-- The block modes of R95. `reserved` is any other value of the field, at the default 3: a legal value, which leaves the context without a
handle. -/
inductive BlockMode where
  | ecb
  | cbc
  | ctr
  | reserved (code : Word)
  deriving DecidableEq, Repr

/-- ECB, CBC or CTR, not a reserved value (R95). -/
def BlockMode.isMode : BlockMode → Bool
  | .ecb | .cbc | .ctr => true
  | .reserved _ => false

/-- The fields of a KEY descriptor but its opcode and its length class (R93). Here and below a field whose width is a parameter is a word, the
field zero-extended, and `ignored` is the word's bits outside its fields, in place, which no rule reads (R104). -/
structure KeyDesc where
  ctx       : Fin 2
  keySelect : Word
  wrapped   : Bool
  encrypt   : Bool
  keyFunc   : Word
  blockMode : BlockMode
  commandId : Word
  ignored   : Word
  deriving DecidableEq, Repr

/-- The fields of an IV descriptor (R97). -/
structure IvDesc where
  slot    : Fin 4
  ignored : Word
  deriving DecidableEq, Repr

/-- The fields of a DATA command (R98, R99), and the ignored bits of each of its words. -/
structure DataFields where
  keyCtx  : Fin 2
  ivCtx   : Fin 4
  length  : Word
  dstExt  : Word
  srcExt  : Word
  srcLo   : Word
  dstLo   : Word
  ignored : List Word
  deriving DecidableEq, Repr

/-- The fields of a STORE_IV command (R102), and the ignored bits of each of its words. -/
structure StoreIvFields where
  slot    : Word
  dstExt  : Word
  dstLo   : Word
  ignored : List Word
  deriving DecidableEq, Repr

/-- The fields of a FLAG command (R103). -/
structure FlagFields where
  sendInt : Bool
  stop    : Bool
  idCode  : Word
  ignored : Word
  deriving DecidableEq, Repr

/-- The rows of spec/opcode_table.json. KEY and IV carry their payload words in order (R93, R97); a descriptor that is not a command
carries the bits that no rule reads (R104 to R106), that of KEY as the two halves of a word; a control code is the whole 32-bit value and
carries nothing (R109). -/
inductive Instr where
  | key128 (d : KeyDesc) (key : List Word)
  | key192 (d : KeyDesc) (key : List Word)
  | key256 (d : KeyDesc) (key : List Word)
  | keyReserved (lo hi : BitVec 16)
  | iv (d : IvDesc) (words : List Word)
  | data (d : DataFields)
  | storeIv (d : StoreIvFields)
  | flag (d : FlagFields)
  | unrec0 (ignored : Word)
  | unrec3 (ignored : Word)
  | unrec4 (ignored : Word)
  | unrec7 (ignored : Word)
  | unrec9 (ignored : Word)
  | unrec10 (ignored : Word)
  | unrec11 (ignored : Word)
  | unrec12 (ignored : Word)
  | unrec13 (ignored : Word)
  | unrec14 (ignored : Word)
  | unrec15 (ignored : Word)
  | ctrlStart
  | ctrlStop
  | ctrlReset
  | ctrlResetEngine
  deriving DecidableEq, Repr

/-- The two encoding spaces of the opcode table: command words written to `COMMAND_FIFO`, and values written to `CONTROL`. -/
inductive Space where
  | commandFifo
  | control
  deriving DecidableEq, Repr

/-- The space an instruction's words belong to. -/
def Instr.space : Instr → Space
  | .key128 _ _ | .key192 _ _ | .key256 _ _ | .keyReserved _ _ | .iv _ _ | .data _ | .storeIv _ | .flag _
  | .unrec0 _ | .unrec3 _ | .unrec4 _ | .unrec7 _ | .unrec9 _ | .unrec10 _ | .unrec11 _ | .unrec12 _ | .unrec13 _
  | .unrec14 _ | .unrec15 _ => .commandFifo
  | .ctrlStart | .ctrlStop | .ctrlReset | .ctrlResetEngine => .control

/-- The registers of the block's window (40_register_interface R130). -/
inductive Reg where
  | control
  | keyId
  | intStatus
  | intEnable
  | watermarks
  | commandFifoStatus
  | flagCommand
  | commandFifo
  deriving DecidableEq, Repr

end Sys2Proof
end

