-- ==== Sys2Proof/Decode.lean ====
section
/-! DEFINITION. From words to instructions and back (30_encoding), under a configuration. `descriptor` reads the first word of a command and
is total; `cmdWords` is the framer's word count (R92); `decodeCommand` reads a whole command; `decodeControl` reads a value written to
`CONTROL` (R109); `decode` is both; `encode` is the encoder of R111, with the ignored bits as given. `regAt` is the register map
(40_register_interface R130). `opcodeTable` is the table of R112, as masks and matches. `Cfg.default` is the spec's default (00_scope R6). -/

namespace Sys2Proof

/-! ### The defaults -/

/-- The default layout (decisions D1 to D11; 30_encoding R90 to R95, R97 to R99, R102, R103). -/
def Layout.default : Layout where
  opcode           := 0
  opcodeBits       := 4
  opKey            := 1
  opIv             := 2
  opData           := 5
  opStoreIv        := 6
  opFlag           := 8
  keyCtx           := 4
  keySelect        := 5
  keySelectBits    := 3
  keyLen           := 8
  keyLen128        := 0
  keyLen192        := 1
  keyLen256        := 2
  keyWrapped       := 10
  keyEncrypt       := 11
  keyEncryptValue  := true
  keyFunc          := 12
  keyFuncBits      := 2
  keyMode          := 14
  keyModeBits      := 2
  modeEcb          := 0
  modeCbc          := 1
  modeCtr          := 2
  keyCommandId     := 16
  keyCommandIdBits := 8
  ivSlot           := 4
  dataWords        := 4
  dataKeyCtx       := ⟨0, 4⟩
  dataIvCtx        := ⟨0, 5⟩
  dataLength       := ⟨0, 8⟩
  dataDstExt       := ⟨1, 0⟩
  dataSrcExt       := ⟨1, 16⟩
  dataSrcLo        := 2
  dataDstLo        := 3
  storeIvWords     := 2
  storeIvSlot      := ⟨0, 4⟩
  storeIvSlotBits  := 2
  storeIvDstExt    := ⟨0, 8⟩
  storeIvDstLo     := 1
  flagSendInt      := 4
  flagStop         := 5
  flagIdCode       := 16
  flagIdCodeBits   := 16

/-- The default register map (decisions D12 to D18; 40_register_interface R130, R134, R140, 10_state R28, R34, R35). -/
def RegMap.default : RegMap where
  control            := 0x008
  keyId              := 0x010
  intStatus          := 0x018
  intEnable          := 0x01C
  watermarks         := 0x020
  commandFifoStatus  := 0x024
  flagCommand        := 0x030
  commandFifo        := 0x200
  invalidCommandBit  := 2
  flagCommandBit     := 5
  invalidLengthBit   := 6
  key0DisabledBit    := 7
  key1DisabledBit    := 13
  keySelect0         := 0
  enabled0           := 3
  commandId0         := 8
  keySelect1         := 16
  enabled1           := 19
  commandId1         := 24
  keySelectBits      := 3
  commandIdBits      := 8
  emptyBit           := 0
  fullBit            := 1
  overflowBit        := 2
  lowBit             := 3
  level              := 8
  levelBits          := 16
  lowThreshold       := 0
  lowThresholdBits   := 8
  flagCode           := 0
  flagCodeBits       := 16

/-- The default of every field of `Cfg` (R6). -/
def Cfg.default : Cfg where
  layout         := Layout.default
  regmap         := RegMap.default
  ctrl           := ⟨1, 2, 4, 8⟩
  fifoCapacity   := 128
  extBits        := 8
  lenBits        := 24
  keyselSoftware := 0
  aes            := .aes

/-! ### Fields -/

/-- `w[lo+n-1:lo]` (00_scope R7). -/
def bits (w : Word) (lo n : Nat) : BitVec n := w.extractLsb' lo n

/-- `w[i]` as a flag (R7). -/
def bitAt (w : Word) (i : Nat) : Bool := w.getLsbD i

/-- A flag as a one-bit field. -/
def flagBit (b : Bool) : BitVec 1 := BitVec.ofBool b

/-- A word with one field, its least significant bit at `lo`, and zeros. -/
def put {n : Nat} (lo : Nat) (v : BitVec n) : Word := v.setWidth 32 <<< lo

/-- The bits of a word that lie in one of the fields, each given by its position and its width. -/
def maskOf : List (Nat × Nat) → Word
  | [] => 0
  | (lo, n) :: fs => put lo (BitVec.allOnes n) ||| maskOf fs

/-- The bits of a word outside the fields (R104). -/
def spare (fs : List (Nat × Nat)) (w : Word) : Word := w &&& ~~~maskOf fs

/-- A field of a word, zero-extended. -/
def fieldOf (w : Word) (lo n : Nat) : Word := (bits w lo n).setWidth 32

/-- Word `j` of a command. -/
def wordAt (ws : List Word) (j : Nat) : Word := ws.getD j 0

/-- The value that three different two-bit values leave over: the exclusive or of all four values is 0. -/
def leftOver (a b c : BitVec 2) : BitVec 2 := a ^^^ b ^^^ c

/-- The block mode of a field's value (R95). -/
def blockModeOf (l : Layout) (v : Word) : BlockMode :=
  if v = l.modeEcb then .ecb
  else if v = l.modeCbc then .cbc
  else if v = l.modeCtr then .ctr
  else .reserved v

/-- The field's value for a block mode (R95). -/
def blockModeCode (l : Layout) : BlockMode → Word
  | .ecb => l.modeEcb
  | .cbc => l.modeCbc
  | .ctr => l.modeCtr
  | .reserved v => v

/-- The two-bit field of a key length class (R94). -/
def keyLenBits (l : Layout) : KeyLen → BitVec 2
  | .k128 => l.keyLen128
  | .k192 => l.keyLen192
  | .k256 => l.keyLen256

/-- The reserved length class (R94, R106), at the default 3. -/
def reservedKeyLen (l : Layout) : BitVec 2 := leftOver l.keyLen128 l.keyLen192 l.keyLen256

/-- The key words of a length class (R94: 4, 6 or 8). -/
def KeyLen.words : KeyLen → Nat
  | .k128 => 4
  | .k192 => 6
  | .k256 => 8

/-! ### The formats, as fields with positions and widths -/

/-- The opcode field (R90), the only one of a word that is no command (R105). -/
def Cfg.opcodeField (k : Cfg) : Nat × Nat := (k.layout.opcode, k.layout.opcodeBits)

/-- Format K (R93). -/
def Cfg.keyFields (k : Cfg) : List (Nat × Nat) :=
  [k.opcodeField, (k.layout.keyCtx, 1), (k.layout.keySelect, k.layout.keySelectBits), (k.layout.keyLen, 2), (k.layout.keyWrapped, 1),
    (k.layout.keyEncrypt, 1), (k.layout.keyFunc, k.layout.keyFuncBits), (k.layout.keyMode, k.layout.keyModeBits),
    (k.layout.keyCommandId, k.layout.keyCommandIdBits)]

/-- The fields that make a KEY with the reserved length class (R106). -/
def Cfg.keyReservedFields (k : Cfg) : List (Nat × Nat) := [k.opcodeField, (k.layout.keyLen, 2)]

/-- Format I (R97). -/
def Cfg.ivFields (k : Cfg) : List (Nat × Nat) := [k.opcodeField, (k.layout.ivSlot, 2)]

/-- Format F (R103). -/
def Cfg.flagFields (k : Cfg) : List (Nat × Nat) :=
  [k.opcodeField, (k.layout.flagSendInt, 1), (k.layout.flagStop, 1), (k.layout.flagIdCode, k.layout.flagIdCodeBits)]

/-- Format D (R98, R99), each field with its word. -/
def Cfg.dataFormat (k : Cfg) : List (Nat × Nat × Nat) :=
  [(0, k.opcodeField), (k.layout.dataKeyCtx.word, k.layout.dataKeyCtx.lo, 1), (k.layout.dataIvCtx.word, k.layout.dataIvCtx.lo, 2),
    (k.layout.dataLength.word, k.layout.dataLength.lo, k.lenBits), (k.layout.dataDstExt.word, k.layout.dataDstExt.lo, k.extBits),
    (k.layout.dataSrcExt.word, k.layout.dataSrcExt.lo, k.extBits), (k.layout.dataSrcLo, 0, 32), (k.layout.dataDstLo, 0, 32)]

/-- Format S (R102), each field with its word. -/
def Cfg.storeIvFormat (k : Cfg) : List (Nat × Nat × Nat) :=
  [(0, k.opcodeField), (k.layout.storeIvSlot.word, k.layout.storeIvSlot.lo, k.layout.storeIvSlotBits),
    (k.layout.storeIvDstExt.word, k.layout.storeIvDstExt.lo, k.extBits), (k.layout.storeIvDstLo, 0, 32)]

/-- What a format has in word `j`. -/
def atWord {α : Type} (j : Nat) (fs : List (Nat × α)) : List α := (fs.filter fun f => f.1 == j).map Prod.snd

/-- The bits of each of `n` words that lie in no field of a format (R104). -/
def spareWords (n : Nat) (fs : List (Nat × Nat × Nat)) (ws : List Word) : List Word :=
  (List.range n).map fun j => spare (atWord j fs) (wordAt ws j)

/-! ### The descriptor -/

/-- What the framer sees in a word at a command boundary (R91, R92, R105, R106, R112): one of the five commands, KEY with its length
class, or a word that is no command. -/
inductive Descriptor where
  | key (len : KeyLen)
  | iv
  | data
  | storeIv
  | flag
  | discarded
  deriving DecidableEq, Repr

/-- The opcode (R90). -/
def opcode (k : Cfg) (w : Word) : Word := fieldOf w k.layout.opcode k.layout.opcodeBits

/-- KEY by its length class (R94); the reserved class is no command (R106). -/
def keyDescriptor (l : Layout) (c : BitVec 2) : Descriptor :=
  if c = l.keyLen128 then .key .k128
  else if c = l.keyLen192 then .key .k192
  else if c = l.keyLen256 then .key .k256
  else .discarded

/-- What a word is at a command boundary (R91, R92). -/
def descriptor (k : Cfg) (w : Word) : Descriptor :=
  if opcode k w = k.layout.opKey then keyDescriptor k.layout (bits w k.layout.keyLen 2)
  else if opcode k w = k.layout.opIv then .iv
  else if opcode k w = k.layout.opData then .data
  else if opcode k w = k.layout.opStoreIv then .storeIv
  else if opcode k w = k.layout.opFlag then .flag
  else .discarded

/-- The row of the opcode table of a word with an unrecognised opcode (R105, R112). The table is written at the default, so a number that
stands for a command there, or that needs more than four bits, has no row (log 25). -/
def unrecognisedRow (op : Word) (ignored : Word) : Option Instr :=
  match op.toNat with
  | 0 => some (.unrec0 ignored)
  | 3 => some (.unrec3 ignored)
  | 4 => some (.unrec4 ignored)
  | 7 => some (.unrec7 ignored)
  | 9 => some (.unrec9 ignored)
  | 10 => some (.unrec10 ignored)
  | 11 => some (.unrec11 ignored)
  | 12 => some (.unrec12 ignored)
  | 13 => some (.unrec13 ignored)
  | 14 => some (.unrec14 ignored)
  | 15 => some (.unrec15 ignored)
  | _ => none

/-- The row of the opcode table of a word that is no command: KEY with the reserved length class (R106) or an unrecognised opcode (R105). -/
def discardedRow (k : Cfg) (w : Word) : Option Instr :=
  if opcode k w = k.layout.opKey then
    some (.keyReserved (bits (spare k.keyReservedFields w) 0 16) (bits (spare k.keyReservedFields w) 16 16))
  else unrecognisedRow (opcode k w) (spare [k.opcodeField] w)

/-- The total word count of a command, the descriptor counted; 0 for a word that is no command. -/
def Descriptor.words (l : Layout) : Descriptor → Nat
  | .key len => 1 + len.words
  | .iv => 5
  | .data => l.dataWords
  | .storeIv => l.storeIvWords
  | .flag => 1
  | .discarded => 0

/-- `cmd_words` (R92). -/
def cmdWords (k : Cfg) (w : Word) : Nat := (descriptor k w).words k.layout

/-! ### Commands -/

/-- The fields of a KEY descriptor (R93). -/
def keyDescOf (k : Cfg) (w : Word) : KeyDesc where
  ctx       := (bits w k.layout.keyCtx 1).toFin
  keySelect := fieldOf w k.layout.keySelect k.layout.keySelectBits
  wrapped   := bitAt w k.layout.keyWrapped
  encrypt   := bitAt w k.layout.keyEncrypt == k.layout.keyEncryptValue
  keyFunc   := fieldOf w k.layout.keyFunc k.layout.keyFuncBits
  blockMode := blockModeOf k.layout (fieldOf w k.layout.keyMode k.layout.keyModeBits)
  commandId := fieldOf w k.layout.keyCommandId k.layout.keyCommandIdBits
  ignored   := spare k.keyFields w

/-- The fields of an IV descriptor (R97). -/
def ivDescOf (k : Cfg) (w : Word) : IvDesc where
  slot    := (bits w k.layout.ivSlot 2).toFin
  ignored := spare k.ivFields w

/-- The fields of a DATA command (R98, R99). -/
def dataFieldsOf (k : Cfg) (ws : List Word) : DataFields where
  keyCtx  := (bits (wordAt ws k.layout.dataKeyCtx.word) k.layout.dataKeyCtx.lo 1).toFin
  ivCtx   := (bits (wordAt ws k.layout.dataIvCtx.word) k.layout.dataIvCtx.lo 2).toFin
  length  := fieldOf (wordAt ws k.layout.dataLength.word) k.layout.dataLength.lo k.lenBits
  dstExt  := fieldOf (wordAt ws k.layout.dataDstExt.word) k.layout.dataDstExt.lo k.extBits
  srcExt  := fieldOf (wordAt ws k.layout.dataSrcExt.word) k.layout.dataSrcExt.lo k.extBits
  srcLo   := wordAt ws k.layout.dataSrcLo
  dstLo   := wordAt ws k.layout.dataDstLo
  ignored := spareWords k.layout.dataWords k.dataFormat ws

/-- The fields of a STORE_IV command (R102). -/
def storeIvFieldsOf (k : Cfg) (ws : List Word) : StoreIvFields where
  slot    := fieldOf (wordAt ws k.layout.storeIvSlot.word) k.layout.storeIvSlot.lo k.layout.storeIvSlotBits
  dstExt  := fieldOf (wordAt ws k.layout.storeIvDstExt.word) k.layout.storeIvDstExt.lo k.extBits
  dstLo   := wordAt ws k.layout.storeIvDstLo
  ignored := spareWords k.layout.storeIvWords k.storeIvFormat ws

/-- The fields of a FLAG command (R103). -/
def flagFieldsOf (k : Cfg) (w : Word) : FlagFields where
  sendInt := bitAt w k.layout.flagSendInt
  stop    := bitAt w k.layout.flagStop
  idCode  := fieldOf w k.layout.flagIdCode k.layout.flagIdCodeBits
  ignored := spare k.flagFields w

/-- The instruction of a descriptor's row, from its words. -/
def commandOf (k : Cfg) : Descriptor → Word → List Word → Option Instr
  | .key .k128, w0, rest => some (.key128 (keyDescOf k w0) rest)
  | .key .k192, w0, rest => some (.key192 (keyDescOf k w0) rest)
  | .key .k256, w0, rest => some (.key256 (keyDescOf k w0) rest)
  | .iv, w0, rest => some (.iv (ivDescOf k w0) rest)
  | .data, w0, rest => some (.data (dataFieldsOf k (w0 :: rest)))
  | .storeIv, w0, rest => some (.storeIv (storeIvFieldsOf k (w0 :: rest)))
  | .flag, w0, _ => some (.flag (flagFieldsOf k w0))
  | .discarded, w0, _ => discardedRow k w0

/-- The words after a descriptor read by its row; `none` where their number is not the row's. -/
def decodeAs (k : Cfg) (d : Descriptor) (w0 : Word) (rest : List Word) : Option Instr :=
  if rest.length + 1 = max 1 (d.words k.layout) then commandOf k d w0 rest else none

/-- A whole command, descriptor first; `none` where the number of words is not the descriptor's. -/
def decodeCommand (k : Cfg) : List Word → Option Instr
  | [] => none
  | w0 :: rest => decodeAs k (descriptor k w0) w0 rest

/-- A value written to `CONTROL`: all 32 bits are compared (R109, 40_register_interface R141). -/
def decodeControl (k : Cfg) (v : Word) : Option Instr :=
  if v = k.ctrl.start then some .ctrlStart
  else if v = k.ctrl.stop then some .ctrlStop
  else if v = k.ctrl.reset then some .ctrlReset
  else if v = k.ctrl.resetEngine then some .ctrlResetEngine
  else none

/-- The decoder of a space. -/
def decode (k : Cfg) : Space → List Word → Option Instr
  | .commandFifo, ws => decodeCommand k ws
  | .control, [v] => decodeControl k v
  | .control, _ => none

/-! ### The encoder -/

/-- A field with a value. -/
abbrev Filled := (f : Nat × Nat) × BitVec f.2

/-- Fields with their values, above other bits. -/
def pack (fs : List Filled) (x : Word) : Word := fs.foldr (fun f y => put f.1.1 f.2 ||| y) x

/-- A field with a value, given as a word. -/
def fill (lo n : Nat) (v : Word) : Filled := ⟨(lo, n), v.setWidth n⟩

/-- The opcode field with its value. -/
def Cfg.opcodeIs (k : Cfg) (op : Word) : Filled := fill k.layout.opcode k.layout.opcodeBits op

/-- Format K with its values (R93). -/
def keyFilled (k : Cfg) (len : KeyLen) (d : KeyDesc) : List Filled :=
  [k.opcodeIs k.layout.opKey, ⟨(k.layout.keyCtx, 1), BitVec.ofFin d.ctx⟩, fill k.layout.keySelect k.layout.keySelectBits d.keySelect,
    ⟨(k.layout.keyLen, 2), keyLenBits k.layout len⟩, ⟨(k.layout.keyWrapped, 1), flagBit d.wrapped⟩,
    ⟨(k.layout.keyEncrypt, 1), flagBit (d.encrypt == k.layout.keyEncryptValue)⟩, fill k.layout.keyFunc k.layout.keyFuncBits d.keyFunc,
    fill k.layout.keyMode k.layout.keyModeBits (blockModeCode k.layout d.blockMode),
    fill k.layout.keyCommandId k.layout.keyCommandIdBits d.commandId]

/-- The fields of a KEY with the reserved length class (R106). -/
def keyReservedFilled (k : Cfg) : List Filled := [k.opcodeIs k.layout.opKey, ⟨(k.layout.keyLen, 2), reservedKeyLen k.layout⟩]

/-- Format I with its values (R97). -/
def ivFilled (k : Cfg) (d : IvDesc) : List Filled :=
  [k.opcodeIs k.layout.opIv, ⟨(k.layout.ivSlot, 2), BitVec.ofFin d.slot⟩]

/-- Format F with its values (R103). -/
def flagFilled (k : Cfg) (d : FlagFields) : List Filled :=
  [k.opcodeIs k.layout.opFlag, ⟨(k.layout.flagSendInt, 1), flagBit d.sendInt⟩, ⟨(k.layout.flagStop, 1), flagBit d.stop⟩,
    fill k.layout.flagIdCode k.layout.flagIdCodeBits d.idCode]

/-- Format D with its values (R98, R99). -/
def dataFilled (k : Cfg) (d : DataFields) : List (Nat × Filled) :=
  [(0, k.opcodeIs k.layout.opData), (k.layout.dataKeyCtx.word, ⟨(k.layout.dataKeyCtx.lo, 1), BitVec.ofFin d.keyCtx⟩),
    (k.layout.dataIvCtx.word, ⟨(k.layout.dataIvCtx.lo, 2), BitVec.ofFin d.ivCtx⟩),
    (k.layout.dataLength.word, fill k.layout.dataLength.lo k.lenBits d.length),
    (k.layout.dataDstExt.word, fill k.layout.dataDstExt.lo k.extBits d.dstExt),
    (k.layout.dataSrcExt.word, fill k.layout.dataSrcExt.lo k.extBits d.srcExt), (k.layout.dataSrcLo, fill 0 32 d.srcLo),
    (k.layout.dataDstLo, fill 0 32 d.dstLo)]

/-- Format S with its values (R102). -/
def storeIvFilled (k : Cfg) (d : StoreIvFields) : List (Nat × Filled) :=
  [(0, k.opcodeIs k.layout.opStoreIv),
    (k.layout.storeIvSlot.word, fill k.layout.storeIvSlot.lo k.layout.storeIvSlotBits d.slot),
    (k.layout.storeIvDstExt.word, fill k.layout.storeIvDstExt.lo k.extBits d.dstExt), (k.layout.storeIvDstLo, fill 0 32 d.dstLo)]

/-- The `n` words of a command of several words with fields. -/
def packWords (n : Nat) (fs : List (Nat × Filled)) (ignored : List Word) : List Word :=
  (List.range n).map fun j => pack (atWord j fs) (wordAt ignored j)

/-- Word 0 of a KEY command (R93, R111). -/
def keyWord0 (k : Cfg) (len : KeyLen) (d : KeyDesc) : Word := pack (keyFilled k len d) d.ignored

/-- Word 0 of an IV command (R97, R111). -/
def ivWord0 (k : Cfg) (d : IvDesc) : Word := pack (ivFilled k d) d.ignored

/-- The word of a FLAG command (R103, R111). -/
def flagWord0 (k : Cfg) (d : FlagFields) : Word := pack (flagFilled k d) d.ignored

/-- The words of a DATA command (R98, R99, R111). -/
def encodeData (k : Cfg) (d : DataFields) : List Word := packWords k.layout.dataWords (dataFilled k d) d.ignored

/-- The words of a STORE_IV command (R102, R111). -/
def encodeStoreIv (k : Cfg) (d : StoreIvFields) : List Word := packWords k.layout.storeIvWords (storeIvFilled k d) d.ignored

/-- The descriptor of a KEY with the reserved length class (R106). -/
def keyReservedWord0 (k : Cfg) (lo hi : BitVec 16) : Word := pack (keyReservedFilled k) (hi ++ lo)

/-- A word with an unrecognised opcode (R105). -/
def unrecWord0 (k : Cfg) (op ignored : Word) : Word := pack [k.opcodeIs op] ignored

/-- The words of an instruction (R111), a control code's being the value written to `CONTROL` (R109). -/
def encode (k : Cfg) : Instr → List Word
  | .key128 d key => keyWord0 k .k128 d :: key
  | .key192 d key => keyWord0 k .k192 d :: key
  | .key256 d key => keyWord0 k .k256 d :: key
  | .keyReserved lo hi => [keyReservedWord0 k lo hi]
  | .iv d words => ivWord0 k d :: words
  | .data d => encodeData k d
  | .storeIv d => encodeStoreIv k d
  | .flag d => [flagWord0 k d]
  | .unrec0 ignored => [unrecWord0 k 0 ignored]
  | .unrec3 ignored => [unrecWord0 k 3 ignored]
  | .unrec4 ignored => [unrecWord0 k 4 ignored]
  | .unrec7 ignored => [unrecWord0 k 7 ignored]
  | .unrec9 ignored => [unrecWord0 k 9 ignored]
  | .unrec10 ignored => [unrecWord0 k 10 ignored]
  | .unrec11 ignored => [unrecWord0 k 11 ignored]
  | .unrec12 ignored => [unrecWord0 k 12 ignored]
  | .unrec13 ignored => [unrecWord0 k 13 ignored]
  | .unrec14 ignored => [unrecWord0 k 14 ignored]
  | .unrec15 ignored => [unrecWord0 k 15 ignored]
  | .ctrlStart => [k.ctrl.start]
  | .ctrlStop => [k.ctrl.stop]
  | .ctrlReset => [k.ctrl.reset]
  | .ctrlResetEngine => [k.ctrl.resetEngine]

/-! ### The opcode table -/

/-- A row of the table of R112 over the words written to `COMMAND_FIFO` at a command boundary. -/
structure TableRow where
  mask  : Word
  value : Word
  words : Nat
  deriving DecidableEq, Repr

/-- A word falls under a row. -/
def TableRow.covers (r : TableRow) (w : Word) : Bool := w &&& r.mask == r.value

/-- The rows of R112 of the command space, the unrecognised row expanded to its opcodes; `words` is the value of `cmd_words` (R92), 0 for
a row whose word is discarded. -/
def opcodeTable : List TableRow :=
  [⟨0x30F, 0x001, 5⟩, ⟨0x30F, 0x101, 7⟩, ⟨0x30F, 0x201, 9⟩, ⟨0x30F, 0x301, 0⟩]
    ++ [⟨0xF, 2, 5⟩, ⟨0xF, 5, 4⟩, ⟨0xF, 6, 2⟩, ⟨0xF, 8, 1⟩]
    ++ [⟨0xF, 0, 0⟩, ⟨0xF, 3, 0⟩, ⟨0xF, 4, 0⟩, ⟨0xF, 7, 0⟩, ⟨0xF, 9, 0⟩, ⟨0xF, 10, 0⟩, ⟨0xF, 11, 0⟩]
    ++ [⟨0xF, 12, 0⟩, ⟨0xF, 13, 0⟩, ⟨0xF, 14, 0⟩, ⟨0xF, 15, 0⟩]

/-! ### The register map -/

/-- The registers of the map, in its order (40_register_interface R130). -/
def Reg.all : List Reg :=
  [.control, .keyId, .intStatus, .intEnable, .watermarks, .commandFifoStatus, .flagCommand, .commandFifo]

/-- The byte offset of a register from the block's base (R130). -/
def RegMap.offset (m : RegMap) : Reg → Nat
  | .control => m.control
  | .keyId => m.keyId
  | .intStatus => m.intStatus
  | .intEnable => m.intEnable
  | .watermarks => m.watermarks
  | .commandFifoStatus => m.commandFifoStatus
  | .flagCommand => m.flagCommand
  | .commandFifo => m.commandFifo

/-- The register at a byte offset (R130); no other offset is defined. -/
def regAt (k : Cfg) (off : Nat) : Option Reg := Reg.all.find? fun r => k.regmap.offset r == off

/-! ### Words of the opcode table -/

/-- The number `w`, of which `nbits` bits are given, as the words of a command: bit 0 is bit 0 of the first word, bits above `nbits` are
0, and the number of words is the descriptor's (one where it is no command). -/
def tableWords (k : Cfg) (nbits w : Nat) : List Word :=
  let v := w % 2 ^ nbits
  let n := max 1 (cmdWords k (BitVec.ofNat 32 v))
  (List.range n).map fun i => BitVec.ofNat 32 (v >>> (32 * i))

/-- A word of the opcode table that is read as a value written to `CONTROL`: exactly 32 bits are given (a control row fixes all of them)
and they are one of the four codes (log 14). -/
def tableControl (k : Cfg) (nbits w : Nat) : Option Instr :=
  if nbits = 32 then decodeControl k (BitVec.ofNat 32 w) else none

/-- The instruction the decoder reads from a word of spec/opcode_table.json, which is written at the default (log 14). -/
def decodeTableWord (nbits w : Nat) : Option Instr :=
  match tableControl Cfg.default nbits w with
  | some i => some i
  | none => decodeCommand Cfg.default (tableWords Cfg.default nbits w)

end Sys2Proof
end

