-- ==== Sys2Proof/Machine/Memory.lean ====
section
/-! DEFINITION. The external memory behind the DMA interface (20_memory R60, R73): a list of (address, byte) pairs in one
canonical form, and its operations. Addresses here are natural numbers, reached from the 64-bit address with `toNat`. -/

namespace Sys2Proof.Machine

/-- Memory as data: addresses strictly rising, no entry equal to what an unlisted address reads as. -/
abbrev Memory := List Host.Cell

/-- What an address reads as that is not listed (log 3; DESIGN CHOICE: the spec gives the external memory no initial content). -/
def Memory.unlisted : Byte := 0

/-- The canonical form. -/
abbrev Memory.wf (m : Memory) : Prop :=
  m.Pairwise (fun x y => x.1 < y.1) ∧ ∀ c ∈ m, c.2 ≠ Memory.unlisted

/-- The byte at an address. -/
def Memory.read : Memory → Nat → Byte
  | [], _ => Memory.unlisted
  | (k, v) :: rest, a => if k = a then v else Memory.read rest a

/-- An entry in front of a list whose addresses lie above it; nothing is listed for the unlisted value. -/
def Memory.cons (a : Nat) (b : Byte) (rest : Memory) : Memory :=
  if b = Memory.unlisted then rest else (a, b) :: rest

/-- The memory after one byte is stored. -/
def Memory.write : Memory → Nat → Byte → Memory
  | [], a, b => Memory.cons a b []
  | (k, v) :: rest, a, b =>
    if a < k then Memory.cons a b ((k, v) :: rest)
    else if a = k then Memory.cons a b rest
    else (k, v) :: Memory.write rest a b

/-- The `n` bytes at `addr, addr+1, ...`, lowest address first (R64, R80). -/
def Memory.readBytes (m : Memory) (addr n : Nat) : List Byte :=
  (List.range n).map fun i => m.read (addr + i)

/-- The memory after byte `i` of the string is stored at `addr + i`, for every `i` (R65). -/
def Memory.writeBytes (m : Memory) (addr : Nat) : List Byte → Memory
  | [] => m
  | b :: bs => Memory.writeBytes (m.write addr b) (addr + 1) bs

end Sys2Proof.Machine
end

