-- ==== Sys2Proof/Machine/State.lean ====
section
/-! DEFINITION. The state of the block, all of 10_state R20, and the environment the step reads (10_state R45), as plain data; the
faults and refusals; the state after reset (10_state R46). -/

namespace Sys2Proof.Machine

/-- The cipher handle of a context (10_state R23). -/
inductive Handle where
  | none
  | active
  deriving DecidableEq, Repr

/-- A cipher context (10_state R21). `key_select`, `key_func` and `command_id`, at the default of 3, 2 and 8 bits, are as wide as the
configuration says (decisions D3, D4), zero-extended. `key_len`, `encrypt` and `block_mode` are what their bits stand for (log 25). -/
structure Context where
  keySelect : Word
  keyLen    : KeyLen
  wrapped   : Bool
  encrypt   : Bool
  keyFunc   : Word
  blockMode : BlockMode
  commandId : Word
  key       : List Byte
  handle    : Handle
  enabled   : Bool
  deriving DecidableEq, Repr

/-- The empty context: every field 0, 32 zero key bytes (10_state R24). -/
def Context.empty : Context where
  keySelect := 0
  keyLen    := .k128
  wrapped   := false
  encrypt   := false
  keyFunc   := 0
  blockMode := .ecb
  commandId := 0
  key       := List.replicate 32 0
  handle    := .none
  enabled   := false

/-- `CTX[0]` and `CTX[1]` (10_state R21). -/
structure Contexts where
  c0 : Context
  c1 : Context
  deriving DecidableEq, Repr

/-- `IV[0]` to `IV[3]`, byte strings of 16 bytes (10_state R25). -/
structure IvSlots where
  s0 : List Byte
  s1 : List Byte
  s2 : List Byte
  s3 : List Byte
  deriving DecidableEq, Repr

/-- The framer's accumulator (10_state R31). -/
structure Framer where
  buf  : List Word
  need : Nat
  deriving DecidableEq, Repr

/-- A command: the words the framer accepted for it (10_state R33). -/
structure Command where
  words : List Word
  deriving DecidableEq, Repr

/-- The phases of an in-flight command (10_state R39). -/
inductive Phase where
  | fetched
  | dataLoaded
  | dataXformed
  | executed
  deriving DecidableEq, Repr

/-- An in-flight command, its phase and its scratch buffer (10_state R39, R40). -/
structure Inflight where
  cmd   : Command
  phase : Phase
  buf   : List Byte
  deriving DecidableEq, Repr

/-- `HOST.pending` (10_state R38). -/
inductive Pending where
  | none
  | stop
  | resetEngine
  deriving DecidableEq, Repr

/-- A register access of the HOST: the byte offset from the block's base and the width in bits (40_register_interface R131, R133). -/
inductive HostOp where
  | regRead (off width : Nat)
  | regWrite (off width : Nat) (v : Word)
  deriving DecidableEq, Repr

/-- What moves next (00_scope R11; log 7): the HOST with an access, the ENGINE, or another master of the external memory with one
byte (20_memory R71). -/
inductive Event where
  | host (op : HostOp)
  | engine
  | busRead (a : Addr)
  | busWrite (a : Addr) (b : Byte)
  deriving DecidableEq, Repr

/-- What leaves the block or its memory (log 13): the value a register read returns, the RAISE and LOWER events of the interrupt line
(60_exceptions R251), the DMA accesses (20_memory R71), a byte another master reads. -/
inductive Obs where
  | regRead (off : Nat) (v : Word)
  | irqRaise
  | irqLower
  | dmaRead (a : Addr) (n : Nat)
  | dmaWrite (a : Addr) (n : Nat)
  | busRead (a : Addr) (b : Byte)
  deriving DecidableEq, Repr

/-- The state. `cfg` is the configuration, an argument of the model that no step changes (00_scope R6, 10_state R45; log 1). The
fields from `ctxs` to `irq` are the block's, all of 10_state R20; `mem`, `events`, `dmaAnswers`, `freeCount` and `trace` are the
environment's (log 3, 4, 6, 7, 13). -/
structure State where
  cfg         : Cfg
  ctxs        : Contexts
  ivs         : IvSlots
  intStatus   : Word
  intEnable   : Word
  watermarks  : Word
  flagCommand : Word
  depth       : Nat
  overflow    : Bool
  framer      : Framer
  queue       : List Command
  running     : Bool
  stopReq     : Bool
  inflight    : Option Inflight
  pending     : Pending
  irq         : Bool
  mem         : Memory
  events      : List Event
  dmaAnswers  : List DmaAnswer
  freeCount   : Nat
  trace       : List Obs
  deriving DecidableEq, Repr

/-- What stops the machine. -/
inductive Fault where
  /-- Raised by `busRead` and `busWrite` (Machine/Bus.lean): another master touches a byte of a buffer in flight, the race of
  20_memory R71, which the spec lets a model refuse. Safe: nothing is claimed of the raced bytes (log 9). -/
  | dmaRace
  /-- Raised by `engineExecute` (Machine/Engine.lean): the in-flight command has no words, a word count that is not its descriptor's, or
  a DATA phase without being DATA (an unrecognised opcode in a DATA phase among them: 42_engine_commands R199 gives it a step from `FETCHED`
  alone). No run reaches it: the framer makes no such command (10_state R33). Safe (log 11). -/
  | illFormedCommand
  deriving DecidableEq, Repr

/-- What the model gives no meaning. -/
inductive Refusal where
  /-- Raised by a refused arm of `exec`: the instruction has no meaning yet. There is none. Safe. -/
  | notModelled (mnemonic : String)
  /-- Raised by `hostAccess` (Machine/Registers.lean): a register access that is not 32 bits wide (40_register_interface R133). Safe (log 10). -/
  | accessWidth
  /-- Raised by `hostAccess`: a register access at an offset that is not a multiple of 4 (R133). Safe (log 10). -/
  | misalignedOffset
  /-- Raised by `hostAccess`: a register access at an offset outside the map (R133). Safe (log 10). -/
  | undefinedOffset
  deriving DecidableEq, Repr

/-- The outcome of a step of this machine. -/
abbrev Outcome := Host.Outcome State Fault Refusal

/-- 16 zero bytes. -/
def zeroIv : List Byte := List.replicate 16 0

/-- The state after power-on and after a completed RESET_ENGINE (10_state R46, 70_reset_and_hazards R270). The configuration is the
spec's default (00_scope R6). The environment's fields are the model's (log 19): nothing listed in memory, no event waiting, no answer
listed. -/
def State.reset : State where
  cfg         := Cfg.default
  ctxs        := ⟨Context.empty, Context.empty⟩
  ivs         := ⟨zeroIv, zeroIv, zeroIv, zeroIv⟩
  intStatus   := 0
  intEnable   := 0
  watermarks  := 0
  flagCommand := 0
  depth       := 0
  overflow    := false
  framer      := ⟨[], 0⟩
  queue       := []
  running     := false
  stopReq     := false
  inflight    := Option.none
  pending     := .none
  irq         := false
  mem         := []
  events      := []
  dmaAnswers  := []
  freeCount   := 0
  trace       := []

end Sys2Proof.Machine
end

