-- ==== Sys2Proof/Machine/Operands.lean ====
section
/-! DEFINITION. Operand assembly: words to bytes (00_scope R9), DMA addresses (20_memory R61, 30_encoding R100), the length
(R101), key bytes (42_engine_commands R182), and the two register files' selectors. -/

namespace Sys2Proof.Machine

/-- `bytes_le` of one word (00_scope R9). -/
def bytesLeWord (w : Word) : List Byte := [bits w 0 8, bits w 8 8, bits w 16 8, bits w 24 8]

/-- `bytes_le` of a sequence of words (R9). -/
def bytesLe (ws : List Word) : List Byte := (ws.map bytesLeWord).flatten

/-- Address assembly `zext_64(lo) | zext_64(ext) << 32` (20_memory R61, 30_encoding R100). -/
def dmaAddr (lo ext : Word) : Addr := lo.setWidth 64 ||| ext.setWidth 64 <<< 32

/-- The source address of a DATA command (R100). -/
def dataSrc (d : DataFields) : Addr := dmaAddr d.srcLo d.srcExt

/-- The destination address of a DATA command (R100). -/
def dataDst (d : DataFields) : Addr := dmaAddr d.dstLo d.dstExt

/-- The destination address of a STORE_IV command (R100). -/
def storeIvDst (d : StoreIvFields) : Addr := dmaAddr d.dstLo d.dstExt

/-- The byte count of a DATA command, unsigned and not scaled (R101). -/
def dataLength (d : DataFields) : Nat := d.length.toNat

/-- `keybytes` (43_cipher_modes R221). -/
def keyBytes : KeyLen → Nat
  | .k128 => 16
  | .k192 => 24
  | .k256 => 32

/-- The 32 bytes a KEY command stores: the payload's bytes, then zeros (42_engine_commands R181, R182). -/
def paddedKey (ws : List Word) : List Byte := bytesLe ws ++ List.replicate (32 - 4 * ws.length) 0

/-- `CTX[n]`. -/
def Contexts.get (c : Contexts) (n : Fin 2) : Context := if n = 0 then c.c0 else c.c1

/-- `CTX[n] <- x`. -/
def Contexts.set (c : Contexts) (n : Fin 2) (x : Context) : Contexts :=
  if n = 0 then { c with c0 := x } else { c with c1 := x }

/-- `IV[k]`. -/
def IvSlots.get (v : IvSlots) (k : Fin 4) : List Byte :=
  match k with
  | 0 => v.s0
  | 1 => v.s1
  | 2 => v.s2
  | 3 => v.s3

/-- `IV[k] <- x`. -/
def IvSlots.set (v : IvSlots) (k : Fin 4) (x : List Byte) : IvSlots :=
  match k with
  | 0 => { v with s0 := x }
  | 1 => { v with s1 := x }
  | 2 => { v with s2 := x }
  | 3 => { v with s3 := x }

/-- The slot a selector of any width names (10_state R25); there are four. -/
def slotOf (w : Word) : Option (Fin 4) := if h : w.toNat < 4 then some ⟨w.toNat, h⟩ else none

/-- `CTX[n]` of a state. -/
def State.ctx (s : State) (n : Fin 2) : Context := s.ctxs.get n

/-- `IV[k]` of a state. -/
def State.iv (s : State) (k : Fin 4) : List Byte := s.ivs.get k

/-- The phase of the in-flight command; with nothing in flight there is nothing left to do, as in `EXECUTED` (log 16). -/
def State.phase (s : State) : Phase :=
  match s.inflight with
  | some c => c.phase
  | none => .executed

/-- The scratch buffer of the in-flight command (10_state R40). -/
def State.scratch (s : State) : List Byte :=
  match s.inflight with
  | some c => c.buf
  | none => []

end Sys2Proof.Machine
end

