-- ==== Sys2Proof/Machine/Flags.lean ====
section
/-! DEFINITION. Condition bits and register views: the bits of `INT_STATUS` (40_register_interface R134), the level of the
interrupt line (60_exceptions R250), `COMMAND_FIFO_STATUS` (40_register_interface R140), `KEY_ID` (10_state R35) and the read
multiplexer (40_register_interface R132). -/

namespace Sys2Proof.Machine

/-- The conditions the block reports (60_exceptions R241). -/
inductive Condition where
  | invalidCommand
  | flagCommand
  | invalidDataLength
  | keyDisabled (n : Fin 2)
  deriving DecidableEq, Repr

/-- The position of a condition's bit in `INT_STATUS` (R134, R241). -/
def Condition.bit (m : RegMap) : Condition → Nat
  | .invalidCommand => m.invalidCommandBit
  | .flagCommand => m.flagCommandBit
  | .invalidDataLength => m.invalidLengthBit
  | .keyDisabled n => if n = 0 then m.key0DisabledBit else m.key1DisabledBit

/-- The mask of a condition (R134); at the default `KEY_DISABLED(n)` is `0x80 << (6*n)`. -/
def Condition.mask (k : Cfg) (c : Condition) : Word := put (c.bit k.regmap) (1 : BitVec 1)

/-- The defined bits of `INT_STATUS`; every other bit is reserved and reads 0 (10_state R26). -/
def statusDefined (k : Cfg) : Word :=
  Condition.mask k .invalidCommand ||| Condition.mask k .flagCommand ||| Condition.mask k .invalidDataLength
    ||| Condition.mask k (.keyDisabled 0) ||| Condition.mask k (.keyDisabled 1)

/-- `(INT_STATUS & INT_ENABLE) != 0` (60_exceptions R250). -/
def irqLevel (status enable : Word) : Bool := status &&& enable != 0

/-- The event the line shows when its level goes from `old` to `new` (60_exceptions R251). -/
def irqEdge (old new : Bool) : List Obs :=
  if new = old then [] else if new then [.irqRaise] else [.irqLower]

/-- `OVERFLOW` as recomputed at an accepted word and at a drain (10_state R29). -/
def overflowOf (k : Cfg) (depth : Nat) : Bool := decide (depth > k.fifoCapacity)

/-- `EMPTY` (10_state R30). -/
def fifoEmpty (s : State) : Bool := decide (s.depth = 0)

/-- `FULL` (R30). -/
def fifoFull (s : State) : Bool := decide (s.depth ≥ s.cfg.fifoCapacity)

/-- `LOW`, strict, against the threshold field of `WATERMARKS` (R30). -/
def fifoLow (s : State) : Bool := decide (s.depth < (bits s.watermarks s.cfg.regmap.lowThreshold s.cfg.regmap.lowThresholdBits).toNat)

/-- `COMMAND_FIFO_STATUS` (40_register_interface R140). -/
def commandFifoStatus (s : State) : Word :=
  put s.cfg.regmap.emptyBit (flagBit (fifoEmpty s)) ||| put s.cfg.regmap.fullBit (flagBit (fifoFull s))
    ||| put s.cfg.regmap.overflowBit (flagBit s.overflow) ||| put s.cfg.regmap.lowBit (flagBit (fifoLow s))
    ||| put s.cfg.regmap.level (BitVec.ofNat s.cfg.regmap.levelBits s.depth)

/-- A context as `KEY_ID` shows it, its three fields at these positions (10_state R35). -/
def keyIdPart (m : RegMap) (c : Context) (keySelect enabled commandId : Nat) : Word :=
  put keySelect (c.keySelect.setWidth m.keySelectBits) ||| put enabled (flagBit c.enabled)
    ||| put commandId (c.commandId.setWidth m.commandIdBits)

/-- `KEY_ID` (10_state R35, 40_register_interface R132). -/
def keyId (s : State) : Word :=
  keyIdPart s.cfg.regmap (s.ctx 0) s.cfg.regmap.keySelect0 s.cfg.regmap.enabled0 s.cfg.regmap.commandId0
    ||| keyIdPart s.cfg.regmap (s.ctx 1) s.cfg.regmap.keySelect1 s.cfg.regmap.enabled1 s.cfg.regmap.commandId1

/-- The read multiplexer (40_register_interface R132). -/
def readReg (r : Reg) (s : State) : Word :=
  match r with
  | .control => 0
  | .keyId => keyId s
  | .intStatus => s.intStatus
  | .intEnable => s.intEnable
  | .watermarks => s.watermarks
  | .commandFifoStatus => commandFifoStatus s
  | .flagCommand => s.flagCommand
  | .commandFifo => 0

end Sys2Proof.Machine
end

