-- ==== Sys2Proof/Machine/Ops.lean ====
section
/-! DEFINITION. The named operations: the interrupt line (60_exceptions R251), raising a condition, which is this block's way of
taking an exception (60_exceptions R240), and ending one (40_register_interface R135), the register files, the free values
(00_scope R8), the DMA sequencer (20_memory R64 to R66), the drain and the full reset (70_reset_and_hazards R271). -/

namespace Sys2Proof.Machine

/-! ### Observations and the interrupt line -/

/-- Records an observation (log 13). -/
def emit (o : Obs) (s : State) : State := { s with trace := s.trace ++ [o] }

/-- `irq_update()` (60_exceptions R251). -/
def irqUpdate (s : State) : State :=
  { s with
    irq := irqLevel s.intStatus s.intEnable
    trace := s.trace ++ irqEdge s.irq (irqLevel s.intStatus s.intEnable) }

/-! ### Conditions -/

/-- `raise X` (60_exceptions R240, R256): the bit is set and the line updated; nothing is saved, no mode changes, nothing is entered. -/
def raise (c : Condition) (s : State) : State := irqUpdate { s with intStatus := s.intStatus ||| c.mask s.cfg }

/-- The host's write-one-to-clear, the only way a condition ends but for the full reset (40_register_interface R135, 60_exceptions R257). -/
def clearStatus (v : Word) (s : State) : State := irqUpdate { s with intStatus := s.intStatus &&& ~~~v }

/-! ### Register files and the in-flight command -/

/-- `CTX[n] <- x`. -/
def setCtx (n : Fin 2) (x : Context) (s : State) : State := { s with ctxs := s.ctxs.set n x }

/-- `IV[k] <- x`. -/
def setIv (k : Fin 4) (x : List Byte) (s : State) : State := { s with ivs := s.ivs.set k x }

/-- `ENGINE.inflight.phase <- p`. -/
def setPhase (p : Phase) (s : State) : State :=
  { s with inflight := s.inflight.map fun c => { c with phase := p } }

/-- `ENGINE.inflight.buf <- b` and `ENGINE.inflight.phase <- p`. -/
def setBuffer (b : List Byte) (p : Phase) (s : State) : State :=
  { s with inflight := s.inflight.map fun c => { c with phase := p, buf := b } }

/-! ### Free values -/

/-- `draw(n)` (00_scope R8): n bytes that no rule constrains (log 6). -/
def draw (n : Nat) (s : State) : List Byte := (List.range n).map fun i => Config.freeByte (s.freeCount + i)

/-- The drawn bytes are used up. -/
def skipFree (n : Nat) (s : State) : State := { s with freeCount := s.freeCount + n }

/-! ### The DMA sequencer -/

/-- What the oracle answers to the next access: the next listed answer, or the free one (20_memory R66; log 4). -/
def nextAnswer (s : State) : DmaAnswer :=
  match s.dmaAnswers with
  | a :: _ => a
  | [] => Config.dmaAnswer s.freeCount

/-- The answer is used up. -/
def takeAnswer (s : State) : State :=
  { s with
    dmaAnswers := s.dmaAnswers.tail
    freeCount := if s.dmaAnswers = [] then s.freeCount + 1 else s.freeCount }

/-- `MemRead(addr, n)` (20_memory R64, R66): the bytes, and the state after; no bytes while the oracle has not answered (log 5). A failed
read delivers `draw(n)`. For n = 0 there is no access. Byte `i` is the one at the number `addr + i`, past 2^64 too (log 27). -/
def memRead (addr : Addr) (n : Nat) (s : State) : Option (List Byte) × State :=
  if n = 0 then (some [], s)
  else
    match nextAnswer s with
    | .ok => (some (s.mem.readBytes addr.toNat n), emit (.dmaRead addr n) (takeAnswer s))
    | .fail => (some (draw n (takeAnswer s)), skipFree n (emit (.dmaRead addr n) (takeAnswer s)))
    | .noAnswer => (none, takeAnswer s)

/-- `MemWrite(addr, n, v)` (20_memory R65, R66): whether the oracle has answered, and the state after. A failed write leaves any bytes
in the range and none changed outside it. For n = 0 there is no access. Byte `i` goes to the number `addr + i`, past 2^64 too (log 27). -/
def memWrite (addr : Addr) (n : Nat) (v : List Byte) (s : State) : Bool × State :=
  if n = 0 then (true, s)
  else
    match nextAnswer s with
    | .ok => (true, emit (.dmaWrite addr n) { takeAnswer s with mem := s.mem.writeBytes addr.toNat (v.take n) })
    | .fail =>
      (true, skipFree n (emit (.dmaWrite addr n)
        { takeAnswer s with mem := s.mem.writeBytes addr.toNat (draw n (takeAnswer s)) }))
    | .noAnswer => (false, takeAnswer s)

/-! ### The queue, the drain and the resets -/

/-- The words of the in-flight command, as they count in `DEPTH` (41_framer_queue R170). -/
def inflightWords (s : State) : Nat :=
  match s.inflight with
  | some c => c.cmd.words.length
  | none => 0

/-- The drain of RESET (40_register_interface R145, 41_framer_queue R168). -/
def drain (s : State) : State :=
  irqUpdate { s with
    queue := []
    framer := ⟨[], 0⟩
    depth := inflightWords s
    overflow := overflowOf s.cfg (inflightWords s) }

/-- `full_reset()` (70_reset_and_hazards R271). External memory and the rest of the environment are not touched, nor is `HOST.pending`. -/
def fullReset (s : State) : State :=
  irqUpdate { s with
    queue := []
    framer := ⟨[], 0⟩
    depth := 0
    overflow := false
    intStatus := 0
    intEnable := 0
    watermarks := 0
    flagCommand := 0
    ctxs := ⟨Context.empty, Context.empty⟩
    ivs := ⟨zeroIv, zeroIv, zeroIv, zeroIv⟩
    running := false
    stopReq := false
    inflight := none }

/-- The effect of a word at a command boundary that is no command (41_framer_queue R162): `INVALID_COMMAND`, and the word is gone. -/
def discardWord (s : State) : State := raise .invalidCommand s

end Sys2Proof.Machine
end

