-- ==== Sys2Proof/Machine/Control.lean ====
section
/-! DEFINITION. The four control codes, written to `CONTROL` (40_register_interface R142, R143, R145, R146). -/

namespace Sys2Proof.Machine

/-- STOP and RESET_ENGINE on a running engine: the stop is asked for and the host is held (R143, R146). -/
def holdHost (p : Pending) (s : State) : State := { s with stopReq := true, pending := p }

/-- START (R142). A running engine is left as it is. -/
def execCtrlStart (s : State) : Outcome := .next { s with running := true }

/-- STOP (R143). On a stopped engine: nothing. -/
def execCtrlStop (s : State) : Outcome := .next (if s.running then holdHost .stop s else s)

/-- RESET, the drain (R145). -/
def execCtrlReset (s : State) : Outcome := .next (drain s)

/-- RESET_ENGINE (R146): at once on a stopped engine, by the acknowledgement on a running one. -/
def execCtrlResetEngine (s : State) : Outcome := .next (if s.running then holdHost .resetEngine s else fullReset s)

end Sys2Proof.Machine
end

