-- ==== Sys2Proof/Machine/Cipher.lean ====
section
/-! DEFINITION. The cipher modes over a block function: `Transform` (43_cipher_modes R222 to R227). The block function is an argument, as
the spec's `Cfg.aes` is. -/

namespace Sys2Proof.Machine

/-- A block cipher: key bytes and a block to a block, both directions (43_cipher_modes R220). -/
structure BlockCipher where
  enc : List Byte → List Byte → List Byte
  dec : List Byte → List Byte → List Byte

/-- Bytewise exclusive or of two blocks. -/
def xorBytes (a b : List Byte) : List Byte := List.zipWith (· ^^^ ·) a b

/-- The first `m` blocks of 16 bytes. -/
def blocks : Nat → List Byte → List (List Byte)
  | 0, _ => []
  | m + 1, d => d.take 16 :: blocks m (d.drop 16)

/-- A byte string as a big-endian number (R226). -/
def beNat (bs : List Byte) : Nat := bs.foldl (fun a b => a * 256 + b.toNat) 0

/-- A number as 16 bytes, most significant first (R226). -/
def beBytes16 (n : Nat) : List Byte := (List.range 16).map fun i => BitVec.ofNat 8 (n >>> (8 * (15 - i)))

/-- `inc128` (R226). -/
def inc128 (t : List Byte) : List Byte := beBytes16 ((beNat t + 1) % 2 ^ 128)

/-- ECB with a block function (R223). -/
def ecb (f : List Byte → List Byte) (iv : List Byte) (bs : List (List Byte)) : List (List Byte) × List Byte :=
  (bs.map f, iv)

/-- CBC encryption (R224): the next block chains on the ciphertext just made. -/
def cbcEncrypt (f : List Byte → List Byte) : List Byte → List (List Byte) → List (List Byte) × List Byte
  | iv, [] => ([], iv)
  | iv, b :: bs =>
    let c := f (xorBytes b iv)
    let r := cbcEncrypt f c bs
    (c :: r.1, r.2)

/-- CBC decryption (R225): the next block chains on the input block. -/
def cbcDecrypt (f : List Byte → List Byte) : List Byte → List (List Byte) → List (List Byte) × List Byte
  | iv, [] => ([], iv)
  | iv, b :: bs =>
    let r := cbcDecrypt f b bs
    (xorBytes (f b) iv :: r.1, r.2)

/-- CTR (R226). -/
def ctrMode (f : List Byte → List Byte) : List Byte → List (List Byte) → List (List Byte) × List Byte
  | t, [] => ([], t)
  | t, b :: bs =>
    let r := ctrMode f (inc128 t) bs
    (xorBytes b (f t) :: r.1, r.2)

/-- The key a context's handle uses (R221). -/
def handleKey (ctx : Context) : List Byte := ctx.key.take (keyBytes ctx.keyLen)

/-- The mode of a context on a list of blocks (R222). A context with the reserved mode has no handle and does not come here (log 17). -/
def modeBlocks (c : BlockCipher) (ctx : Context) (iv : List Byte) (bs : List (List Byte)) : List (List Byte) × List Byte :=
  match ctx.blockMode with
  | .ecb => if ctx.encrypt then ecb (c.enc (handleKey ctx)) iv bs else ecb (c.dec (handleKey ctx)) iv bs
  | .cbc => if ctx.encrypt then cbcEncrypt (c.enc (handleKey ctx)) iv bs else cbcDecrypt (c.dec (handleKey ctx)) iv bs
  | .ctr => ctrMode (c.enc (handleKey ctx)) iv bs
  | .reserved _ => (bs, iv)

/-- `Transform(ctx, iv, data)` (R222): the output and the new IV. -/
def transform (c : BlockCipher) (ctx : Context) (iv data : List Byte) : List Byte × List Byte :=
  ((modeBlocks c ctx iv (blocks (data.length / 16) data)).1.flatten,
    (modeBlocks c ctx iv (blocks (data.length / 16) data)).2)

end Sys2Proof.Machine
end

