-- ==== Sys2Proof/Machine/Aes.lean ====
section
/-! DEFINITION. `Cfg.aes` at its default (00_scope R6, 43_cipher_modes R220): the AES forward and inverse cipher of FIPS-197 for keys of
16, 24 and 32 bytes. The spec names FIPS-197 and does not print it: PRESUMED, from the standard (log 2). -/

namespace Sys2Proof.Machine

/-- A column of the AES state, row 0 first. -/
structure AesCol where
  r0 : Byte
  r1 : Byte
  r2 : Byte
  r3 : Byte
  deriving DecidableEq, Repr

/-- The AES state: four columns; column c holds bytes 4c to 4c+3 of the block. -/
structure AesState where
  c0 : AesCol
  c1 : AesCol
  c2 : AesCol
  c3 : AesCol
  deriving DecidableEq, Repr

/-- The S-box, a row of 16 bytes in each number, first byte most significant. -/
def sboxRows : List Nat :=
  [0x637c777bf26b6fc53001672bfed7ab76,
   0xca82c97dfa5947f0add4a2af9ca472c0,
   0xb7fd9326363ff7cc34a5e5f171d83115,
   0x04c723c31896059a071280e2eb27b275,
   0x09832c1a1b6e5aa0523bd6b329e32f84,
   0x53d100ed20fcb15b6acbbe394a4c58cf,
   0xd0efaafb434d338545f9027f503c9fa8,
   0x51a3408f929d38f5bcb6da2110fff3d2]
  ++ [0xcd0c13ec5f974417c4a77e3d645d1973,
   0x60814fdc222a908846eeb814de5e0bdb,
   0xe0323a0a4906245cc2d3ac629195e479,
   0xe7c8376d8dd54ea96c56f4ea657aae08,
   0xba78252e1ca6b4c6e8dd741f4bbd8b8a,
   0x703eb5664803f60e613557b986c11d9e,
   0xe1f8981169d98e949b1e87e9ce5528df,
   0x8ca1890dbfe6426841992d0fb054bb16]

/-- The inverse S-box, in the same form. -/
def invSboxRows : List Nat :=
  [0x52096ad53036a538bf40a39e81f3d7fb,
   0x7ce339829b2fff87348e4344c4dee9cb,
   0x547b9432a6c2233dee4c950b42fac34e,
   0x082ea16628d924b2765ba2496d8bd125,
   0x72f8f66486689816d4a45ccc5d65b692,
   0x6c704850fdedb9da5e154657a78d9d84,
   0x90d8ab008cbcd30af7e45805b8b34506,
   0xd02c1e8fca3f0f02c1afbd0301138a6b]
  ++ [0x3a9111414f67dcea97f2cfcef0b4e673,
   0x96ac7422e7ad3585e2f937e81c75df6e,
   0x47f11a711d29c5896fb7620eaa18be1b,
   0xfc563e4bc6d279209adbc0fe78cd5af4,
   0x1fdda8338807c731b11210592780ec5f,
   0x60517fa919b54a0d2de57a9f93c99cef,
   0xa0e03b4dae2af5b0c8ebbb3c83539961,
   0x172b047eba77d626e169146355210c7d]

/-- The byte of a table of 16 rows. -/
def tableByte (rows : List Nat) (x : Byte) : Byte :=
  BitVec.ofNat 8 (rows.getD (x.toNat / 16) 0 >>> (8 * (15 - x.toNat % 16)))

/-- SubBytes on one byte. -/
def subByte (x : Byte) : Byte := tableByte sboxRows x

/-- InvSubBytes on one byte. -/
def invSubByte (x : Byte) : Byte := tableByte invSboxRows x

/-- Multiplication by x in the field of FIPS-197. -/
def xtime (x : Byte) : Byte := (x <<< 1) ^^^ (if x.msb then 0x1b else 0)

/-- Multiplication by 3. -/
def mul3 (x : Byte) : Byte := xtime x ^^^ x

/-- Multiplication by 9. -/
def mul9 (x : Byte) : Byte := xtime (xtime (xtime x)) ^^^ x

/-- Multiplication by 11. -/
def mul11 (x : Byte) : Byte := xtime (xtime (xtime x)) ^^^ xtime x ^^^ x

/-- Multiplication by 13. -/
def mul13 (x : Byte) : Byte := xtime (xtime (xtime x)) ^^^ xtime (xtime x) ^^^ x

/-- Multiplication by 14. -/
def mul14 (x : Byte) : Byte := xtime (xtime (xtime x)) ^^^ xtime (xtime x) ^^^ xtime x

/-- A function on each byte of a column. -/
def AesCol.map (f : Byte → Byte) (c : AesCol) : AesCol := ⟨f c.r0, f c.r1, f c.r2, f c.r3⟩

/-- Exclusive or of columns. -/
def AesCol.xor (a b : AesCol) : AesCol := ⟨a.r0 ^^^ b.r0, a.r1 ^^^ b.r1, a.r2 ^^^ b.r2, a.r3 ^^^ b.r3⟩

/-- MixColumns on one column. -/
def mixCol (c : AesCol) : AesCol where
  r0 := xtime c.r0 ^^^ mul3 c.r1 ^^^ c.r2 ^^^ c.r3
  r1 := c.r0 ^^^ xtime c.r1 ^^^ mul3 c.r2 ^^^ c.r3
  r2 := c.r0 ^^^ c.r1 ^^^ xtime c.r2 ^^^ mul3 c.r3
  r3 := mul3 c.r0 ^^^ c.r1 ^^^ c.r2 ^^^ xtime c.r3

/-- InvMixColumns on one column. -/
def invMixCol (c : AesCol) : AesCol where
  r0 := mul14 c.r0 ^^^ mul11 c.r1 ^^^ mul13 c.r2 ^^^ mul9 c.r3
  r1 := mul9 c.r0 ^^^ mul14 c.r1 ^^^ mul11 c.r2 ^^^ mul13 c.r3
  r2 := mul13 c.r0 ^^^ mul9 c.r1 ^^^ mul14 c.r2 ^^^ mul11 c.r3
  r3 := mul11 c.r0 ^^^ mul13 c.r1 ^^^ mul9 c.r2 ^^^ mul14 c.r3

/-- A function on each column. -/
def AesState.map (f : AesCol → AesCol) (s : AesState) : AesState := ⟨f s.c0, f s.c1, f s.c2, f s.c3⟩

/-- AddRoundKey. -/
def addRoundKey (k s : AesState) : AesState := ⟨s.c0.xor k.c0, s.c1.xor k.c1, s.c2.xor k.c2, s.c3.xor k.c3⟩

/-- ShiftRows: row r goes r columns to the left. -/
def shiftRows (s : AesState) : AesState where
  c0 := ⟨s.c0.r0, s.c1.r1, s.c2.r2, s.c3.r3⟩
  c1 := ⟨s.c1.r0, s.c2.r1, s.c3.r2, s.c0.r3⟩
  c2 := ⟨s.c2.r0, s.c3.r1, s.c0.r2, s.c1.r3⟩
  c3 := ⟨s.c3.r0, s.c0.r1, s.c1.r2, s.c2.r3⟩

/-- InvShiftRows: row r goes r columns to the right. -/
def invShiftRows (s : AesState) : AesState where
  c0 := ⟨s.c0.r0, s.c3.r1, s.c2.r2, s.c1.r3⟩
  c1 := ⟨s.c1.r0, s.c0.r1, s.c3.r2, s.c2.r3⟩
  c2 := ⟨s.c2.r0, s.c1.r1, s.c0.r2, s.c3.r3⟩
  c3 := ⟨s.c3.r0, s.c2.r1, s.c1.r2, s.c0.r3⟩

/-- SubBytes. -/
def subBytes (s : AesState) : AesState := s.map (AesCol.map subByte)

/-- InvSubBytes. -/
def invSubBytes (s : AesState) : AesState := s.map (AesCol.map invSubByte)

/-- The rounds after the first AddRoundKey, over the round keys that are left; the last round has no MixColumns. -/
def encRounds : List AesState → AesState → AesState
  | [], s => s
  | [k], s => addRoundKey k (shiftRows (subBytes s))
  | k :: ks, s => encRounds ks (addRoundKey k ((shiftRows (subBytes s)).map mixCol))

/-- The same rounds undone, last first. -/
def decRounds : List AesState → AesState → AesState
  | [], s => s
  | [k], s => invSubBytes (invShiftRows (addRoundKey k s))
  | k :: ks, s => invSubBytes (invShiftRows ((addRoundKey k (decRounds ks s)).map invMixCol))

/-- Round constants. -/
def rcon : List Byte := [0x01, 0x02, 0x04, 0x08, 0x10, 0x20, 0x40, 0x80, 0x1b, 0x36]

/-- A column of zeros, for positions outside a list. -/
def zeroCol : AesCol := ⟨0, 0, 0, 0⟩

/-- RotWord. -/
def rotCol (c : AesCol) : AesCol := ⟨c.r1, c.r2, c.r3, c.r0⟩

/-- The key expansion: `n` more words after the first `i`, which are given newest first; `nk` is the key length in words. -/
def expandKey (nk : Nat) : Nat → Nat → List AesCol → List AesCol
  | 0, _, acc => acc
  | n + 1, i, acc =>
    let last := acc.getD 0 zeroCol
    let t :=
      if i % nk = 0 then ((rotCol last).map subByte).xor ⟨rcon.getD (i / nk - 1) 0, 0, 0, 0⟩
      else if nk > 6 ∧ i % nk = 4 then last.map subByte
      else last
    expandKey nk n (i + 1) ((acc.getD (nk - 1) zeroCol).xor t :: acc)

/-- Bytes as columns. -/
def colsOf : List Byte → List AesCol
  | a :: b :: c :: d :: rest => ⟨a, b, c, d⟩ :: colsOf rest
  | _ => []

/-- Columns as round keys. -/
def roundKeysOf : List AesCol → List AesState
  | a :: b :: c :: d :: rest => ⟨a, b, c, d⟩ :: roundKeysOf rest
  | _ => []

/-- The round keys of a key: with `nk` key words there are `nk + 7` of them. -/
def roundKeys (key : List Byte) : List AesState :=
  let cols := colsOf key
  let nk := cols.length
  roundKeysOf (expandKey nk (4 * (nk + 7) - nk) nk cols.reverse).reverse

/-- A block as an AES state. -/
def aesStateOf (b : List Byte) : AesState where
  c0 := ⟨b.getD 0 0, b.getD 1 0, b.getD 2 0, b.getD 3 0⟩
  c1 := ⟨b.getD 4 0, b.getD 5 0, b.getD 6 0, b.getD 7 0⟩
  c2 := ⟨b.getD 8 0, b.getD 9 0, b.getD 10 0, b.getD 11 0⟩
  c3 := ⟨b.getD 12 0, b.getD 13 0, b.getD 14 0, b.getD 15 0⟩

/-- The bytes of a column. -/
def AesCol.bytes (c : AesCol) : List Byte := [c.r0, c.r1, c.r2, c.r3]

/-- An AES state as a block. -/
def AesState.bytes (s : AesState) : List Byte := s.c0.bytes ++ s.c1.bytes ++ s.c2.bytes ++ s.c3.bytes

/-- The forward cipher over given round keys. -/
def encState : List AesState → AesState → AesState
  | [], s => s
  | k :: ks, s => encRounds ks (addRoundKey k s)

/-- The inverse cipher over given round keys. -/
def decState : List AesState → AesState → AesState
  | [], s => s
  | k :: ks, s => addRoundKey k (decRounds ks s)

/-- `AES_E(k, x)` (43_cipher_modes R220). -/
def aesE (key x : List Byte) : List Byte := (encState (roundKeys key) (aesStateOf x)).bytes

/-- `AES_D(k, x)` (R220). -/
def aesD (key x : List Byte) : List Byte := (decState (roundKeys key) (aesStateOf x)).bytes

/-- AES, the default of `Cfg.aes`. -/
def aes : BlockCipher := ⟨aesE, aesD⟩

/-- A block as a number of 128 bits, first byte most significant. -/
def blockNumber (b : List Byte) : BitVec 128 := BitVec.ofNat 128 (beNat b)

/-- A block function given as a permutation of the blocks under each key (R220; log 2). -/
def permutationCipher (p : List Byte → Equiv.Perm (BitVec 128)) : BlockCipher where
  enc key x := beBytes16 (p key (blockNumber x)).toNat
  dec key x := beBytes16 ((p key).symm (blockNumber x)).toNat

/-- The block function of a configuration (R220, 00_scope R6). -/
def blockCipher : BlockFunction → BlockCipher
  | .aes => aes
  | .other n => permutationCipher (Config.blockPermutation n)

end Sys2Proof.Machine
end

