-- ==== Sys2Proof/Machine/DataCmd.lean ====
section
/-! DEFINITION. DATA (42_engine_commands R187 to R194): three engine steps, by the phase of the in-flight command. -/

namespace Sys2Proof.Machine

/-- The context is enabled and has a live handle (R189). -/
def ctxLive (c : Context) : Bool := c.enabled && decide (c.handle = .active)

/-- The length is a multiple of the block size (R188). -/
def lengthOk (d : DataFields) : Bool := decide (dataLength d % 16 = 0)

/-- The load (R190): one `MemRead(src, length)` into the scratch buffer; while the oracle has not answered the command stays where it is
(log 5). -/
def dataLoad (d : DataFields) (s : State) : State :=
  match memRead (dataSrc d) (dataLength d) s with
  | (some b, s') => setBuffer b .dataLoaded s'
  | (none, s') => s'

/-- The execute step from phase `FETCHED` (R187): length check, key check, load, in this order. -/
def dataExecute (d : DataFields) (s : State) : State :=
  if lengthOk d = false then setPhase .executed (raise .invalidDataLength s)
  else if ctxLive (s.ctx d.keyCtx) = false then setPhase .executed (raise (.keyDisabled d.keyCtx) s)
  else dataLoad d s

/-- The output and the new IV of the transform of the scratch buffer with the block function of the configuration (R191). -/
def dataResult (d : DataFields) (s : State) : List Byte × List Byte :=
  transform (blockCipher s.cfg.aes) (s.ctx d.keyCtx) (s.iv d.ivCtx) s.scratch

/-- The transform, from phase `DATA_LOADED` (R191). After a failed read R193 (f) leaves the slot unconstrained in every mode but ECB, while in
CTR R191 with 43_cipher_modes R226 (D30) gives it from the counter alone: DESIGN CHOICE, the model follows R191 and R226, and
so the slot is then the counter advanced by the number of blocks (log 28). -/
def dataTransform (d : DataFields) (s : State) : State :=
  setBuffer (dataResult d s).1 .dataXformed (setIv d.ivCtx (dataResult d s).2 s)

/-- The write back, from phase `DATA_XFORMED` (R192): one `MemWrite(dst, length, buf)`, its result not recorded. -/
def dataWriteBack (d : DataFields) (s : State) : State :=
  match memWrite (dataDst d) (dataLength d) s.scratch s with
  | (true, s') => setPhase .executed s'
  | (false, s') => s'

/-- DATA (R187, R191, R192): the step of its phase (42_engine_commands R200). In `EXECUTED` every effect is done (10_state R39; log 16). -/
def execData (d : DataFields) (s : State) : Outcome :=
  .next (match s.phase with
    | .fetched => dataExecute d s
    | .dataLoaded => dataTransform d s
    | .dataXformed => dataWriteBack d s
    | .executed => s)

end Sys2Proof.Machine
end

