-- ==== Sys2Proof/Machine/Discard.lean ====
section
/-! DEFINITION. Words at a command boundary that are no command: KEY with the reserved length class (30_encoding R106) and the
unrecognised opcodes (R105), each with the effect of 41_framer_queue R162. The ENGINE's arm for such a command is in Engine.lean. -/

namespace Sys2Proof.Machine

/-- KEY with length class 3 (R106, R162). -/
def execKeyReserved (_lo _hi : BitVec 16) (s : State) : Outcome := .next (discardWord s)

/-- Opcode 0 (R105, R162). -/
def execUnrec0 (_ignored : Word) (s : State) : Outcome := .next (discardWord s)

/-- Opcode 3 (R105, R162). -/
def execUnrec3 (_ignored : Word) (s : State) : Outcome := .next (discardWord s)

/-- Opcode 4 (R105, R162). -/
def execUnrec4 (_ignored : Word) (s : State) : Outcome := .next (discardWord s)

/-- Opcode 7 (R105, R162). -/
def execUnrec7 (_ignored : Word) (s : State) : Outcome := .next (discardWord s)

/-- Opcode 9 (R105, R162). -/
def execUnrec9 (_ignored : Word) (s : State) : Outcome := .next (discardWord s)

/-- Opcode 10 (R105, R162). -/
def execUnrec10 (_ignored : Word) (s : State) : Outcome := .next (discardWord s)

/-- Opcode 11 (R105, R162). -/
def execUnrec11 (_ignored : Word) (s : State) : Outcome := .next (discardWord s)

/-- Opcode 12 (R105, R162). -/
def execUnrec12 (_ignored : Word) (s : State) : Outcome := .next (discardWord s)

/-- Opcode 13 (R105, R162). -/
def execUnrec13 (_ignored : Word) (s : State) : Outcome := .next (discardWord s)

/-- Opcode 14 (R105, R162). -/
def execUnrec14 (_ignored : Word) (s : State) : Outcome := .next (discardWord s)

/-- Opcode 15 (R105, R162). -/
def execUnrec15 (_ignored : Word) (s : State) : Outcome := .next (discardWord s)

end Sys2Proof.Machine
end

