-- ==== Sys2Proof/Machine/FlagCmd.lean ====
section
/-! DEFINITION. FLAG, its execute step (42_engine_commands R197). Its stop bit is applied by the completion step (R198, R201). -/

namespace Sys2Proof.Machine

/-- `FLAG_COMMAND <- zext_32(id_code)` (R197, 10_state R34), in the field the register has for it. -/
def storeFlag (d : FlagFields) (s : State) : State :=
  { s with flagCommand := put s.cfg.regmap.flagCode (d.idCode.setWidth s.cfg.regmap.flagCodeBits) }

/-- The execute step of FLAG (R197): the store and the status bit are one step. -/
def flagExecute (d : FlagFields) (s : State) : State :=
  setPhase .executed (if d.sendInt then raise .flagCommand (storeFlag d s) else storeFlag d s)

/-- FLAG (R197). -/
def execFlag (d : FlagFields) (s : State) : Outcome := .next (flagExecute d s)

end Sys2Proof.Machine
end

