-- ==== Sys2Proof/Machine/IvCmd.lean ====
section
/-! DEFINITION. IV (42_engine_commands R186) and STORE_IV (R195, R196), their execute steps. -/

namespace Sys2Proof.Machine

/-- The execute step of IV (R186). -/
def ivExecute (d : IvDesc) (ws : List Word) (s : State) : State :=
  setPhase .executed (setIv d.slot (bytesLe ws) s)

/-- IV (R186). -/
def execIv (d : IvDesc) (words : List Word) (s : State) : Outcome := .next (ivExecute d words s)

/-- The 16 bytes STORE_IV writes (R195): those of the slot its selector names. A selector wider than the default's can name no slot; no rule
says what is written then, and it is 16 free bytes (93_implementation_defined U4; log 26). -/
def storeIvBytes (d : StoreIvFields) (s : State) : List Byte :=
  match slotOf d.slot with
  | some k => s.iv k
  | none => draw 16 s

/-- How many free bytes the command takes. -/
def storeIvDrawn (d : StoreIvFields) : Nat := if (slotOf d.slot).isSome then 0 else 16

/-- The execute step of STORE_IV (R195): one `MemWrite(dst, 16, IV[s])`, its result not recorded; while the oracle has not answered the
command stays where it is (log 5). -/
def storeIvExecute (d : StoreIvFields) (s : State) : State :=
  match memWrite (storeIvDst d) 16 (storeIvBytes d s) s with
  | (true, s') => setPhase .executed (skipFree (storeIvDrawn d) s')
  | (false, s') => s'

/-- STORE_IV (R195). -/
def execStoreIv (d : StoreIvFields) (s : State) : Outcome := .next (storeIvExecute d s)

end Sys2Proof.Machine
end

