-- ==== Sys2Proof/Machine/KeyCmd.lean ====
section
/-! DEFINITION. KEY, its execute step (42_engine_commands R181 to R185), for the three length classes. -/

namespace Sys2Proof.Machine

/-- The context a KEY command leaves in its slot (R181 to R183), `sw` being the key-select value of a software key (30_encoding R96). -/
def keyContext (sw : Word) (len : KeyLen) (d : KeyDesc) (ws : List Word) : Context where
  keySelect := d.keySelect
  keyLen    := len
  wrapped   := d.wrapped
  encrypt   := d.encrypt
  keyFunc   := d.keyFunc
  blockMode := d.blockMode
  commandId := d.commandId
  key       := paddedKey ws
  handle    := if d.keySelect = sw ∧ d.blockMode.isMode then .active else .none
  enabled   := decide (d.keySelect = sw)

/-- The execute step of KEY (R181): the context is replaced whole; a key that is not a software key sets `KEY_DISABLED(n)`. -/
def keyExecute (len : KeyLen) (d : KeyDesc) (ws : List Word) (s : State) : State :=
  setPhase .executed
    (if d.keySelect = s.cfg.keyselSoftware then setCtx d.ctx (keyContext s.cfg.keyselSoftware len d ws) s
     else raise (.keyDisabled d.ctx) (setCtx d.ctx (keyContext s.cfg.keyselSoftware len d ws) s))

/-- KEY with a 128-bit key (R181). -/
def execKey128 (d : KeyDesc) (key : List Word) (s : State) : Outcome := .next (keyExecute .k128 d key s)

/-- KEY with a 192-bit key (R181). -/
def execKey192 (d : KeyDesc) (key : List Word) (s : State) : Outcome := .next (keyExecute .k192 d key s)

/-- KEY with a 256-bit key (R181). -/
def execKey256 (d : KeyDesc) (key : List Word) (s : State) : Outcome := .next (keyExecute .k256 d key s)

end Sys2Proof.Machine
end

