-- ==== Sys2Proof/Machine/Dispatch.lean ====
section
/-! DEFINITION. One arm for each instruction, one direct call of its meaning. -/

namespace Sys2Proof.Machine

def exec (i : Instr) (s : State) : Host.Outcome State Fault Refusal :=
  match i with
  -- KEY
  | .key128 d key => Sys2Proof.Machine.execKey128 d key s
  | .key192 d key => Sys2Proof.Machine.execKey192 d key s
  | .key256 d key => Sys2Proof.Machine.execKey256 d key s
  | .keyReserved lo hi => Sys2Proof.Machine.execKeyReserved lo hi s
  -- IV, DATA, STORE_IV, FLAG
  | .iv d words => Sys2Proof.Machine.execIv d words s
  | .data d => Sys2Proof.Machine.execData d s
  | .storeIv d => Sys2Proof.Machine.execStoreIv d s
  | .flag d => Sys2Proof.Machine.execFlag d s
  -- unrecognised opcodes
  | .unrec0 ignored => Sys2Proof.Machine.execUnrec0 ignored s
  | .unrec3 ignored => Sys2Proof.Machine.execUnrec3 ignored s
  | .unrec4 ignored => Sys2Proof.Machine.execUnrec4 ignored s
  | .unrec7 ignored => Sys2Proof.Machine.execUnrec7 ignored s
  | .unrec9 ignored => Sys2Proof.Machine.execUnrec9 ignored s
  | .unrec10 ignored => Sys2Proof.Machine.execUnrec10 ignored s
  | .unrec11 ignored => Sys2Proof.Machine.execUnrec11 ignored s
  | .unrec12 ignored => Sys2Proof.Machine.execUnrec12 ignored s
  | .unrec13 ignored => Sys2Proof.Machine.execUnrec13 ignored s
  | .unrec14 ignored => Sys2Proof.Machine.execUnrec14 ignored s
  | .unrec15 ignored => Sys2Proof.Machine.execUnrec15 ignored s
  -- control codes
  | .ctrlStart => Sys2Proof.Machine.execCtrlStart s
  | .ctrlStop => Sys2Proof.Machine.execCtrlStop s
  | .ctrlReset => Sys2Proof.Machine.execCtrlReset s
  | .ctrlResetEngine => Sys2Proof.Machine.execCtrlResetEngine s

end Sys2Proof.Machine
end

