-- ==== Sys2Proof/Machine/Bus.lean ====
section
/-! DEFINITION. Other masters of the external memory, one byte at a time, and the race of 20_memory R71 (log 9). -/

namespace Sys2Proof.Machine

/-- An address lies in the `n` bytes from `base`; what of such a range is at 2^64 or above, no address of another master reaches (log 27). -/
def inRange (a base : Addr) (n : Nat) : Bool := decide (base.toNat ≤ a.toNat ∧ a.toNat < base.toNat + n)

/-- The DATA command passes its checks, so it will touch memory or has touched it (42_engine_commands R187). -/
def dataTouches (d : DataFields) (s : State) : Bool := lengthOk d && ctxLive (s.ctx d.keyCtx)

/-- The byte is in the destination range of the in-flight command, which is raced on from its dequeue to its completion (R71, R283). -/
def inDestination (a : Addr) (s : State) : Bool :=
  match s.inflight with
  | none => false
  | some c =>
    match decodeCommand s.cfg c.cmd.words with
    | some (.data d) => dataTouches d s && inRange a (dataDst d) (dataLength d)
    | some (.storeIv d) => inRange a (storeIvDst d) 16
    | _ => false

/-- The byte is in the source range of an in-flight DATA command that has not read it yet (R71). -/
def inSource (a : Addr) (s : State) : Bool :=
  match s.inflight with
  | none => false
  | some c =>
    match decodeCommand s.cfg c.cmd.words with
    | some (.data d) => decide (c.phase = .fetched) && dataTouches d s && inRange a (dataSrc d) (dataLength d)
    | _ => false

/-- Another master reads a byte. -/
def busRead (a : Addr) (s : State) : Outcome :=
  if inDestination a s then .fault .dmaRace else .next (emit (.busRead a (s.mem.read a.toNat)) s)

/-- Another master writes a byte. -/
def busWrite (a : Addr) (b : Byte) (s : State) : Outcome :=
  if inDestination a s || inSource a s then .fault .dmaRace
  else .next { s with mem := s.mem.write a.toNat b }

end Sys2Proof.Machine
end

