-- ==== Sys2Proof/Machine/Engine.lean ====
section
/-! DEFINITION. The ENGINE's steps around the commands (42_engine_commands R200): dequeue (R180), execute, complete (R201), acknowledge a
stop (R203), idle (R202), and the engine's arm for a command that is none (R199). -/

namespace Sys2Proof.Machine

/-- Dequeue (R180): the command leaves the queue; `DEPTH` does not change. -/
def dequeue (c : Command) (rest : List Command) (s : State) : State :=
  { s with inflight := some ⟨c, .fetched, []⟩, queue := rest }

/-- A FLAG command with its stop bit set (R201): at the default `words[0][3:0] = 8` and `words[0][5] = 1`. -/
def flagStops (k : Cfg) (c : Command) : Bool :=
  match c.words with
  | w :: _ => decide (opcode k w = k.layout.opFlag) && bitAt w k.layout.flagStop
  | [] => false

/-- Complete (R201): the command's words come off `DEPTH`, the line is updated, a FLAG with stop stops the engine, and the command is gone.
`OVERFLOW` is left alone. -/
def complete (c : Command) (s : State) : State :=
  { irqUpdate { s with depth := s.depth - c.words.length } with
    running := if flagStops s.cfg c then false else s.running
    inflight := none }

/-- Acknowledge a stop (R203). -/
def acknowledge (s : State) : State :=
  if s.pending = .resetEngine then
    { fullReset { s with running := false, stopReq := false } with pending := .none }
  else { s with running := false, stopReq := false, pending := .none }

/-- The engine's arm for an in-flight command that is no command (R199). From reset no run reaches it; KEY with length class 3 falls here
too (log 12). -/
def unrecognisedArm (s : State) : State := setPhase .executed (raise .invalidCommand s)

/-- The phases of DATA belong to DATA alone (10_state R39). -/
def phaseFits (i : Instr) (p : Phase) : Bool :=
  match p with
  | .fetched | .executed => true
  | .dataLoaded | .dataXformed =>
    match i with
    | .data _ => true
    | _ => false

/-- The execute step of the in-flight command (R200): its instruction, decoded from its words, runs. A word that is no
command has a step from `FETCHED` alone (R199); in a DATA phase, where no rule gives it one, the machine stops (log 11). -/
def engineExecute (c : Inflight) (s : State) : Outcome :=
  match c.cmd.words with
  | [] => .fault .illFormedCommand
  | w :: rest =>
    if cmdWords s.cfg w = 0 then
      if c.phase = .fetched then .next (unrecognisedArm s) else .fault .illFormedCommand
    else
      match decodeCommand s.cfg (w :: rest) with
      | some i => if phaseFits i c.phase then exec i s else .fault .illFormedCommand
      | none => .fault .illFormedCommand

/-- The ENGINE's one next step (R200). An idle engine stays as it is (R202; log 8). -/
def engineStep (s : State) : Outcome :=
  match s.inflight with
  | some c => if c.phase = .executed then .next (complete c.cmd s) else engineExecute c s
  | none =>
    if s.stopReq then .next (acknowledge s)
    else if s.running then
      match s.queue with
      | c :: rest => .next (dequeue c rest s)
      | [] => .next s
    else .next s

end Sys2Proof.Machine
end

