-- ==== Sys2Proof/Machine/Registers.lean ====
section
/-! DEFINITION. The HOST's steps: the framer (41_framer_queue R161), the register writes (40_register_interface R135 to R139, R141,
R147), the register reads (R132), and the accesses that have no meaning (R133). -/

namespace Sys2Proof.Machine

/-- The framer's accumulator with one word more, at the boundary or inside a command (41_framer_queue R161). -/
def framerPush (w : Word) (s : State) : Framer :=
  if s.framer.need = 0 then ⟨[w], cmdWords s.cfg w⟩ else ⟨s.framer.buf ++ [w], s.framer.need⟩

/-- A word is accepted (R161, R163 to R165): it is counted, `OVERFLOW` is recomputed, and a full accumulator goes to the queue. -/
def acceptWord (w : Word) (s : State) : State :=
  let f := framerPush w s
  let full := decide (f.buf.length = f.need)
  { s with
    depth := s.depth + 1
    overflow := overflowOf s.cfg (s.depth + 1)
    queue := if full then s.queue ++ [⟨f.buf⟩] else s.queue
    framer := if full then ⟨[], 0⟩ else f }

/-- `RegWrite(0x200, w)` (R161): at a command boundary a word that is no command runs as its row of the opcode table, and has the
same effect where the table has no row for it (R162; log 25). -/
def framerWrite (w : Word) (s : State) : Outcome :=
  if s.framer.need = 0 ∧ cmdWords s.cfg w = 0 then
    match discardedRow s.cfg w with
    | some i => exec i s
    | none => .next (discardWord s)
  else .next (acceptWord w s)

/-- `RegWrite(0x008, v)` (40_register_interface R141, R147). -/
def controlWrite (v : Word) (s : State) : Outcome :=
  match decodeControl s.cfg v with
  | some i => exec i s
  | none => .next s

/-- `RegWrite` to a register (R135 to R139, R141). -/
def writeReg (r : Reg) (v : Word) (s : State) : Outcome :=
  match r with
  | .control => controlWrite v s
  | .keyId => .next s
  | .intStatus => .next (clearStatus v s)
  | .intEnable => .next (irqUpdate { s with intEnable := v })
  | .watermarks => .next { s with watermarks := v }
  | .commandFifoStatus => .next s
  | .flagCommand => .next s
  | .commandFifo => framerWrite v s

/-- The register an access reaches, or why it has no meaning (R130, R133). -/
def accessReg (k : Cfg) (off width : Nat) : Except Refusal Reg :=
  if width ≠ 32 then .error .accessWidth
  else if off % 4 ≠ 0 then .error .misalignedOffset
  else
    match regAt k off with
    | some r => .ok r
    | none => .error .undefinedOffset

/-- One register access (R131). What a read returns goes to the trace; nothing else changes (R132). -/
def hostAccess (op : HostOp) (s : State) : Outcome :=
  match op with
  | .regRead off width =>
    match accessReg s.cfg off width with
    | .ok r => .next (emit (.regRead off (readReg r s)) s)
    | .error e => .refused e
  | .regWrite off width v =>
    match accessReg s.cfg off width with
    | .ok r => writeReg r v s
    | .error e => .refused e

end Sys2Proof.Machine
end

