-- ==== Sys2Proof/Machine/Fetch.lean ====
section
/-! DEFINITION. Placing one instruction so that the very next step runs it (log 15): a command stands in flight, just dequeued, on a running
engine; a word that is no command and a control code are the host's next access. -/

namespace Sys2Proof.Machine

/-- The host's next access is a write, and the host is not held. -/
def placeWrite (off : Nat) (v : Word) (s : State) : State :=
  { s with pending := .none, stopReq := false, events := .host (.regWrite off 32 v) :: s.events }

/-- The framer at a command boundary; the words it held no longer count. -/
def placeBoundary (s : State) : State :=
  { s with framer := ⟨[], 0⟩, depth := s.depth - s.framer.buf.length }

/-- A command in flight, in phase `FETCHED`, its words counted in `DEPTH` in place of those of the command that was there. -/
def placeCommand (ws : List Word) (s : State) : State :=
  { s with
    inflight := some ⟨⟨ws⟩, .fetched, []⟩
    depth := s.depth - inflightWords s + ws.length
    running := true
    events := .engine :: s.events }

/-- The words of an opcode-table word placed where its row runs. -/
def placeWords (ws : List Word) (s : State) : State :=
  match ws with
  | [] => s
  | w :: rest => if cmdWords s.cfg w = 0 then placeWrite s.cfg.regmap.commandFifo w (placeBoundary s) else placeCommand (w :: rest) s

/-- The instruction of an opcode-table word placed to run next. -/
def placeTableWord (nbits w : Nat) (s : State) : State :=
  match tableControl s.cfg nbits w with
  | some _ => placeWrite s.cfg.regmap.control (BitVec.ofNat 32 w) s
  | none => placeWords (tableWords s.cfg nbits w) s

end Sys2Proof.Machine
end

