-- ==== Sys2Proof/Machine/Step.lean ====
section
/-! DEFINITION. One step: the agent that `events` names takes one atomic step (00_scope R11, 70_reset_and_hazards R280; log 7). -/

namespace Sys2Proof.Machine

/-- The step. With no event listed the ENGINE moves; while the HOST is held its access waits and the ENGINE moves (40_register_interface R148). -/
def step (s : State) : Host.Outcome State Fault Refusal :=
  match s.events with
  | [] => engineStep s
  | .engine :: rest => engineStep { s with events := rest }
  | .host op :: rest => if s.pending = .none then hostAccess op { s with events := rest } else engineStep s
  | .busRead a :: rest => busRead a { s with events := rest }
  | .busWrite a b :: rest => busWrite a b { s with events := rest }

/-- The state with one instruction placed to run at the next step (log 15). -/
def State.withFetchWord (s : State) (nbits w : Nat) : State := placeTableWord nbits w s

end Sys2Proof.Machine
end

