-- ==== Sys2Proof/WellFormed.lean ====
section
/-! DEFINITION. Which terms of `Instr` stand for an encoding under a configuration, and which configurations make sense: the payload of KEY
has the word count of its length class and the payload of IV has four words (30_encoding R92 to R94, R97), ignored bits lie outside the
fields (R104), the operands of parameter width fit (00_scope R6), and a row of an unrecognised opcode is of an opcode that no command has
(R105). Every other operand is bounded by its type. -/

namespace Sys2Proof

/-- No ignored bit lies in a field. -/
def clearOf (fs : List (Nat × Nat)) (ignored : Word) : Bool := ignored &&& maskOf fs == 0

/-- A value fits a field of `n` bits. -/
def fitsIn (n : Nat) (v : Word) : Bool := decide (v.toNat < 2 ^ n)

/-- The ignored bits of a command of `n` words: one word for each, clear of its fields. -/
def clearWords (n : Nat) (fs : List (Nat × Nat × Nat)) (ignored : List Word) : Bool :=
  ignored.length == n && (List.range n).all fun j => clearOf (atWord j fs) (wordAt ignored j)

/-- An opcode number that stands for no command (R105). -/
def Layout.unassigned (l : Layout) (op : Word) : Bool :=
  op != l.opKey && op != l.opIv && op != l.opData && op != l.opStoreIv && op != l.opFlag

/-- A reserved block mode is of a value that fits the field and is no mode's (R95). -/
def BlockMode.fits (l : Layout) : BlockMode → Bool
  | .reserved v => fitsIn l.keyModeBits v && v != l.modeEcb && v != l.modeCbc && v != l.modeCtr
  | .ecb | .cbc | .ctr => true

/-- The operands of a KEY descriptor fit their fields (R93). -/
def KeyDesc.fits (k : Cfg) (d : KeyDesc) : Bool :=
  fitsIn k.layout.keySelectBits d.keySelect && fitsIn k.layout.keyFuncBits d.keyFunc && d.blockMode.fits k.layout &&
    fitsIn k.layout.keyCommandIdBits d.commandId

/-- The operands of a DATA command fit their fields (R98, R99). -/
def DataFields.fits (k : Cfg) (d : DataFields) : Bool :=
  fitsIn k.lenBits d.length && fitsIn k.extBits d.dstExt && fitsIn k.extBits d.srcExt

/-- The operands of a STORE_IV command fit their fields (R102). -/
def StoreIvFields.fits (k : Cfg) (d : StoreIvFields) : Bool :=
  fitsIn k.layout.storeIvSlotBits d.slot && fitsIn k.extBits d.dstExt

/-- A KEY descriptor that can be written (R93, R104). -/
def keyWf (k : Cfg) (d : KeyDesc) : Bool := d.fits k && clearOf k.keyFields d.ignored

/-- A word with this unrecognised opcode and these ignored bits. -/
def unrecWf (k : Cfg) (op ignored : Word) : Bool :=
  fitsIn k.layout.opcodeBits op && clearOf [k.opcodeField] ignored && k.layout.unassigned op

/-- The check. -/
def Instr.wf (k : Cfg) : Instr → Bool
  | .key128 d key => key.length == KeyLen.k128.words && keyWf k d
  | .key192 d key => key.length == KeyLen.k192.words && keyWf k d
  | .key256 d key => key.length == KeyLen.k256.words && keyWf k d
  | .keyReserved lo hi => clearOf k.keyReservedFields (hi ++ lo)
  | .iv d words => words.length == 4 && clearOf k.ivFields d.ignored
  | .data d => d.fits k && clearWords k.layout.dataWords k.dataFormat d.ignored
  | .storeIv d => d.fits k && clearWords k.layout.storeIvWords k.storeIvFormat d.ignored
  | .flag d => fitsIn k.layout.flagIdCodeBits d.idCode && clearOf k.flagFields d.ignored
  | .unrec0 ignored => unrecWf k 0 ignored
  | .unrec3 ignored => unrecWf k 3 ignored
  | .unrec4 ignored => unrecWf k 4 ignored
  | .unrec7 ignored => unrecWf k 7 ignored
  | .unrec9 ignored => unrecWf k 9 ignored
  | .unrec10 ignored => unrecWf k 10 ignored
  | .unrec11 ignored => unrecWf k 11 ignored
  | .unrec12 ignored => unrecWf k 12 ignored
  | .unrec13 ignored => unrecWf k 13 ignored
  | .unrec14 ignored => unrecWf k 14 ignored
  | .unrec15 ignored => unrecWf k 15 ignored
  | .ctrlStart | .ctrlStop | .ctrlReset | .ctrlResetEngine => true

/-! ### Configurations -/

/-- The check that fields lie in a word and do not overlap. -/
def fieldsFit (fs : List (Nat × Nat)) : Bool :=
  decide ((∀ f ∈ fs, f.1 + f.2 ≤ 32) ∧ fs.Pairwise fun f g => f.1 + f.2 ≤ g.1 ∨ g.1 + g.2 ≤ f.1)

/-- Fields that lie in a word and do not overlap. -/
abbrev FieldsWf (fs : List (Nat × Nat)) : Prop := fieldsFit fs = true

/-- A format of `n` words whose fields lie in them and do not overlap. -/
abbrev FormatWf (n : Nat) (fs : List (Nat × Nat × Nat)) : Prop :=
  (∀ f ∈ fs, f.1 < n) ∧ ∀ j < n, FieldsWf (atWord j fs)

/-- Codes that differ: the opcodes and the modes, which also fit their fields, and the length classes. -/
abbrev Layout.CodesWf (l : Layout) : Prop :=
  [l.opKey, l.opIv, l.opData, l.opStoreIv, l.opFlag].Nodup ∧
  [l.opKey, l.opIv, l.opData, l.opStoreIv, l.opFlag].all (fitsIn l.opcodeBits) = true ∧
  [l.keyLen128, l.keyLen192, l.keyLen256].Nodup ∧
  [l.modeEcb, l.modeCbc, l.modeCtr].Nodup ∧ [l.modeEcb, l.modeCbc, l.modeCtr].all (fitsIn l.keyModeBits) = true

/-- A layout whose codes differ and whose formats have room for their fields. -/
abbrev Cfg.LayoutWf (k : Cfg) : Prop :=
  k.layout.CodesWf ∧ FieldsWf k.keyFields ∧ FieldsWf k.ivFields ∧ FieldsWf k.flagFields ∧
  FormatWf k.layout.dataWords k.dataFormat ∧ FormatWf k.layout.storeIvWords k.storeIvFormat

/-- A register map with distinct offsets, each a multiple of 4, and room for the fields of each register. -/
abbrev RegMap.Wf (m : RegMap) : Prop :=
  (Reg.all.map m.offset).Nodup ∧ (∀ r ∈ Reg.all, m.offset r % 4 = 0) ∧
  FieldsWf [(m.invalidCommandBit, 1), (m.flagCommandBit, 1), (m.invalidLengthBit, 1), (m.key0DisabledBit, 1), (m.key1DisabledBit, 1)] ∧
  FieldsWf [(m.keySelect0, m.keySelectBits), (m.enabled0, 1), (m.commandId0, m.commandIdBits), (m.keySelect1, m.keySelectBits),
    (m.enabled1, 1), (m.commandId1, m.commandIdBits)] ∧
  FieldsWf [(m.emptyBit, 1), (m.fullBit, 1), (m.overflowBit, 1), (m.lowBit, 1), (m.level, m.levelBits)] ∧
  FieldsWf [(m.lowThreshold, m.lowThresholdBits)] ∧ FieldsWf [(m.flagCode, m.flagCodeBits)]

/-- A configuration that makes sense: the layout, the register map, and four different control codes. -/
abbrev Cfg.Wf (k : Cfg) : Prop :=
  k.LayoutWf ∧ k.regmap.Wf ∧ [k.ctrl.start, k.ctrl.stop, k.ctrl.reset, k.ctrl.resetEngine].Nodup

end Sys2Proof
end

