-- ==== Sys2Proof/Safety.lean ====
section
/-! DEFINITION. What claims are stated in: the parts of the machine's invariant, quiescence (70_reset_and_hazards R290), and runs that
do not stop. -/

namespace Sys2Proof.Safety

open Sys2Proof.Machine

/-- `DEPTH` counts the words in the accumulator, in the queue and in flight (41_framer_queue R170). -/
abbrev DepthConsistent (s : State) : Prop :=
  s.depth = s.framer.buf.length + (s.queue.map fun c => c.words.length).sum + inflightWords s

/-- The line reported is the line's level (60_exceptions R252). -/
abbrev IrqConsistent (s : State) : Prop := s.irq = irqLevel s.intStatus s.intEnable

/-- The framer is at a boundary with an empty buffer, or inside a command it has the count of (10_state R31). -/
abbrev FramerConsistent (s : State) : Prop :=
  match s.framer.buf with
  | [] => s.framer.need = 0
  | w :: rest => s.framer.need = cmdWords s.cfg w ∧ rest.length + 1 < s.framer.need

/-- A command the framer makes: as many words as its descriptor says, and a descriptor that is a command (10_state R33). -/
abbrev CommandFormed (k : Cfg) (c : Command) : Prop :=
  match c.words with
  | [] => False
  | w :: rest => cmdWords k w = rest.length + 1

/-- Every queued command is one the framer makes (R33). -/
abbrev QueueFormed (s : State) : Prop := ∀ c ∈ s.queue, CommandFormed s.cfg c

/-- The DATA phases belong to a DATA command that has passed its checks, with a scratch buffer of its length (10_state R39, R40). -/
abbrev BufferFits (s : State) (c : Inflight) : Prop :=
  match c.phase with
  | .fetched | .executed => True
  | .dataLoaded | .dataXformed =>
    match decodeCommand s.cfg c.cmd.words with
    | some (.data d) => dataTouches d s = true ∧ c.buf.length = dataLength d
    | _ => False

/-- The in-flight command is one the framer makes, its buffer fits its phase, and the engine is running (R33, R39; 42_engine_commands R180). -/
abbrev InflightFormed (s : State) : Prop :=
  match s.inflight with
  | none => True
  | some c => CommandFormed s.cfg c.cmd ∧ BufferFits s c ∧ s.running = true

/-- A context's handle is live exactly when it is enabled with a mode that exists (10_state R23), only a software key enables it (R22), and
its key is 32 bytes, zero at and above the key length (42_engine_commands R182), and its fields are as wide as the layout's (R21). -/
abbrev ContextFormed (k : Cfg) (c : Context) : Prop :=
  (c.handle = .active ↔ c.enabled = true ∧ c.blockMode.isMode = true) ∧
  (c.enabled = true → c.keySelect = k.keyselSoftware) ∧
  c.key.length = 32 ∧ c.key.drop (keyBytes c.keyLen) = List.replicate (32 - keyBytes c.keyLen) 0 ∧
  c.keySelect.toNat < 2 ^ k.layout.keySelectBits ∧ c.keyFunc.toNat < 2 ^ k.layout.keyFuncBits ∧
  c.blockMode.fits k.layout = true ∧ c.commandId.toNat < 2 ^ k.layout.keyCommandIdBits

/-- Both contexts. -/
abbrev ContextsFormed (s : State) : Prop := ∀ n : Fin 2, ContextFormed s.cfg (s.ctx n)

/-- An IV slot is 16 bytes (10_state R25). -/
abbrev IvsFormed (s : State) : Prop := ∀ k : Fin 4, (s.iv k).length = 16

/-- The reserved bits of `INT_STATUS` read 0 (10_state R26). -/
abbrev StatusReservedZero (s : State) : Prop := s.intStatus &&& ~~~statusDefined s.cfg = 0

/-- The bits of `FLAG_COMMAND` outside its code field, at the default bits [31:16], are 0 (10_state R34). -/
abbrev FlagHighZero (s : State) : Prop := spare [(s.cfg.regmap.flagCode, s.cfg.regmap.flagCodeBits)] s.flagCommand = 0

/-- The engine is asked to stop exactly while the host is held (10_state R38; 42_engine_commands R203). -/
abbrev HoldConsistent (s : State) : Prop := s.stopReq = true ↔ s.pending ≠ .none

/-- The machine's invariant: what holds at reset and after every step. -/
structure Inv (s : State) : Prop where
  depth    : DepthConsistent s
  irq      : IrqConsistent s
  framer   : FramerConsistent s
  queue    : QueueFormed s
  inflight : InflightFormed s
  ctxs     : ContextsFormed s
  ivs      : IvsFormed s
  status   : StatusReservedZero s
  flag     : FlagHighZero s
  hold     : HoldConsistent s
  mem      : s.mem.wf

/-- What a claim may assume of a block cipher (43_cipher_modes R220): blocks go to blocks, and decryption undoes encryption. -/
structure CipherLawful (c : BlockCipher) : Prop where
  enc_length : ∀ k x, x.length = 16 → (c.enc k x).length = 16
  dec_length : ∀ k x, x.length = 16 → (c.dec k x).length = 16
  dec_enc    : ∀ k x, x.length = 16 → c.dec k (c.enc k x) = x

/-- Quiescence (70_reset_and_hazards R290). -/
abbrev Quiescent (s : State) : Prop :=
  s.inflight = none ∧ s.stopReq = false ∧ s.pending = .none ∧ (s.queue = [] ∨ s.running = false)

/-- A state with another `INT_STATUS`, its line brought up to date (60_exceptions R251). -/
def withStatus (s : State) (status : Word) : State :=
  { s with
    intStatus := status
    irq := irqLevel status s.intEnable
    trace := s.trace ++ irqEdge s.irq (irqLevel status s.intEnable) }

/-- The in-flight command, if any, in another phase. -/
def inPhase (s : State) (p : Phase) : Option Inflight := s.inflight.map fun c => { c with phase := p }

/-- Words written to `COMMAND_FIFO` one after the other (41_framer_queue R160). -/
def writeWords : List Word → State → Outcome
  | [], s => .next s
  | w :: ws, s =>
    match hostAccess (.regWrite s.cfg.regmap.commandFifo 32 w) s with
    | .next t => writeWords ws t
    | .fault r => .fault r
    | .refused r => .refused r

/-- The in-flight command is this instruction, and its step is still to come. -/
def Executes (s : State) (i : Instr) : Prop :=
  ∃ c, s.inflight = some c ∧ c.phase ≠ .executed ∧ decodeCommand s.cfg c.cmd.words = some i

/-- The in-flight instruction is a KEY for slot `n`, of this length class, with these fields and words. -/
def ExecutesKey (s : State) (len : KeyLen) (d : KeyDesc) (key : List Word) : Prop :=
  match len with
  | .k128 => Executes s (.key128 d key)
  | .k192 => Executes s (.key192 d key)
  | .k256 => Executes s (.key256 d key)

/-- The cause of a condition, as 60_exceptions R241 lists the causes, in a state about to take a step. That a KEY of length class 3 in flight
counts as an unrecognised command is the model's (log 12). -/
def Raises (s : State) : Condition → Prop
  | .invalidCommand =>
    (∃ w rest, s.events = .host (.regWrite s.cfg.regmap.commandFifo 32 w) :: rest ∧ s.framer.need = 0 ∧ cmdWords s.cfg w = 0) ∨
    (∃ c w rest, s.inflight = some c ∧ c.phase = .fetched ∧ c.cmd.words = w :: rest ∧ cmdWords s.cfg w = 0)
  | .flagCommand => ∃ d, Executes s (.flag d) ∧ d.sendInt = true
  | .invalidDataLength => ∃ d, Executes s (.data d) ∧ s.phase = .fetched ∧ dataLength d % 16 ≠ 0
  | .keyDisabled n =>
    (∃ len d key, ExecutesKey s len d key ∧ d.ctx = n ∧ d.keySelect ≠ s.cfg.keyselSoftware) ∨
    (∃ d, Executes s (.data d) ∧ s.phase = .fetched ∧ d.keyCtx = n ∧ dataLength d % 16 = 0 ∧
      ¬ ((s.ctx n).enabled = true ∧ (s.ctx n).handle = .active))

/-- The step is a full reset (70_reset_and_hazards R271): RESET_ENGINE written to a stopped engine, or its acknowledgement. -/
def ResetsAll (s : State) : Prop :=
  (∃ rest, s.events = .host (.regWrite s.cfg.regmap.control 32 s.cfg.ctrl.resetEngine) :: rest ∧ s.pending = .none ∧ s.running = false) ∨
  (s.inflight = none ∧ s.stopReq = true ∧ s.pending = .resetEngine)

/-- The engine steps that are left for what is queued and in flight: at most five for a command, one for a stop asked for. -/
def engineWork (s : State) : Nat :=
  5 * s.queue.length + (if s.stopReq then 1 else 0) +
    match s.inflight with
    | none => 0
    | some c =>
      match c.phase with
      | .fetched => 4
      | .dataLoaded => 3
      | .dataXformed => 2
      | .executed => 1

/-- Where a phase stands in the life of a command. -/
def phaseRank : Phase → Nat
  | .fetched => 0
  | .dataLoaded => 1
  | .dataXformed => 2
  | .executed => 3

/-- What is left of an observation without the bytes of memory it shows. -/
def publicObs : Obs → Obs
  | .busRead a _ => .busRead a 0
  | o => o

/-- A context without its key bytes. -/
def publicCtx (c : Context) : Context := { c with key := [] }

/-- A state without what must stay hidden: key bytes of the contexts, IV slots, the scratch buffer, the contents of memory. -/
def publicView (s : State) : State :=
  { s with
    ctxs := ⟨publicCtx s.ctxs.c0, publicCtx s.ctxs.c1⟩
    ivs := ⟨[], [], [], []⟩
    inflight := s.inflight.map fun c => { c with buf := [] }
    mem := []
    trace := s.trace.map publicObs }

/-- Two outcomes that agree in what is public. -/
def PublicSame : Outcome → Outcome → Prop
  | .next a, .next b => publicView a = publicView b
  | .fault a, .fault b => a = b
  | .refused a, .refused b => a = b
  | _, _ => False

/-- Block `i` of a byte string. -/
def block (d : List Byte) (i : Nat) : List Byte := (d.drop (16 * i)).take 16

/-- A run of `k` steps that no fault and no refusal ends. -/
def RunsOn (k : Nat) (s : State) : Prop := ∃ t, Host.Core.run core k s = .next t

end Sys2Proof.Safety
end

