-- ==== Sys2Proof/Certificates/Slice0/Obligations.lean ====
section
/-! DEFINITION. The statements for the provers. Each docstring names the rules of spec/ it formalises. The configuration (00_scope R6) is an
argument of the model and stands in the state (log 1): a statement holds for every configuration, or for every one that makes sense
(`Cfg.Wf`), or, where the rule gives numbers of the default, for the default. The bytes of a DMA range are counted by natural numbers: at the
default no range reaches 2^64 (20_memory R80), and what a statement says of a range that does is the model's choice (log 27). -/

open Sys2Proof Sys2Proof.Machine Sys2Proof.Safety

/-! ### Encoding (30_encoding.md) -/

/-- Under every configuration that makes sense, the default among them, every well-formed instruction is read back from its own words, with
every operand (R93 to R109, R111; 00_scope R6). -/
def Obligations.DecodeOfEncodeIsTheInstruction : Prop :=
  Cfg.default.Wf ∧ ∀ k : Cfg, k.Wf → ∀ i : Instr, i.wf k = true → decode k i.space (encode k i) = some i

/-- Under every configuration that makes sense, words that decode are the words of the instruction they decode to: no bit of an encoding is
dropped (R93 to R109). -/
def Obligations.EncodeOfDecodeIsTheWords : Prop :=
  ∀ k : Cfg, k.Wf → ∀ (sp : Space) (ws : List Word) (i : Instr),
    decode k sp ws = some i → encode k i = ws ∧ i.space = sp ∧ i.wf k = true

/-- R112: every word at a command boundary falls under exactly one row, and the row's word count is the decoder's, at the default. -/
def Obligations.EveryWordMatchesExactlyOneRow : Prop :=
  ∀ w : Word, ∃ r, opcodeTable.filter (fun r => r.covers w) = [r] ∧ r.words = cmdWords Cfg.default w

/-- R92: the word-count function, at the default (decisions D8 and D10 for DATA and STORE_IV). -/
def Obligations.WordCountFollowsTheDescriptor : Prop :=
  ∀ w : Word,
    cmdWords Cfg.default w =
      if bits w 0 4 = 1 then
        (if bits w 8 2 = 0 then 5 else if bits w 8 2 = 1 then 7 else if bits w 8 2 = 2 then 9 else 0)
      else if bits w 0 4 = 2 then 5
      else if bits w 0 4 = 5 then 4
      else if bits w 0 4 = 6 then 2
      else if bits w 0 4 = 8 then 1
      else 0

/-- Words written out from the encoding rules decode to what they stand for (R111; 95_test_vectors V1, V6, V9, V10, V13). -/
def Obligations.SpecWordsDecode : Prop :=
  decode Cfg.default .commandFifo [0x00114801, 0x16157E2B, 0xA6D2AE28, 0x8815F7AB, 0x3C4FCF09] =
      some (.key128 ⟨0, 0, false, true, 0, .cbc, 0x11, 0⟩ [0x16157E2B, 0xA6D2AE28, 0x8815F7AB, 0x3C4FCF09]) ∧
  decode Cfg.default .commandFifo [0x00000002, 0x03020100, 0x07060504, 0x0B0A0908, 0x0F0E0D0C] =
      some (.iv ⟨0, 0⟩ [0x03020100, 0x07060504, 0x0B0A0908, 0x0F0E0D0C]) ∧
  decode Cfg.default .commandFifo [0xFFFFF075, 0x00AB00CD, 0x12345678, 0x9ABCDEF0] =
      some (.data ⟨1, 3, 0xFFFFF0, 0xCD, 0xAB, 0x12345678, 0x9ABCDEF0, [0, 0, 0, 0]⟩) ∧
  decode Cfg.default .commandFifo [0x00000106, 0x00003000] = some (.storeIv ⟨0, 1, 0x3000, [0, 0]⟩) ∧
  decode Cfg.default .commandFifo [0x12340038] = some (.flag ⟨true, true, 0x1234, 0⟩) ∧
  decode Cfg.default .commandFifo [0x00000003] = some (.unrec3 0) ∧
  decode Cfg.default .control [8] = some .ctrlResetEngine

/-! ### Operands (20_memory.md, 30_encoding.md, 42_engine_commands.md) -/

/-- R61, R100: an assembled address is `lo + ext * 2^32`; R80: every range of DATA and STORE_IV whose operands fit their fields ends at or
below the number the two widths give, and at the default widths at or below 2^40 + 2^24. Ranges past 2^64: log 27. -/
def Obligations.DmaRangesStayBelowTheTop : Prop :=
  (∀ lo ext : Word, (dmaAddr lo ext).toNat = lo.toNat + 2 ^ 32 * ext.toNat) ∧
  (∀ (k : Cfg) (d : DataFields), d.fits k = true →
    (dataSrc d).toNat + dataLength d ≤ 2 ^ (32 + k.extBits) + 2 ^ k.lenBits ∧
    (dataDst d).toNat + dataLength d ≤ 2 ^ (32 + k.extBits) + 2 ^ k.lenBits) ∧
  (∀ (k : Cfg) (d : StoreIvFields), d.fits k = true → (storeIvDst d).toNat + 16 ≤ 2 ^ (32 + k.extBits) + 16) ∧
  2 ^ (32 + Cfg.default.extBits) = 2 ^ 40 ∧ 2 ^ Cfg.default.lenBits = 2 ^ 24

/-- R182: key byte 4*(k-1)+j is bits [8j+7:8j] of payload word k, the bytes at and above the key length are zero, and there are 32. -/
def Obligations.KeyBytesAreLittleEndianWords : Prop :=
  ∀ (ws : List Word), ws.length ≤ 8 →
    (paddedKey ws).length = 32 ∧
    (∀ k j : Nat, (hk : k < ws.length) → j < 4 → (paddedKey ws)[4 * k + j]? = some (ws[k].extractLsb' (8 * j) 8)) ∧
    (∀ i : Nat, 4 * ws.length ≤ i → i < 32 → (paddedKey ws)[i]? = some 0)

/-! ### Register interface (40_register_interface.md) -/

/-- R132, R140, at the default register map: what each register reads as, and that a read changes nothing but the record of what was read (log 13). -/
def Obligations.ReadsReturnTheRegisterAndChangeNothing : Prop :=
  ∀ s : State, s.cfg = Cfg.default →
    let reads (off : Nat) (v : Word) : Prop :=
      hostAccess (.regRead off 32) s = .next { s with trace := s.trace ++ [.regRead off v] }
    let field (b : Bool) (n : Nat) : Nat := if b then 2 ^ n else 0
    reads 0x008 0 ∧
    reads 0x010
      (BitVec.ofNat 32
        ((s.ctx 0).keySelect.toNat % 2 ^ 3 + field (s.ctx 0).enabled 3 + (s.ctx 0).commandId.toNat % 2 ^ 8 * 2 ^ 8 +
          (s.ctx 1).keySelect.toNat % 2 ^ 3 * 2 ^ 16 + field (s.ctx 1).enabled 19 +
          (s.ctx 1).commandId.toNat % 2 ^ 8 * 2 ^ 24)) ∧
    reads 0x018 s.intStatus ∧
    reads 0x01C s.intEnable ∧
    reads 0x020 s.watermarks ∧
    reads 0x024
      (BitVec.ofNat 32
        (field (decide (s.depth = 0)) 0 + field (decide (s.depth ≥ 128)) 1 + field s.overflow 2 +
          field (decide (s.depth < s.watermarks.toNat % 2 ^ 8)) 3 + s.depth % 2 ^ 16 * 2 ^ 8)) ∧
    reads 0x030 s.flagCommand ∧
    reads 0x200 0

/-- R133: an access that is not 32 bits wide, not at a multiple of 4 or not at an offset of the map is refused (decision D21; log 10);
every other goes on. R130: the offsets of the default map (decision D12). -/
def Obligations.AccessesOutsideTheMapAreRefused : Prop :=
  (∀ (off width : Nat) (v : Word) (s : State),
    let valid : Prop := width = 32 ∧ off % 4 = 0 ∧ ∃ r : Reg, s.cfg.regmap.offset r = off
    (valid → (∃ t, hostAccess (.regRead off width) s = .next t) ∧ ∃ t, hostAccess (.regWrite off width v) s = .next t) ∧
    (¬ valid → (∃ r, hostAccess (.regRead off width) s = .refused r) ∧ ∃ r, hostAccess (.regWrite off width v) s = .refused r)) ∧
  Reg.all.map Cfg.default.regmap.offset = [0x008, 0x010, 0x018, 0x01C, 0x020, 0x024, 0x030, 0x200]

/-- R135: a write to `INT_STATUS` clears the bits written as 1 and brings the line up to date; nothing else changes. R136: a write to
`INT_ENABLE` stores all 32 bits, which is the spec's decision D40, and brings the line up to date. -/
def Obligations.StatusAndEnableWrites : Prop :=
  ∀ (v : Word) (s : State), s.cfg.Wf →
    hostAccess (.regWrite s.cfg.regmap.intStatus 32 v) s = .next (withStatus s (s.intStatus &&& ~~~v)) ∧
    hostAccess (.regWrite s.cfg.regmap.intEnable 32 v) s = .next (withStatus { s with intEnable := v } s.intStatus)

/-- At the default register map: R137, a write to `WATERMARKS` stores all 32 bits; only bits [7:0] have an effect, through `LOW`; R138, a write
to a read-only register changes nothing. -/
def Obligations.WatermarkAndReadOnlyWrites : Prop :=
  ∀ (v : Word) (s : State), s.cfg = Cfg.default →
    (∃ t, hostAccess (.regWrite 0x020 32 v) s = .next t ∧ t = { s with watermarks := v } ∧
      (bitAt (commandFifoStatus t) 3 = true ↔ s.depth < v.toNat % 2 ^ 8) ∧
      ∀ i, i < 32 → i ≠ 3 → bitAt (commandFifoStatus t) i = bitAt (commandFifoStatus s) i) ∧
    hostAccess (.regWrite 0x010 32 v) s = .next s ∧
    hostAccess (.regWrite 0x024 32 v) s = .next s ∧
    hostAccess (.regWrite 0x030 32 v) s = .next s

/-- R142: START sets the engine running and changes nothing else. -/
def Obligations.StartSetsTheEngineRunning : Prop :=
  ∀ s : State, exec .ctrlStart s = .next { s with running := true }

/-- R143: STOP asks a running engine to stop and holds the host; on a stopped engine it does nothing. -/
def Obligations.StopHoldsTheHostWhileTheEngineRuns : Prop :=
  ∀ s : State,
    (s.running = true → exec .ctrlStop s = .next { s with stopReq := true, pending := .stop }) ∧
    (s.running = false → exec .ctrlStop s = .next s)

/-- R145: RESET empties queue and framer, leaves in `DEPTH` the words in flight, and changes nothing else but the FIFO view; the line is
brought up to date. -/
def Obligations.ResetDrainsQueueAndFramer : Prop :=
  ∀ s : State,
    exec .ctrlReset s =
      .next
        { withStatus s s.intStatus with
          queue := []
          framer := ⟨[], 0⟩
          depth := inflightWords s
          overflow := decide (inflightWords s > s.cfg.fifoCapacity) }

/-- R146, R271: RESET_ENGINE on a running engine holds the host until the acknowledgement; on a stopped engine every element of the
block but `HOST.pending` takes its reset value at once, the line is lowered if it was asserted, and the configuration
and the environment are untouched. -/
def Obligations.ResetEngineResetsOrHolds : Prop :=
  ∀ s : State,
    (s.running = true → exec .ctrlResetEngine s = .next { s with stopReq := true, pending := .resetEngine }) ∧
    (s.running = false →
      exec .ctrlResetEngine s =
        .next
          { State.reset with
            cfg := s.cfg
            pending := s.pending
            mem := s.mem
            events := s.events
            dmaAnswers := s.dmaAnswers
            freeCount := s.freeCount
            trace := s.trace ++ if s.irq then [.irqLower] else [] })

/-- R147: any other value written to `CONTROL` does nothing. R109: the four codes at the default (decision D19). -/
def Obligations.OtherControlValuesDoNothing : Prop :=
  (∀ (v : Word) (s : State), s.cfg.Wf → v ≠ s.cfg.ctrl.start → v ≠ s.cfg.ctrl.stop → v ≠ s.cfg.ctrl.reset →
    v ≠ s.cfg.ctrl.resetEngine → hostAccess (.regWrite s.cfg.regmap.control 32 v) s = .next s) ∧
  Cfg.default.ctrl = ⟨1, 2, 4, 8⟩

/-- R148: while the host is held its access waits and the engine moves (that the engine is what moves is the model's, log 7). A step that is
not the acknowledgement leaves the hold and the waiting access as they are; once nothing is in flight the engine's step lifts the hold. -/
def Obligations.HoldLastsUntilTheAcknowledgement : Prop :=
  ∀ (s : State) (op : HostOp) (rest : List Event),
    s.events = .host op :: rest → s.pending ≠ .none →
      step s = engineStep s ∧
      (∀ t, step s = .next t → ¬ (s.stopReq = true ∧ s.inflight = none) → t.pending = s.pending ∧ t.events = s.events) ∧
      (s.stopReq = true → s.inflight = none →
        ∃ t, step s = .next t ∧ t.pending = .none ∧ t.running = false ∧ t.stopReq = false ∧ t.events = s.events)

/-- A step runs the decoded instruction: the engine's in-flight command (R200), a control code (R141), and a word at a boundary that is no
command (R162), each on the state after the event is taken (events: log 7). -/
def Obligations.StepRunsTheDecodedInstruction : Prop :=
  (∀ (s : State) (c : Inflight) (i : Instr) (rest : List Event),
    s.inflight = some c → c.phase ≠ .executed → CommandFormed s.cfg c.cmd → decodeCommand s.cfg c.cmd.words = some i →
    phaseFits i c.phase = true → s.events = .engine :: rest → step s = exec i { s with events := rest }) ∧
  (∀ (s : State) (v : Word) (i : Instr) (rest : List Event), s.cfg.Wf →
    s.pending = .none → s.events = .host (.regWrite s.cfg.regmap.control 32 v) :: rest → decodeControl s.cfg v = some i →
    step s = exec i { s with events := rest }) ∧
  (∀ (s : State) (w : Word) (i : Instr) (rest : List Event), s.cfg.Wf →
    s.pending = .none → s.events = .host (.regWrite s.cfg.regmap.commandFifo 32 w) :: rest → s.framer.need = 0 →
    cmdWords s.cfg w = 0 → decodeCommand s.cfg [w] = some i → step s = exec i { s with events := rest })

/-! ### Framer and queue (41_framer_queue.md) -/

/-- R161: a write to `COMMAND_FIFO`, at a boundary and inside a command. -/
def Obligations.FramerTakesOneWord : Prop :=
  ∀ (w : Word) (s : State), s.cfg.Wf →
    let counted : State := { s with depth := s.depth + 1, overflow := decide (s.depth + 1 > s.cfg.fifoCapacity) }
    let write : Outcome := hostAccess (.regWrite s.cfg.regmap.commandFifo 32 w) s
    (s.framer.need = 0 → cmdWords s.cfg w = 0 → write = .next (withStatus s (s.intStatus ||| Condition.mask s.cfg .invalidCommand))) ∧
    (s.framer.need = 0 → cmdWords s.cfg w = 1 → write = .next { counted with queue := s.queue ++ [⟨[w]⟩], framer := ⟨[], 0⟩ }) ∧
    (s.framer.need = 0 → cmdWords s.cfg w > 1 → write = .next { counted with framer := ⟨[w], cmdWords s.cfg w⟩ }) ∧
    (s.framer.need ≠ 0 → s.framer.buf.length + 1 = s.framer.need →
      write = .next { counted with queue := s.queue ++ [⟨s.framer.buf ++ [w]⟩], framer := ⟨[], 0⟩ }) ∧
    (s.framer.need ≠ 0 → s.framer.buf.length + 1 ≠ s.framer.need →
      write = .next { counted with framer := ⟨s.framer.buf ++ [w], s.framer.need⟩ })

/-- R163 to R165: the words of a command written at a boundary, whatever they are after the first, put that command at the tail of the
queue, add its length to `DEPTH` and leave the framer at the boundary. -/
def Obligations.AWholeCommandIsFramed : Prop :=
  ∀ (w : Word) (rest : List Word) (s : State), s.cfg.Wf → cmdWords s.cfg w = rest.length + 1 → s.framer = ⟨[], 0⟩ →
    writeWords (w :: rest) s =
      .next
        { s with
          queue := s.queue ++ [⟨w :: rest⟩]
          depth := s.depth + (rest.length + 1)
          overflow := decide (s.depth + (rest.length + 1) > s.cfg.fifoCapacity) }

/-- R105, R106, R162: a word that is no command sets `INVALID_COMMAND`, brings the line up to date, and changes nothing else. -/
def Obligations.DiscardedWordsOnlySetInvalidCommand : Prop :=
  ∀ (lo hi : BitVec 16) (r : Word) (s : State),
    ∀ i ∈ [Instr.keyReserved lo hi, .unrec0 r, .unrec3 r, .unrec4 r, .unrec7 r, .unrec9 r, .unrec10 r, .unrec11 r, .unrec12 r,
        .unrec13 r, .unrec14 r, .unrec15 r],
      exec i s = .next (withStatus s (s.intStatus ||| Condition.mask s.cfg .invalidCommand))

/-! ### The engine's steps (42_engine_commands.md) -/

/-- R180: the oldest command leaves the queue and is in flight, fetched; nothing else changes. -/
def Obligations.DequeueTakesTheOldestCommand : Prop :=
  ∀ (s : State) (c : Command) (rest : List Command),
    s.running = true → s.stopReq = false → s.inflight = none → s.queue = c :: rest →
      engineStep s = .next { s with inflight := some ⟨c, .fetched, []⟩, queue := rest }

/-- R201 (with R198): completion takes the command's words off `DEPTH`, brings the line up to date, stops the engine for a FLAG with its
stop bit, and frees the command; `OVERFLOW` and every other element stay. -/
def Obligations.CompletionCountsTheWordsOff : Prop :=
  ∀ (s : State) (c : Command) (w : Word) (rest : List Word) (b : List Byte),
    s.inflight = some ⟨c, .executed, b⟩ → c.words = w :: rest →
      engineStep s =
        .next
          { withStatus s s.intStatus with
            depth := s.depth - (rest.length + 1)
            running := if opcode s.cfg w = s.cfg.layout.opFlag ∧ bitAt w s.cfg.layout.flagStop = true then false else s.running
            inflight := none }

/-- R203: the acknowledgement of a stop; for RESET_ENGINE it is the full reset, whose values are those of R271, with the spec's decisions D24 and
D32. -/
def Obligations.AcknowledgementStopsAndReleases : Prop :=
  ∀ s : State, s.stopReq = true → s.inflight = none →
    (s.pending ≠ .resetEngine → engineStep s = .next { s with running := false, stopReq := false, pending := .none }) ∧
    (s.pending = .resetEngine →
      engineStep s =
        .next
          { State.reset with
            cfg := s.cfg
            mem := s.mem
            events := s.events
            dmaAnswers := s.dmaAnswers
            freeCount := s.freeCount
            trace := s.trace ++ if s.irq then [.irqLower] else [] })

/-- R202, R290: with nothing in flight, no stop asked for, and the engine stopped or the queue empty, the engine's step changes nothing
(a step that changes nothing stands for no step: log 8). -/
def Obligations.AnIdleEngineChangesNothing : Prop :=
  ∀ s : State, s.inflight = none → s.stopReq = false → (s.running = false ∨ s.queue = []) → engineStep s = .next s

/-- R199: the engine's arm for an in-flight command whose opcode is none of the five. -/
def Obligations.TheUnrecognisedArmRaisesAndExecutes : Prop :=
  ∀ (s : State) (ws : List Word) (w : Word) (rest : List Word) (b : List Byte),
    s.inflight = some ⟨⟨ws⟩, .fetched, b⟩ → ws = w :: rest →
    opcode s.cfg w ∉
      [s.cfg.layout.opKey, s.cfg.layout.opIv, s.cfg.layout.opData, s.cfg.layout.opStoreIv, s.cfg.layout.opFlag] →
      engineStep s =
        .next { withStatus s (s.intStatus ||| Condition.mask s.cfg .invalidCommand) with inflight := some ⟨⟨ws⟩, .executed, b⟩ }

/-- R204: a command in flight is never replaced, never goes back to an earlier phase, and leaves only by its completion. -/
def Obligations.ACommandIsNeverPreempted : Prop :=
  ∀ (s t : State) (c : Inflight), Inv s → s.inflight = some c → step s = .next t →
    (∃ c', t.inflight = some c' ∧ c'.cmd = c.cmd ∧ phaseRank c.phase ≤ phaseRank c'.phase) ∨
    (c.phase = .executed ∧ t.inflight = none)

/-! ### KEY, IV -/

/-- R181 to R183, software key: the context of the slot is replaced whole, enabled, with a live handle unless the mode is the reserved one;
the other context, the IV slots, the status and memory stay. -/
def Obligations.KeyWithSoftwareKeyEnablesItsContext : Prop :=
  ∀ (d : KeyDesc) (key : List Word) (s : State) (len : KeyLen) (i : Instr),
    d.keySelect = s.cfg.keyselSoftware →
    (len, i) ∈ [(KeyLen.k128, Instr.key128 d key), (.k192, .key192 d key), (.k256, .key256 d key)] →
      ∃ cs : Contexts, exec i s = .next { s with ctxs := cs, inflight := inPhase s .executed } ∧
        cs.get d.ctx =
          { keySelect := d.keySelect, keyLen := len, wrapped := d.wrapped, encrypt := d.encrypt, keyFunc := d.keyFunc,
            blockMode := d.blockMode, commandId := d.commandId,
            key := bytesLe key ++ List.replicate (32 - 4 * key.length) 0,
            handle := if d.blockMode.isMode then .active else .none, enabled := true } ∧
        ∀ n, n ≠ d.ctx → cs.get n = s.ctx n

/-- R181 to R183, any other key-select: the context is replaced whole and disabled, and its `KEY_DISABLED` bit is set. -/
def Obligations.KeyWithAnotherKeyDisablesItsContext : Prop :=
  ∀ (d : KeyDesc) (key : List Word) (s : State) (len : KeyLen) (i : Instr),
    d.keySelect ≠ s.cfg.keyselSoftware →
    (len, i) ∈ [(KeyLen.k128, Instr.key128 d key), (.k192, .key192 d key), (.k256, .key256 d key)] →
      ∃ cs : Contexts,
        exec i s =
          .next
            { withStatus s (s.intStatus ||| Condition.mask s.cfg (.keyDisabled d.ctx)) with
              ctxs := cs, inflight := inPhase s .executed } ∧
        cs.get d.ctx =
          { keySelect := d.keySelect, keyLen := len, wrapped := d.wrapped, encrypt := d.encrypt, keyFunc := d.keyFunc,
            blockMode := d.blockMode, commandId := d.commandId,
            key := bytesLe key ++ List.replicate (32 - 4 * key.length) 0, handle := .none, enabled := false } ∧
        ∀ n, n ≠ d.ctx → cs.get n = s.ctx n

/-- R186: IV loads its slot; no other slot, no context, no status bit, no memory changes. -/
def Obligations.IvLoadsItsSlot : Prop :=
  ∀ (d : IvDesc) (words : List Word) (s : State),
    ∃ v, exec (.iv d words) s = .next { s with ivs := v, inflight := inPhase s .executed } ∧
      v.get d.slot = bytesLe words ∧ ∀ k, k ≠ d.slot → v.get k = s.iv k

/-! ### DATA -/

/-- R188: a length that is not a multiple of 16 sets `INVALID_DATA_LENGTH` and nothing else, whatever the context. -/
def Obligations.DataWithABadLengthAborts : Prop :=
  ∀ (d : DataFields) (s : State), s.phase = .fetched → s.inflight ≠ none → dataLength d % 16 ≠ 0 →
    exec (.data d) s =
      .next { withStatus s (s.intStatus ||| Condition.mask s.cfg .invalidDataLength) with inflight := inPhase s .executed }

/-- R189: a context that is disabled or has no handle: its `KEY_DISABLED` bit is set and nothing else. -/
def Obligations.DataWithADeadContextAborts : Prop :=
  ∀ (d : DataFields) (s : State), s.phase = .fetched → s.inflight ≠ none → dataLength d % 16 = 0 →
    ¬ ((s.ctx d.keyCtx).enabled = true ∧ (s.ctx d.keyCtx).handle = .active) →
    exec (.data d) s =
      .next
        { withStatus s (s.intStatus ||| Condition.mask s.cfg (.keyDisabled d.keyCtx)) with
          inflight := inPhase s .executed }

/-- R187, R190 and 20_memory R64, R66: the load. With an answer the source bytes, or after a failure as many free bytes (log 6), are in
the scratch buffer; for length 0 there is no access; while there is no answer the command waits (log 5). Nothing else of the block changes.
Ranges past 2^64: log 27. -/
def Obligations.DataLoadsItsSource : Prop :=
  ∀ (d : DataFields) (s : State) (c : Inflight), s.inflight = some c → c.phase = .fetched → dataLength d % 16 = 0 →
    (s.ctx d.keyCtx).enabled = true → (s.ctx d.keyCtx).handle = .active →
      let loaded (b : List Byte) : Option Inflight := some { c with phase := .dataLoaded, buf := b }
      let accessed : List Obs := s.trace ++ [.dmaRead (dataSrc d) (dataLength d)]
      (dataLength d = 0 → exec (.data d) s = .next { s with inflight := loaded [] }) ∧
      (dataLength d ≠ 0 → nextAnswer s = .ok →
        exec (.data d) s =
          .next { takeAnswer s with
            inflight := loaded ((List.range (dataLength d)).map fun i => s.mem.read ((dataSrc d).toNat + i)), trace := accessed }) ∧
      (dataLength d ≠ 0 → nextAnswer s = .fail →
        ∃ b f, b.length = dataLength d ∧
          exec (.data d) s = .next { takeAnswer s with inflight := loaded b, freeCount := f, trace := accessed }) ∧
      (dataLength d ≠ 0 → nextAnswer s = .noAnswer → exec (.data d) s = .next (takeAnswer s))

/-- R191: the transform of the scratch buffer under the slot's IV; the slot takes the new IV, and nothing else changes. That this holds of
the slot in CTR after a failed read too, which R193 (f) leaves unconstrained, is the model's choice (log 28). -/
def Obligations.DataTransformsItsBuffer : Prop :=
  ∀ (d : DataFields) (s : State) (c : Inflight), s.inflight = some c → c.phase = .dataLoaded →
    ∃ out iv v, transform (blockCipher s.cfg.aes) (s.ctx d.keyCtx) (s.iv d.ivCtx) c.buf = (out, iv) ∧
      exec (.data d) s = .next { s with ivs := v, inflight := some { c with phase := .dataXformed, buf := out } } ∧
      v.get d.ivCtx = iv ∧ ∀ k, k ≠ d.ivCtx → v.get k = s.iv k

/-- R192 and 20_memory R65, R66: the write back, for a buffer of the command's length. The destination bytes are the buffer's, or after a
failure any; no byte outside the range changes; the result is not recorded. While there is no answer the command waits
(log 5). Ranges past 2^64: log 27. -/
def Obligations.DataWritesItsDestination : Prop :=
  ∀ (d : DataFields) (s : State) (c : Inflight), s.inflight = some c → c.phase = .dataXformed → c.buf.length = dataLength d →
    s.mem.wf →
      let written (m : Memory) (f : Nat) : State :=
        { takeAnswer s with
          mem := m, freeCount := f, inflight := some { c with phase := .executed },
          trace := s.trace ++ [.dmaWrite (dataDst d) (dataLength d)] }
      (dataLength d = 0 → exec (.data d) s = .next { s with inflight := some { c with phase := .executed } }) ∧
      (dataLength d ≠ 0 → nextAnswer s = .ok →
        ∃ m, exec (.data d) s = .next (written m (takeAnswer s).freeCount) ∧
          (∀ i, (hi : i < c.buf.length) → m.read ((dataDst d).toNat + i) = c.buf[i]) ∧
          ∀ a, a < (dataDst d).toNat ∨ (dataDst d).toNat + dataLength d ≤ a → m.read a = s.mem.read a) ∧
      (dataLength d ≠ 0 → nextAnswer s = .fail →
        ∃ m f, exec (.data d) s = .next (written m f) ∧
          ∀ a, a < (dataDst d).toNat ∨ (dataDst d).toNat + dataLength d ≤ a → m.read a = s.mem.read a) ∧
      (dataLength d ≠ 0 → nextAnswer s = .noAnswer → exec (.data d) s = .next (takeAnswer s))

/-- The frame of DATA, in every phase: no context, no register but `INT_STATUS`, and of memory no byte outside the destination range, which
is written in the write-back step alone (R187 to R192; 20_memory R68). Ranges past 2^64: log 27. -/
def Obligations.DataChangesOnlyItsOwn : Prop :=
  ∀ (d : DataFields) (s t : State), exec (.data d) s = .next t →
    t.ctxs = s.ctxs ∧ (∀ k, k ≠ d.ivCtx → t.iv k = s.iv k) ∧ t.intEnable = s.intEnable ∧ t.watermarks = s.watermarks ∧
    t.flagCommand = s.flagCommand ∧ t.depth = s.depth ∧ t.overflow = s.overflow ∧ t.framer = s.framer ∧ t.queue = s.queue ∧
    t.running = s.running ∧ t.stopReq = s.stopReq ∧ t.pending = s.pending ∧ t.events = s.events ∧
    (s.phase ≠ .fetched → t.intStatus = s.intStatus ∧ t.irq = s.irq) ∧
    (s.phase ≠ .dataLoaded → t.ivs = s.ivs) ∧
    (s.phase ≠ .dataXformed → ∀ a, t.mem.read a = s.mem.read a) ∧
    ∀ a, a < (dataDst d).toNat ∨ (dataDst d).toNat + dataLength d ≤ a → t.mem.read a = s.mem.read a

/-- DATA from its fetch to its last effect, the oracle answering ok (log 4): every destination byte is a byte of the transform of the source range as
it was before (20_memory R72), the IV slot is the transform's, exactly one read and then one write leave the block (R68), and no other element
changes. Ranges past 2^64: log 27. -/
def Obligations.DataMovesTheTransformedSource : Prop :=
  ∀ (d : DataFields) (s : State) (c : Inflight) (rest : List DmaAnswer),
    s.inflight = some c → c.phase = .fetched → dataLength d % 16 = 0 → dataLength d ≠ 0 →
    (s.ctx d.keyCtx).enabled = true → (s.ctx d.keyCtx).handle = .active → (s.iv d.ivCtx).length = 16 → s.mem.wf →
    s.dmaAnswers = .ok :: .ok :: rest →
      ∃ t₁ t₂ t₃ out iv, exec (.data d) s = .next t₁ ∧ exec (.data d) t₁ = .next t₂ ∧ exec (.data d) t₂ = .next t₃ ∧
        transform (blockCipher s.cfg.aes) (s.ctx d.keyCtx) (s.iv d.ivCtx) (s.mem.readBytes (dataSrc d).toNat (dataLength d)) = (out, iv) ∧
        out.length = dataLength d ∧
        (∀ i, (hi : i < out.length) → t₃.mem.read ((dataDst d).toNat + i) = out[i]) ∧
        (∀ a, a < (dataDst d).toNat ∨ (dataDst d).toNat + dataLength d ≤ a → t₃.mem.read a = s.mem.read a) ∧
        t₃.iv d.ivCtx = iv ∧ (∀ k, k ≠ d.ivCtx → t₃.iv k = s.iv k) ∧
        t₃ = { s with
          ivs := t₃.ivs, mem := t₃.mem, dmaAnswers := rest,
          inflight := some { c with phase := .executed, buf := out },
          trace := s.trace ++ [.dmaRead (dataSrc d) (dataLength d), .dmaWrite (dataDst d) (dataLength d)] }

/-! ### STORE_IV, FLAG -/

/-- R195, R196 and 20_memory R65, R66: one write of 16 bytes, byte i of the slot its selector names going to `dst + i`; the slots stay, no status
bit changes, no byte outside the 16 changes; a failed write leaves any bytes in the 16; while there is no answer the command waits (log 5). A
selector that names no slot, which only another width than the default's allows, completes too, with any 16 bytes (log 26).
Ranges past 2^64: log 27. -/
def Obligations.StoreIvWritesItsSlot : Prop :=
  ∀ (d : StoreIvFields) (s : State), (∀ k, (s.iv k).length = 16) → s.mem.wf →
    let written (m : Memory) (f : Nat) : State :=
      { takeAnswer s with
        mem := m, freeCount := f, inflight := inPhase s .executed, trace := s.trace ++ [.dmaWrite (storeIvDst d) 16] }
    (nextAnswer s = .ok →
      ∃ m f, exec (.storeIv d) s = .next (written m f) ∧
        (∀ k : Fin 4, d.slot.toNat = k.val →
          f = (takeAnswer s).freeCount ∧ ∀ i, (hi : i < (s.iv k).length) → m.read ((storeIvDst d).toNat + i) = (s.iv k)[i]) ∧
        ∀ a, a < (storeIvDst d).toNat ∨ (storeIvDst d).toNat + 16 ≤ a → m.read a = s.mem.read a) ∧
    (nextAnswer s = .fail →
      ∃ m f, exec (.storeIv d) s = .next (written m f) ∧
        ∀ a, a < (storeIvDst d).toNat ∨ (storeIvDst d).toNat + 16 ≤ a → m.read a = s.mem.read a) ∧
    (nextAnswer s = .noAnswer → exec (.storeIv d) s = .next (takeAnswer s))

/-- R197, R34 (the field of the register is the spec's decision D18): FLAG stores its code in the code field of `FLAG_COMMAND`, at the default
the whole code zero-extended, and sets the `FLAG_COMMAND` bit if asked to, in one step; the stop bit does nothing here. That a code field
narrower than the code, which only another configuration than the default has, keeps the low bits of the code is the model's choice (log 25). -/
def Obligations.FlagStoresItsCode : Prop :=
  ∀ (d : FlagFields) (s : State),
    exec (.flag d) s =
      .next
        (if d.sendInt then
          { withStatus s (s.intStatus ||| Condition.mask s.cfg .flagCommand) with
            flagCommand := put s.cfg.regmap.flagCode (d.idCode.setWidth s.cfg.regmap.flagCodeBits)
            inflight := inPhase s .executed }
        else
          { s with
            flagCommand := put s.cfg.regmap.flagCode (d.idCode.setWidth s.cfg.regmap.flagCodeBits)
            inflight := inPhase s .executed }) ∧
    (d.idCode.toNat < 2 ^ Cfg.default.layout.flagIdCodeBits →
      put Cfg.default.regmap.flagCode (d.idCode.setWidth Cfg.default.regmap.flagCodeBits) = d.idCode)

/-! ### The transform (43_cipher_modes.md) -/

/-- R223: ECB, block by block, and the IV unchanged. -/
def Obligations.EcbTransformsEachBlock : Prop :=
  ∀ (c : BlockFunction) (ctx : Context) (iv data : List Byte) (m : Nat), ctx.blockMode = .ecb → data.length = 16 * m →
    (transform (blockCipher c) ctx iv data).2 = iv ∧ (transform (blockCipher c) ctx iv data).1.length = data.length ∧
    ∀ i, i < m → block (transform (blockCipher c) ctx iv data).1 i =
      if ctx.encrypt then (blockCipher c).enc (handleKey ctx) (block data i) else (blockCipher c).dec (handleKey ctx) (block data i)

/-- R224: CBC encryption, each block chained on the ciphertext before it, and the new IV. -/
def Obligations.CbcEncryptChainsOnCiphertext : Prop :=
  ∀ (c : BlockFunction) (ctx : Context) (iv data : List Byte) (m : Nat), ctx.blockMode = .cbc → ctx.encrypt = true → iv.length = 16 →
    data.length = 16 * m →
      (∀ i, i < m → block (transform (blockCipher c) ctx iv data).1 i =
        (blockCipher c).enc (handleKey ctx)
          (xorBytes (block data i) (if i = 0 then iv else block (transform (blockCipher c) ctx iv data).1 (i - 1)))) ∧
      (transform (blockCipher c) ctx iv data).2 = if m = 0 then iv else block (transform (blockCipher c) ctx iv data).1 (m - 1)

/-- R225: CBC decryption, each block chained on the input block before it, and the new IV. -/
def Obligations.CbcDecryptChainsOnInput : Prop :=
  ∀ (c : BlockFunction) (ctx : Context) (iv data : List Byte) (m : Nat), ctx.blockMode = .cbc → ctx.encrypt = false → iv.length = 16 →
    data.length = 16 * m →
      (∀ i, i < m → block (transform (blockCipher c) ctx iv data).1 i =
        xorBytes ((blockCipher c).dec (handleKey ctx) (block data i)) (if i = 0 then iv else block data (i - 1))) ∧
      (transform (blockCipher c) ctx iv data).2 = if m = 0 then iv else block data (m - 1)

/-- R226: CTR in either direction, the counter a big-endian 128-bit number that wraps, and the new IV. -/
def Obligations.CtrCountsModulo2Pow128 : Prop :=
  (∀ (c : BlockFunction) (ctx : Context) (iv data : List Byte) (m : Nat), ctx.blockMode = .ctr → iv.length = 16 → data.length = 16 * m →
    (∀ i, i < m → block (transform (blockCipher c) ctx iv data).1 i =
      xorBytes (block data i) ((blockCipher c).enc (handleKey ctx) (inc128^[i] iv))) ∧
    (transform (blockCipher c) ctx iv data).2 = inc128^[m] iv) ∧
  ∀ t : List Byte, t.length = 16 → (inc128 t).length = 16 ∧ beNat (inc128 t) = (beNat t + 1) % 2 ^ 128

/-- R228: two transforms one after the other, chained through the IV, are one transform of both, in every mode and direction,
for every block cipher. R228 is about contexts with an active handle; that the reserved mode, which has none, obeys the law too is the
model's (log 17). -/
def Obligations.TransformsChainThroughTheIv : Prop :=
  ∀ (c : BlockCipher) (ctx : Context) (iv a b : List Byte) (m n : Nat), a.length = 16 * m → b.length = 16 * n →
    let ra := transform c ctx iv a
    let rb := transform c ctx ra.2 b
    transform c ctx iv (a ++ b) = (ra.1 ++ rb.1, rb.2)

/-- R229: what one direction makes of whole blocks, the other undoes from the same IV; in CTR the same context undoes it. For the block function
of every configuration: the model's AES, and every other as a permutation of the blocks under each key (log 2). -/
def Obligations.DecryptionUndoesEncryption : Prop :=
  ∀ (c : BlockFunction) (e d : Context) (iv data : List Byte) (m : Nat), e.key = d.key → e.keyLen = d.keyLen →
    e.blockMode = d.blockMode → e.blockMode.isMode = true → iv.length = 16 → data.length = 16 * m →
      (e.encrypt = true → d.encrypt = false →
        (transform (blockCipher c) d iv (transform (blockCipher c) e iv data).1).1 = data) ∧
      (e.blockMode = .ctr → (transform (blockCipher c) e iv (transform (blockCipher c) e iv data).1).1 = data)

/-! ### Conditions and the interrupt line (60_exceptions.md) -/

/-- R240, R251: raising a condition sets its bit, brings the line up to date with at most one event, and does nothing else. R134: the five masks
of the default, whose positions are the spec's decision D13. -/
def Obligations.RaisingSetsTheBitAndTheLine : Prop :=
  (∀ (c : Condition) (s : State),
    ∃ new, (new = true ↔ (s.intStatus ||| c.mask s.cfg) &&& s.intEnable ≠ 0) ∧
      raise c s =
        { s with
          intStatus := s.intStatus ||| c.mask s.cfg
          irq := new
          trace := s.trace ++ if new = s.irq then [] else if new then [.irqRaise] else [.irqLower] }) ∧
  Condition.invalidCommand.mask Cfg.default = 0x00000004 ∧ Condition.flagCommand.mask Cfg.default = 0x00000020 ∧
  Condition.invalidDataLength.mask Cfg.default = 0x00000040 ∧ (Condition.keyDisabled 0).mask Cfg.default = 0x00000080 ∧
  (Condition.keyDisabled 1).mask Cfg.default = 0x00002000

/-- R252: after every step the level reported on the line is that of `INT_STATUS & INT_ENABLE`. -/
def Obligations.TheLineFollowsItsLevel : Prop :=
  ∀ s t : State, IrqConsistent s → step s = .next t → IrqConsistent t

/-- R241, R255: a step that sets bits of `INT_STATUS` sets the bit of one condition, whose cause is there. Among the causes of
`INVALID_COMMAND` a KEY of length class 3 in flight is the model's own (log 12). -/
def Obligations.StatusBitsAreSetOnlyByTheirCauses : Prop :=
  ∀ s t : State, step s = .next t → t.intStatus &&& ~~~s.intStatus ≠ 0 →
    ∃ c, Raises s c ∧ t.intStatus = s.intStatus ||| c.mask s.cfg

/-- R26, R257: a step that clears bits of `INT_STATUS` is the host's write of ones, or a full reset. -/
def Obligations.StatusBitsAreClearedOnlyByHostOrReset : Prop :=
  ∀ s t : State, step s = .next t → s.intStatus &&& ~~~t.intStatus ≠ 0 →
    (∃ v rest, s.events = .host (.regWrite s.cfg.regmap.intStatus 32 v) :: rest ∧ t.intStatus = s.intStatus &&& ~~~v) ∨
    (ResetsAll s ∧ t.intStatus = 0)

/-! ### Whole-machine rules over the state (10_state.md) -/

/-- R21, R24: a step that changes a context runs a KEY for that slot, or is a full reset. -/
def Obligations.ContextsChangeOnlyByKeyOrReset : Prop :=
  ∀ (s t : State) (n : Fin 2), step s = .next t → t.ctx n ≠ s.ctx n →
    (∃ len d key, ExecutesKey s len d key ∧ d.ctx = n ∧ t.ctx n = keyContext s.cfg.keyselSoftware len d key) ∨
    (ResetsAll s ∧ t.ctx n = Context.empty)

/-- R25: a step that changes an IV slot runs an IV for it, or the transform of a DATA that names it, or is a full reset.
What the transform leaves in CTR after a failed read is the model's choice (R193 f; log 28). -/
def Obligations.IvSlotsChangeOnlyByIvDataOrReset : Prop :=
  ∀ (s t : State) (k : Fin 4), step s = .next t → t.iv k ≠ s.iv k →
    (∃ d ws, Executes s (.iv d ws) ∧ d.slot = k ∧ t.iv k = bytesLe ws) ∨
    (∃ d, Executes s (.data d) ∧ s.phase = .dataLoaded ∧ d.ivCtx = k ∧
      t.iv k = (transform (blockCipher s.cfg.aes) (s.ctx d.keyCtx) (s.iv k) s.scratch).2) ∨
    (ResetsAll s ∧ t.iv k = List.replicate 16 0)

/-- R37: the engine starts only by a START write, and stops only by an acknowledgement or the completion of a FLAG with its stop bit. -/
def Obligations.TheEngineStartsAndStopsOnlyAsTold : Prop :=
  ∀ s t : State, step s = .next t →
    (s.running = false → t.running = true →
      ∃ rest, s.events = .host (.regWrite s.cfg.regmap.control 32 s.cfg.ctrl.start) :: rest ∧ s.pending = .none) ∧
    (s.running = true → t.running = false →
      (s.inflight = none ∧ s.stopReq = true) ∨
      ∃ c w rest, s.inflight = some c ∧ c.phase = .executed ∧ c.cmd.words = w :: rest ∧
        opcode s.cfg w = s.cfg.layout.opFlag ∧ bitAt w s.cfg.layout.flagStop = true)

/-- R170: `DEPTH` counts the words in the accumulator, in the queue and in flight, after every step (the framer being at a boundary or
inside a command it has the count of, which every step keeps); and `EMPTY` is 1 exactly when none is left in any of the three. -/
def Obligations.DepthCountsTheOutstandingWords : Prop :=
  (∀ s t : State, DepthConsistent s → FramerConsistent s → step s = .next t → DepthConsistent t ∧ FramerConsistent t) ∧
  ∀ s : State, s.cfg.Wf → Inv s →
    (bitAt (readReg .commandFifoStatus s) s.cfg.regmap.emptyBit = true ↔ s.framer = ⟨[], 0⟩ ∧ s.queue = [] ∧ s.inflight = none)

/-- R46: the state after power-on, element by element, and its views, at the default configuration. -/
def Obligations.ResetLeavesTheTableOfValues : Prop :=
  let s := State.reset
  let emptyCtx : Context :=
    { keySelect := 0, keyLen := .k128, wrapped := false, encrypt := false, keyFunc := 0, blockMode := .ecb, commandId := 0,
      key := List.replicate 32 0, handle := .none, enabled := false }
  s.cfg = Cfg.default ∧
    s.ctx 0 = emptyCtx ∧ s.ctx 1 = emptyCtx ∧ (∀ k : Fin 4, s.iv k = List.replicate 16 0) ∧ s.intStatus = 0 ∧ s.intEnable = 0 ∧
    s.watermarks = 0 ∧ s.flagCommand = 0 ∧ s.depth = 0 ∧ s.overflow = false ∧ s.framer = ⟨[], 0⟩ ∧ s.queue = [] ∧
    s.running = false ∧ s.stopReq = false ∧ s.inflight = none ∧ s.pending = .none ∧ s.irq = false ∧
    readReg .commandFifoStatus s = 0x00000001 ∧ readReg .keyId s = 0

/-- The machine's invariant holds at reset. -/
def Obligations.TheInvariantHoldsAtReset : Prop := Inv State.reset

/-- Every step keeps the machine's invariant: depth (R170), line (R252), framer (R31), queued and in-flight commands (R33, R39), contexts
(R22, R23), IV lengths (R25), reserved status bits (R26), `FLAG_COMMAND` (R34), the hold (R38), and the canonical form of memory. No step
changes the configuration, in any state (10_state R45). -/
def Obligations.EveryStepKeepsTheInvariant : Prop :=
  ∀ s t : State, step s = .next t → (Inv s → Inv t) ∧ t.cfg = s.cfg

/-- From the invariant a step stops only for what comes from outside: a refused register access (log 10), or a race with
another master (log 9). -/
def Obligations.OnlyTheOutsideStopsTheMachine : Prop :=
  ∀ s : State, Inv s →
    (∃ t, step s = .next t) ∨
    (∃ op rest r, s.events = .host op :: rest ∧ step s = .refused r ∧
      r ∈ [Refusal.accessWidth, .misalignedOffset, .undefinedOffset]) ∨
    (∃ a rest, (s.events = .busRead a :: rest ∨ ∃ b, s.events = .busWrite a b :: rest) ∧ step s = .fault .dmaRace)

/-- Nothing public depends on key bytes, IV slots, the scratch buffer or the contents of memory: two states that agree in the rest take steps
that agree in the rest (R21, R25, R44; 60_exceptions R258). -/
def Obligations.PublicStateDoesNotDependOnSecrets : Prop :=
  ∀ s₁ s₂ : State, publicView s₁ = publicView s₂ → PublicSame (step s₁) (step s₂)

/-- R290, R291: with nothing else moving and enough answers waiting, the machine is quiescent after at most `engineWork` steps
(answers: log 4 and 5; with no event listed the engine moves: log 7 and 8). -/
def Obligations.TheEngineReachesQuiescence : Prop :=
  ∀ s : State, Inv s → s.events = [] → (∀ a ∈ s.dmaAnswers, a ≠ .noAnswer) → 2 * (s.queue.length + 1) ≤ s.dmaAnswers.length →
    ∃ k t, k ≤ engineWork s ∧ Host.Core.run core k s = .next t ∧ Quiescent t

/-- 20_memory R71 and 70_reset_and_hazards R283: another master's access is a race exactly when its byte lies in the destination range of the
DATA or STORE_IV in flight, or, for a write, in the source range of a DATA that has not read it yet. A race stops the machine (that it does is
the model's choice, which R71 allows, log 9); any other write changes that byte of memory alone, and any other read is only recorded.
Ranges past 2^64: log 27. -/
def Obligations.OtherMastersRaceOnlyOnBuffersInFlight : Prop :=
  ∀ (a : Addr) (s : State) (rest : List Event),
    let inside (base : Addr) (n : Nat) : Prop := base.toNat ≤ a.toNat ∧ a.toNat < base.toNat + n
    let checked (d : DataFields) : Prop :=
      dataLength d % 16 = 0 ∧ (s.ctx d.keyCtx).enabled = true ∧ (s.ctx d.keyCtx).handle = .active
    let written : Prop := ∃ c : Inflight, s.inflight = some c ∧
      ((∃ d : DataFields, decodeCommand s.cfg c.cmd.words = some (.data d) ∧ checked d ∧ inside (dataDst d) (dataLength d)) ∨
        ∃ d : StoreIvFields, decodeCommand s.cfg c.cmd.words = some (.storeIv d) ∧ inside (storeIvDst d) 16)
    let unread : Prop := ∃ (c : Inflight) (d : DataFields), s.inflight = some c ∧ c.phase = .fetched ∧
      decodeCommand s.cfg c.cmd.words = some (.data d) ∧ checked d ∧ inside (dataSrc d) (dataLength d)
    (∀ b : Byte, s.events = .busWrite a b :: rest →
      (written ∨ unread → step s = .fault .dmaRace) ∧
      (¬ (written ∨ unread) →
        ∃ m, step s = .next { s with events := rest, mem := m } ∧ (s.mem.wf → m.read a.toNat = b) ∧
          ∀ x, x ≠ a.toNat → m.read x = s.mem.read x)) ∧
    (s.events = .busRead a :: rest →
      (written → step s = .fault .dmaRace) ∧
      (¬ written →
        step s = .next { s with events := rest, trace := s.trace ++ [.busRead a (s.mem.read a.toNat)] }))
end

