-- ==== Sys2Proof/Laws/Aes.lean ====
section
/-! SUPPORT. The inverse cipher undoes the forward cipher (43_cipher_modes R220), whatever the round keys, and both give blocks. -/

namespace Sys2Proof.Machine

/-- The inverse S-box undoes the S-box. -/
theorem invSubByte_subByte : ∀ x : Byte, invSubByte (subByte x) = x := by decide +kernel

/-- `xtime` distributes over exclusive or. -/
theorem xtime_xor (x y : Byte) : xtime (x ^^^ y) = xtime x ^^^ xtime y := by
  unfold xtime
  rw [BitVec.shiftLeft_xor_distrib, BitVec.msb_xor]
  cases x.msb <;> cases y.msb <;> simp
  · ac_rfl
  · ac_rfl
  · rw [show x <<< 1 ^^^ 27#8 ^^^ (y <<< 1 ^^^ 27#8) = x <<< 1 ^^^ y <<< 1 ^^^ (27#8 ^^^ 27#8) by ac_rfl]; simp

theorem mul3_xor (x y : Byte) : mul3 (x ^^^ y) = mul3 x ^^^ mul3 y := by
  simp only [mul3, xtime_xor]; ac_rfl

theorem mul9_xor (x y : Byte) : mul9 (x ^^^ y) = mul9 x ^^^ mul9 y := by
  simp only [mul9, xtime_xor]; ac_rfl

theorem mul11_xor (x y : Byte) : mul11 (x ^^^ y) = mul11 x ^^^ mul11 y := by
  simp only [mul11, xtime_xor]; ac_rfl

theorem mul13_xor (x y : Byte) : mul13 (x ^^^ y) = mul13 x ^^^ mul13 y := by
  simp only [mul13, xtime_xor]; ac_rfl

theorem mul14_xor (x y : Byte) : mul14 (x ^^^ y) = mul14 x ^^^ mul14 y := by
  simp only [mul14, xtime_xor]; ac_rfl

/-- MixColumns distributes over exclusive or of columns. -/
theorem mixCol_xor (c d : AesCol) : mixCol (c.xor d) = (mixCol c).xor (mixCol d) := by
  simp only [mixCol, AesCol.xor, xtime_xor, mul3_xor, AesCol.mk.injEq]
  refine ⟨?_, ?_, ?_, ?_⟩ <;> ac_rfl

/-- InvMixColumns distributes over exclusive or of columns. -/
theorem invMixCol_xor (c d : AesCol) : invMixCol (c.xor d) = (invMixCol c).xor (invMixCol d) := by
  simp only [invMixCol, AesCol.xor, mul9_xor, mul11_xor, mul13_xor, mul14_xor, AesCol.mk.injEq]
  refine ⟨?_, ?_, ?_, ?_⟩ <;> ac_rfl

theorem invMixCol_mixCol_r0 : ∀ x : Byte, invMixCol (mixCol ⟨x, 0, 0, 0⟩) = ⟨x, 0, 0, 0⟩ := by decide +kernel
theorem invMixCol_mixCol_r1 : ∀ x : Byte, invMixCol (mixCol ⟨0, x, 0, 0⟩) = ⟨0, x, 0, 0⟩ := by decide +kernel
theorem invMixCol_mixCol_r2 : ∀ x : Byte, invMixCol (mixCol ⟨0, 0, x, 0⟩) = ⟨0, 0, x, 0⟩ := by decide +kernel
theorem invMixCol_mixCol_r3 : ∀ x : Byte, invMixCol (mixCol ⟨0, 0, 0, x⟩) = ⟨0, 0, 0, x⟩ := by decide +kernel

/-- InvMixColumns undoes MixColumns: it does so on each row alone, and both distribute. -/
theorem invMixCol_mixCol (c : AesCol) : invMixCol (mixCol c) = c := by
  obtain ⟨p, q, r, s⟩ := c
  have h : (⟨p, q, r, s⟩ : AesCol) =
      (((⟨p, 0, 0, 0⟩ : AesCol).xor ⟨0, q, 0, 0⟩).xor ⟨0, 0, r, 0⟩).xor ⟨0, 0, 0, s⟩ := by
    simp [AesCol.xor]
  rw [h]
  simp only [mixCol_xor, invMixCol_xor, invMixCol_mixCol_r0, invMixCol_mixCol_r1, invMixCol_mixCol_r2, invMixCol_mixCol_r3]

@[simp] theorem invShiftRows_shiftRows (s : AesState) : invShiftRows (shiftRows s) = s := rfl

@[simp] theorem invSubBytes_subBytes (s : AesState) : invSubBytes (subBytes s) = s := by
  simp [invSubBytes, subBytes, AesState.map, AesCol.map, invSubByte_subByte]

@[simp] theorem map_invMixCol_mixCol (s : AesState) : (s.map mixCol).map invMixCol = s := by
  simp [AesState.map, invMixCol_mixCol]

@[simp] theorem addRoundKey_addRoundKey (k s : AesState) : addRoundKey k (addRoundKey k s) = s := by
  simp [addRoundKey, AesCol.xor]

/-- The rounds are undone, for any list of round keys. -/
theorem decRounds_encRounds (ks : List AesState) (s : AesState) : decRounds ks (encRounds ks s) = s := by
  induction ks generalizing s with
  | nil => rfl
  | cons k ks ih =>
    cases ks with
    | nil => simp [decRounds, encRounds]
    | cons k' ks => simp [decRounds, encRounds, ih]

/-- The inverse cipher undoes the forward cipher on AES states. -/
theorem decState_encState (ks : List AesState) (s : AesState) : decState ks (encState ks s) = s := by
  cases ks with
  | nil => rfl
  | cons k ks => simp [decState, encState, decRounds_encRounds]

@[simp] theorem aesStateOf_bytes (s : AesState) : aesStateOf s.bytes = s := rfl

/-- A block of 16 bytes is the bytes of its AES state. -/
theorem bytes_aesStateOf {b : List Byte} (h : b.length = 16) : (aesStateOf b).bytes = b := by
  refine List.ext_getElem (by simp [AesState.bytes, AesCol.bytes, h]) fun i h₁ h₂ => ?_
  have hi : i < 16 := h ▸ h₂
  simp only [AesState.bytes, AesCol.bytes, aesStateOf, List.getD_eq_getElem?_getD]
  interval_cases i <;> simp [h]

/-- `AES_D` inverts `AES_E` on blocks (R220). -/
theorem aesD_aesE (key : List Byte) {x : List Byte} (h : x.length = 16) : aesD key (aesE key x) = x := by
  simp [aesD, aesE, decState_encState, bytes_aesStateOf h]

@[simp] theorem length_aesE (key x : List Byte) : (aesE key x).length = 16 := rfl

@[simp] theorem length_aesD (key x : List Byte) : (aesD key x).length = 16 := rfl

end Sys2Proof.Machine
end

