-- ==== Sys2Proof/Laws/Cipher.lean ====
section
/-! SUPPORT. Block functions are lawful. The modes: lengths, and how a byte string falls into blocks. -/

namespace Sys2Proof.Machine

open Sys2Proof.Safety

/-- The default block cipher meets what claims assume (43_cipher_modes R220). -/
theorem aes_lawful : CipherLawful aes where
  enc_length k x _ := length_aesE k x
  dec_length k x _ := length_aesD k x
  dec_enc k _ h := aesD_aesE k h

/-! ### Blocks as numbers -/

/-- A number as `m` bytes, most significant first. -/
def beBytes (m n : Nat) : List Byte := (List.range m).map fun i => BitVec.ofNat 8 (n >>> (8 * (m - 1 - i)))

theorem beBytes16_eq (n : Nat) : beBytes16 n = beBytes 16 n := rfl

theorem beBytes_succ (m n : Nat) : beBytes (m + 1) n = beBytes m (n / 256) ++ [BitVec.ofNat 8 n] := by
  simp only [beBytes, List.range_succ, List.map_append, List.map_cons, List.map_nil]
  congr 1
  · refine List.map_congr_left fun i hi => ?_
    have hi := List.mem_range.1 hi
    rw [show (256 : Nat) = 2 ^ 8 from rfl, ← Nat.shiftRight_eq_div_pow, ← Nat.shiftRight_add]
    congr 2; omega
  · simp

theorem beNat_append (l : List Byte) (b : Byte) : beNat (l ++ [b]) = beNat l * 256 + b.toNat := by
  simp [beNat]

/-- The number of a string of `m` bytes. -/
theorem beNat_beBytes (m n : Nat) : beNat (beBytes m n) = n % 256 ^ m := by
  induction m generalizing n with
  | zero => simp [beBytes, beNat, Nat.mod_one]
  | succ m ih =>
    rw [beBytes_succ, beNat_append, ih, BitVec.toNat_ofNat, show 256 ^ (m + 1) = 256 * 256 ^ m from Nat.pow_succ', Nat.mod_mul]
    omega

theorem beBytes_beNat (l : List Byte) : beBytes l.length (beNat l) = l := by
  induction l using List.reverseRecOn with
  | nil => rfl
  | append_singleton l b ih =>
    have hb := b.isLt
    rw [List.length_append, List.length_singleton, beBytes_succ, beNat_append,
      show (beNat l * 256 + b.toNat) / 256 = beNat l by omega, ih]
    congr 2
    apply BitVec.eq_of_toNat_eq
    rw [BitVec.toNat_ofNat]; omega

/-- A block read as a number is below 2^128. -/
theorem beNat_lt {t : List Byte} (h : t.length = 16) : beNat t < 2 ^ 128 := by
  rw [← beBytes_beNat t, beNat_beBytes, h]
  exact Nat.mod_lt _ (by decide)

@[simp] theorem beNat_beBytes16 (n : Nat) : beNat (beBytes16 n) = n % 2 ^ 128 := by
  rw [beBytes16_eq, beNat_beBytes]; rfl

theorem beBytes16_beNat {t : List Byte} (h : t.length = 16) : beBytes16 (beNat t) = t := by
  rw [beBytes16_eq, ← h, beBytes_beNat]

/-- A permutation of the blocks under each key is a block cipher that claims may be made of (43_cipher_modes R220). -/
theorem permutationCipher_lawful (p : List Byte → Equiv.Perm (BitVec 128)) : CipherLawful (permutationCipher p) where
  enc_length _ _ _ := rfl
  dec_length _ _ _ := rfl
  dec_enc k x h := by
    have : blockNumber (beBytes16 (p k (blockNumber x)).toNat) = p k (blockNumber x) := by
      apply BitVec.eq_of_toNat_eq
      rw [blockNumber, beNat_beBytes16, BitVec.toNat_ofNat, Nat.mod_mod, Nat.mod_eq_of_lt (BitVec.isLt _)]
    simp only [permutationCipher, this, Equiv.symm_apply_apply]
    rw [blockNumber, BitVec.toNat_ofNat, Nat.mod_eq_of_lt (beNat_lt h), beBytes16_beNat h]

/-- So is the block function of every configuration. -/
theorem blockCipher_lawful : ∀ c : BlockFunction, CipherLawful (blockCipher c)
  | .aes => aes_lawful
  | .other _ => permutationCipher_lawful _

/-! ### Blocks of a string -/

@[simp] theorem length_blocks (m : Nat) (d : List Byte) : (blocks m d).length = m := by
  induction m generalizing d with
  | zero => rfl
  | succ m ih => simp [blocks, ih]

/-- The blocks of a string of whole blocks have 16 bytes. -/
theorem length_of_mem_blocks {m : Nat} {d : List Byte} (hd : d.length = 16 * m) {b : List Byte} (hb : b ∈ blocks m d) :
    b.length = 16 := by
  induction m generalizing d with
  | zero => simp [blocks] at hb
  | succ m ih =>
    simp only [blocks, List.mem_cons] at hb
    rcases hb with rfl | hb
    · simp; omega
    · exact ih (by simp; omega) hb

/-- The blocks of two strings of whole blocks, one after the other. -/
theorem blocks_append {m n : Nat} {d e : List Byte} (hd : d.length = 16 * m) :
    blocks (m + n) (d ++ e) = blocks m d ++ blocks n e := by
  induction m generalizing d with
  | zero =>
    obtain rfl : d = [] := List.eq_nil_of_length_eq_zero (by omega)
    simp [blocks]
  | succ m ih =>
    have h := ih (d := d.drop 16) (by simp; omega)
    rw [Nat.add_right_comm]
    simp only [blocks, List.cons_append]
    rw [List.take_append_of_le_length (by omega), List.drop_append_of_le_length (by omega), h]

/-- The blocks put together are the string. -/
theorem flatten_blocks {m : Nat} {d : List Byte} (hd : d.length = 16 * m) : (blocks m d).flatten = d := by
  induction m generalizing d with
  | zero =>
    obtain rfl : d = [] := List.eq_nil_of_length_eq_zero (by omega)
    rfl
  | succ m ih => simp [blocks, ih (d := d.drop 16) (by simp; omega)]

@[simp] theorem length_xorBytes (a b : List Byte) : (xorBytes a b).length = min a.length b.length := by
  simp [xorBytes]

@[simp] theorem length_beBytes16 (n : Nat) : (beBytes16 n).length = 16 := rfl

@[simp] theorem length_inc128 (t : List Byte) : (inc128 t).length = 16 := rfl

/-- Exclusive or with the same block twice. -/
theorem xorBytes_xorBytes {a b : List Byte} (h : a.length = b.length) : xorBytes (xorBytes a b) b = a := by
  induction a generalizing b with
  | nil => rfl
  | cons x a ih =>
    cases b with
    | nil => simp at h
    | cons y b =>
      simp only [List.length_cons, Nat.add_right_cancel_iff] at h
      have := ih h
      simp only [xorBytes, List.zipWith_cons_cons] at this ⊢
      rw [this, BitVec.xor_assoc, BitVec.xor_self, BitVec.xor_zero]

/-- What a mode gives: as many blocks as it gets, blocks of 16 bytes, and an IV of 16 bytes. -/
abbrev BlocksLike (bs : List (List Byte)) (r : List (List Byte) × List Byte) : Prop :=
  r.1.length = bs.length ∧ (∀ b ∈ r.1, b.length = 16) ∧ r.2.length = 16

theorem ecb_blocksLike {f : List Byte → List Byte} (hf : ∀ x, x.length = 16 → (f x).length = 16) {iv : List Byte}
    (hiv : iv.length = 16) {bs : List (List Byte)} (hb : ∀ b ∈ bs, b.length = 16) : BlocksLike bs (ecb f iv bs) := by
  refine ⟨by simp [ecb], fun b h => ?_, hiv⟩
  simp only [ecb, List.mem_map] at h
  obtain ⟨x, hx, rfl⟩ := h
  exact hf x (hb x hx)

theorem cbcEncrypt_blocksLike {f : List Byte → List Byte} (hf : ∀ x, x.length = 16 → (f x).length = 16) {iv : List Byte}
    (hiv : iv.length = 16) {bs : List (List Byte)} (hb : ∀ b ∈ bs, b.length = 16) : BlocksLike bs (cbcEncrypt f iv bs) := by
  induction bs generalizing iv with
  | nil => exact ⟨rfl, by simp [cbcEncrypt], hiv⟩
  | cons b bs ih =>
    have hc : (f (xorBytes b iv)).length = 16 := hf _ (by simp [hb b (by simp), hiv])
    obtain ⟨h1, h2, h3⟩ := ih hc fun x hx => hb x (by simp [hx])
    exact ⟨by simp [cbcEncrypt, h1], fun x hx => by
      simp only [cbcEncrypt, List.mem_cons] at hx
      rcases hx with rfl | hx
      · exact hc
      · exact h2 x hx, h3⟩

theorem cbcDecrypt_blocksLike {f : List Byte → List Byte} (hf : ∀ x, x.length = 16 → (f x).length = 16) {iv : List Byte}
    (hiv : iv.length = 16) {bs : List (List Byte)} (hb : ∀ b ∈ bs, b.length = 16) : BlocksLike bs (cbcDecrypt f iv bs) := by
  induction bs generalizing iv with
  | nil => exact ⟨rfl, by simp [cbcDecrypt], hiv⟩
  | cons b bs ih =>
    obtain ⟨h1, h2, h3⟩ := ih (iv := b) (hb b (by simp)) fun x hx => hb x (by simp [hx])
    exact ⟨by simp [cbcDecrypt, h1], fun x hx => by
      simp only [cbcDecrypt, List.mem_cons] at hx
      rcases hx with rfl | hx
      · simp [hf b (hb b (by simp)), hiv]
      · exact h2 x hx, h3⟩

theorem ctrMode_blocksLike {f : List Byte → List Byte} (hf : ∀ x, x.length = 16 → (f x).length = 16) {t : List Byte}
    (ht : t.length = 16) {bs : List (List Byte)} (hb : ∀ b ∈ bs, b.length = 16) : BlocksLike bs (ctrMode f t bs) := by
  induction bs generalizing t with
  | nil => exact ⟨rfl, by simp [ctrMode], ht⟩
  | cons b bs ih =>
    obtain ⟨h1, h2, h3⟩ := ih (t := inc128 t) rfl fun x hx => hb x (by simp [hx])
    exact ⟨by simp [ctrMode, h1], fun x hx => by
      simp only [ctrMode, List.mem_cons] at hx
      rcases hx with rfl | hx
      · simp [hf t ht, hb b (by simp)]
      · exact h2 x hx, h3⟩

/-- Every mode of a context with a lawful cipher gives blocks. -/
theorem modeBlocks_blocksLike {c : BlockCipher} (hc : CipherLawful c) (ctx : Context) {iv : List Byte} (hiv : iv.length = 16)
    {bs : List (List Byte)} (hb : ∀ b ∈ bs, b.length = 16) : BlocksLike bs (modeBlocks c ctx iv bs) := by
  unfold modeBlocks
  split
  · split
    · exact ecb_blocksLike (hc.enc_length _) hiv hb
    · exact ecb_blocksLike (hc.dec_length _) hiv hb
  · split
    · exact cbcEncrypt_blocksLike (hc.enc_length _) hiv hb
    · exact cbcDecrypt_blocksLike (hc.dec_length _) hiv hb
  · exact ctrMode_blocksLike (hc.enc_length _) hiv hb
  · exact ⟨rfl, hb, hiv⟩

/-- Blocks of 16 bytes put together. -/
theorem length_flatten_blocks {bs : List (List Byte)} (h : ∀ b ∈ bs, b.length = 16) : bs.flatten.length = 16 * bs.length := by
  induction bs with
  | nil => rfl
  | cons b bs ih =>
    have h1 := ih fun x hx => h x (by simp [hx])
    have h2 := h b (by simp)
    simp only [List.flatten_cons, List.length_append, List.length_cons, h1, h2]
    omega

/-- Block `i` of blocks put together. -/
theorem block_flatten {bs : List (List Byte)} (h : ∀ b ∈ bs, b.length = 16) {i : Nat} (hi : i < bs.length) :
    block bs.flatten i = bs[i] := by
  induction bs generalizing i with
  | nil => simp at hi
  | cons b bs ih =>
    have hb := h b (by simp)
    cases i with
    | zero => simp [block, hb]
    | succ i =>
      have := ih (fun x hx => h x (by simp [hx])) (by simpa using hi)
      simp only [List.getElem_cons_succ, ← this, block, List.flatten_cons]
      congr 1
      rw [show 16 * (i + 1) = b.length + 16 * i by omega, List.drop_append, List.drop_eq_nil_of_le (by omega)]
      simp

/-- Block `i` of a string, as the modes take it. -/
theorem getElem_blocks {m : Nat} (d : List Byte) {i : Nat} (hi : i < (blocks m d).length) : (blocks m d)[i] = block d i := by
  induction m generalizing d i with
  | zero => simp at hi
  | succ m ih =>
    cases i with
    | zero => simp [blocks, block]
    | succ i =>
      simp only [blocks, List.getElem_cons_succ]
      rw [ih (d.drop 16) (by simpa using hi)]
      simp only [block, List.drop_drop]
      congr 2; omega

/-- Blocks put together fall into the same blocks. -/
theorem blocks_flatten {bs : List (List Byte)} (h : ∀ b ∈ bs, b.length = 16) : blocks bs.length bs.flatten = bs := by
  induction bs with
  | nil => rfl
  | cons b bs ih =>
    have hb := h b (by simp)
    simp only [List.length_cons, blocks, List.flatten_cons]
    rw [List.take_append_of_le_length (by omega), List.drop_append_of_le_length (by omega),
      List.take_of_length_le (by omega), List.drop_eq_nil_of_le (by omega), List.nil_append,
      ih fun x hx => h x (by simp [hx])]

end Sys2Proof.Machine
end

