-- ==== Sys2Proof/Laws/Decode.lean ====
section
/-! SUPPORT. The decoder: fields of a packed word, word counts, and that the commands the framer makes decode. -/

namespace Sys2Proof
open Sys2Proof.Safety
/-! ### Fields of a word -/

/-- A field that lies in the low part of a concatenation. -/
theorem extract_append_low {n m : Nat} (x : BitVec n) (y : BitVec m) (lo len : Nat) (h : lo + len ≤ m) :
    (x ++ y).extractLsb' lo len = y.extractLsb' lo len := by
  ext i hi
  simp only [BitVec.getElem_extractLsb', BitVec.getLsbD_append]
  rw [if_pos (by omega)]

/-- A field that lies in the high part of a concatenation. -/
theorem extract_append_high {n m : Nat} (x : BitVec n) (y : BitVec m) (lo len : Nat) (h : m ≤ lo) :
    (x ++ y).extractLsb' lo len = x.extractLsb' (lo - m) len := by
  ext i hi
  simp only [BitVec.getElem_extractLsb', BitVec.getLsbD_append]
  rw [if_neg (by omega)]
  congr 1; omega

theorem getLsbD_put {n : Nat} (lo : Nat) (v : BitVec n) (i : Nat) :
    (put lo v).getLsbD i = (decide (i < 32) && decide (lo ≤ i) && v.getLsbD (i - lo)) := by
  simp only [put, BitVec.getLsbD_shiftLeft, BitVec.getLsbD_setWidth]
  by_cases h1 : i < 32
  · by_cases h2 : lo ≤ i
    · simp [h1, h2, show i - lo < 32 by omega, Nat.not_lt.2 h2]
    · simp [h1, h2, Nat.lt_of_not_le h2]
  · simp [h1]

@[simp] theorem bits_or (a b : Word) (lo n : Nat) : bits (a ||| b) lo n = bits a lo n ||| bits b lo n := by
  ext i hi; simp [bits, BitVec.getElem_extractLsb']

/-- A field that was put is read back. -/
theorem bits_put_same {lo n : Nat} (v : BitVec n) (h : lo + n ≤ 32) : bits (put lo v) lo n = v := by
  ext i hi
  simp only [bits, BitVec.getElem_extractLsb', getLsbD_put]
  simp [show lo + i < 32 by omega, hi]

/-- A field that was put elsewhere reads 0. -/
theorem bits_put_other {lo n lo' n' : Nat} (v : BitVec n') (h : lo + n ≤ lo' ∨ lo' + n' ≤ lo) : bits (put lo' v) lo n = 0 := by
  ext i hi
  simp only [bits, BitVec.getElem_extractLsb', getLsbD_put]
  by_cases h2 : lo' ≤ lo + i
  · rw [BitVec.getLsbD_of_ge _ _ (by omega)]; simp
  · simp [h2]

theorem getLsbD_maskOf_of_mem {fs : List (Nat × Nat)} {lo n i : Nat} (h : (lo, n) ∈ fs) (h1 : lo ≤ i) (h2 : i < lo + n)
    (h3 : i < 32) : (maskOf fs).getLsbD i = true := by
  induction fs with
  | nil => simp at h
  | cons f fs ih =>
    simp only [maskOf, BitVec.getLsbD_or]
    rcases List.mem_cons.1 h with rfl | h
    · simp [getLsbD_put, h1, h3, show i - lo < n by omega]
    · simp [ih h]

/-- Ignored bits do not show in a field. -/
theorem bits_ignored {fs : List (Nat × Nat)} {ig : Word} (hc : clearOf fs ig = true) {lo n : Nat} (h : (lo, n) ∈ fs)
    (h2 : lo + n ≤ 32) : bits ig lo n = 0 := by
  have hz : ig &&& maskOf fs = 0 := by simpa [clearOf] using hc
  ext i hi
  simp only [bits, BitVec.getElem_extractLsb']
  have := congrArg (fun w : Word => w.getLsbD (lo + i)) hz
  simpa [BitVec.getLsbD_and, getLsbD_maskOf_of_mem h (show lo ≤ lo + i by omega) (by omega) (by omega)] using this

/-- A flag of a word is a field of one bit. -/
theorem flagBit_bitAt (w : Word) (i : Nat) : flagBit (bitAt w i) = bits w i 1 := by
  ext j hj
  obtain rfl : j = 0 := by omega
  simp [flagBit, bitAt, bits]

/-- A field of one bit, as a flag. -/
theorem bitAt_of_bits {w : Word} {i : Nat} {b : Bool} (h : bits w i 1 = flagBit b) : bitAt w i = b := by
  rw [← flagBit_bitAt] at h
  revert h; cases b <;> cases bitAt w i <;> simp [flagBit]

/-- Putting a field of a word back keeps those bits of it. -/
theorem put_bits (w : Word) (lo n : Nat) : put lo (bits w lo n) = w &&& put lo (BitVec.allOnes n) := by
  ext i hi
  simp only [← BitVec.getLsbD_eq_getElem, BitVec.getLsbD_and, getLsbD_put, bits, BitVec.getLsbD_extractLsb', BitVec.getLsbD_allOnes]
  by_cases h2 : lo ≤ i
  · rw [show lo + (i - lo) = i by omega]; cases w.getLsbD i <;> simp [h2, hi]
  · simp [h2]

@[simp] theorem clearOf_spare (fs : List (Nat × Nat)) (w : Word) : clearOf fs (spare fs w) = true := by
  simp only [clearOf, spare, beq_iff_eq]
  rw [BitVec.and_assoc, show ~~~maskOf fs &&& maskOf fs = 0 by simp]; simp

/-- The fields of a word and its other bits make the word. -/
theorem and_maskOf_or_spare (fs : List (Nat × Nat)) (w : Word) : w &&& maskOf fs ||| spare fs w = w := by
  ext i hi; simp only [spare, BitVec.getElem_or, BitVec.getElem_and, BitVec.getElem_not]
  cases w[i] <;> simp

/-- The high and the low half of a word make the word. -/
theorem halves (w : Word) : bits w 16 16 ++ bits w 0 16 = w := by
  ext i hi
  simp only [bits, BitVec.getElem_append, BitVec.getElem_extractLsb']
  split
  · simp [BitVec.getLsbD_eq_getElem, hi]
  · rw [show 16 + (i - 16) = i by omega]; exact BitVec.getLsbD_eq_getElem hi

theorem fieldsWf_iff {fs : List (Nat × Nat)} :
    FieldsWf fs ↔ (∀ f ∈ fs, f.1 + f.2 ≤ 32) ∧ fs.Pairwise fun f g => f.1 + f.2 ≤ g.1 ∨ g.1 + g.2 ≤ f.1 :=
  decide_eq_true_iff

/-- Every field of a packed word reads as its value. -/
theorem bits_pack {fs : List Filled} {x : Word} (hw : FieldsWf (fs.map Sigma.fst)) {lo n : Nat} {v : BitVec n}
    (hm : (⟨(lo, n), v⟩ : Filled) ∈ fs) (hx : bits x lo n = 0) : bits (pack fs x) lo n = v := by
  have hz : ∀ gs : List Filled, (∀ g ∈ gs, lo + n ≤ g.1.1 ∨ g.1.1 + g.1.2 ≤ lo) → bits (pack gs x) lo n = 0 := by
    intro gs hg
    induction gs with
    | nil => exact hx
    | cons g gs ih =>
      rw [List.forall_mem_cons] at hg
      rw [pack, List.foldr_cons, ← pack, bits_or, bits_put_other _ hg.1, ih hg.2]; simp
  induction fs with
  | nil => simp at hm
  | cons f fs ih =>
    simp only [fieldsWf_iff, List.map_cons, List.forall_mem_cons, List.pairwise_cons] at hw
    rw [pack, List.foldr_cons, ← pack, bits_or]
    rcases List.mem_cons.1 hm with rfl | hm
    · rw [bits_put_same _ hw.1.1, hz fs fun g hg => hw.2.1 _ (List.mem_map_of_mem hg)]; simp
    · rw [bits_put_other _ (hw.2.1 _ (List.mem_map_of_mem hm)).symm, ih (fieldsWf_iff.2 ⟨hw.1.2, hw.2.2⟩) hm]; simp

/-- The bits outside the fields of a packed word are the other bits. -/
theorem spare_pack {fs : List Filled} {x : Word} (hx : clearOf (fs.map Sigma.fst) x = true) :
    spare (fs.map Sigma.fst) (pack fs x) = x := by
  have hz : x &&& maskOf (fs.map Sigma.fst) = 0 := by simpa [clearOf] using hx
  suffices h : ∀ m : Word, maskOf (fs.map Sigma.fst) &&& ~~~m = 0 → pack fs x &&& ~~~m = x &&& ~~~m by
    rw [spare, h _ (by simp)]
    ext i hi
    have := congrArg (fun w : Word => w[i]) hz
    simp only [BitVec.getElem_and, BitVec.getElem_not] at this ⊢
    cases h : x[i] <;> simp_all
  clear hx hz
  induction fs with
  | nil => intros; rfl
  | cons f fs ih =>
    intro m hm
    rw [List.map_cons, maskOf] at hm
    rw [pack, List.foldr_cons, ← pack]
    have h1 : put f.1.1 f.2 &&& ~~~m = 0 := by
      ext i hi
      have := congrArg (fun w : Word => w.getLsbD i) hm
      simp only [BitVec.getLsbD_and, BitVec.getLsbD_or, getLsbD_put, ← BitVec.getLsbD_eq_getElem, BitVec.getLsbD_not] at this ⊢
      cases hv : f.2.getLsbD (i - f.1.1)
      · simp
      · have := BitVec.lt_of_getLsbD hv
        simp_all
    have h2 : maskOf (fs.map Sigma.fst) &&& ~~~m = 0 := by
      ext i hi
      have := congrArg (fun w : Word => w[i]) hm
      simp only [BitVec.getElem_and, BitVec.getElem_or, BitVec.getElem_not] at this ⊢
      cases h : m[i] <;> simp_all
    ext i hi
    have e1 := congrArg (fun w : Word => w[i]) h1
    have e2 := congrArg (fun w : Word => w[i]) (ih m h2)
    simp only [BitVec.getElem_and, BitVec.getElem_or, BitVec.getElem_not] at e1 e2 ⊢
    cases h : m[i] <;> simp_all

/-- A field of a packed word, the ignored bits outside the fields. -/
theorem bits_packed {fs : List Filled} {ig : Word} (hw : FieldsWf (fs.map Sigma.fst)) (hc : clearOf (fs.map Sigma.fst) ig = true)
    {lo n : Nat} {v : BitVec n} (hm : (⟨(lo, n), v⟩ : Filled) ∈ fs) : bits (pack fs ig) lo n = v :=
  bits_pack hw hm (bits_ignored hc (List.mem_map_of_mem hm) ((fieldsWf_iff.1 hw).1 _ (List.mem_map_of_mem hm)))

/-- Fields that hold what a word has there, packed above the other bits of the word, make the word. -/
theorem pack_read {fs : List Filled} {w : Word} (h : ∀ f ∈ fs, f.2 = bits w f.1.1 f.1.2) :
    pack fs (spare (fs.map Sigma.fst) w) = w := by
  suffices hp : ∀ x, pack fs x = w &&& maskOf (fs.map Sigma.fst) ||| x by rw [hp, and_maskOf_or_spare]
  intro x
  induction fs with
  | nil => simp [pack, maskOf]
  | cons f fs ih =>
    rw [List.forall_mem_cons] at h
    rw [pack, List.foldr_cons, ← pack, ih h.2, h.1, put_bits, List.map_cons, maskOf]
    ext i hi; simp only [BitVec.getElem_or, BitVec.getElem_and]
    cases w[i] <;> simp [Bool.or_assoc]

/-! ### Fields whose width is a parameter -/

/-- A field fits its width. -/
theorem fieldOf_lt (w : Word) (lo n : Nat) : (fieldOf w lo n).toNat < 2 ^ n := by
  rw [fieldOf, BitVec.toNat_setWidth]
  exact lt_of_le_of_lt (Nat.mod_le _ _) (bits w lo n).isLt

@[simp] theorem fitsIn_fieldOf (w : Word) (lo n : Nat) : fitsIn n (fieldOf w lo n) = true := by
  simpa [fitsIn] using fieldOf_lt w lo n

/-- A field filled with a value that fits reads as the value. -/
theorem fieldOf_of_bits {w v : Word} {lo n : Nat} (h : bits w lo n = v.setWidth n) (hf : fitsIn n v = true) : fieldOf w lo n = v := by
  have hf : v.toNat < 2 ^ n := by simpa [fitsIn] using hf
  apply BitVec.eq_of_toNat_eq
  rw [fieldOf, h, BitVec.toNat_setWidth, BitVec.toNat_setWidth, Nat.mod_eq_of_lt hf, Nat.mod_eq_of_lt v.isLt]

/-- What a field reads as fills it with its bits. -/
theorem setWidth_fieldOf {w : Word} {lo n : Nat} (h : n ≤ 32) : (fieldOf w lo n).setWidth n = bits w lo n := by
  rw [fieldOf, BitVec.setWidth_setWidth_of_le _ h, BitVec.setWidth_eq]

/-- A field of a packed word that was filled with a value that fits. -/
theorem fieldOf_packed {fs : List Filled} {ig : Word} (hw : FieldsWf (fs.map Sigma.fst)) (hc : clearOf (fs.map Sigma.fst) ig = true)
    {lo n : Nat} {v : Word} (hm : fill lo n v ∈ fs) (hf : fitsIn n v = true) : fieldOf (pack fs ig) lo n = v :=
  fieldOf_of_bits (bits_packed hw hc hm) hf

/-! ### Commands of several words with fields -/

/-- The fields of a filled format. -/
abbrev formatOf (fs : List (Nat × Filled)) : List (Nat × Nat × Nat) := fs.map fun f => (f.1, f.2.1)

theorem map_fst_atWord (j : Nat) (fs : List (Nat × Filled)) : (atWord j fs).map Sigma.fst = atWord j (formatOf fs) := by
  simp only [atWord, formatOf, List.filter_map, List.map_map]; rfl

theorem mem_atWord {α : Type} {j : Nat} {x : α} {fs : List (Nat × α)} : x ∈ atWord j fs ↔ (j, x) ∈ fs := by
  simp [atWord]

@[simp] theorem length_packWords (n : Nat) (fs : List (Nat × Filled)) (ig : List Word) : (packWords n fs ig).length = n := by
  simp [packWords]

theorem wordAt_map_range {n j : Nat} (f : Nat → Word) (h : j < n) : wordAt ((List.range n).map f) j = f j := by
  simp [wordAt, List.getD, h]

theorem wordAt_packWords {n j : Nat} {fs : List (Nat × Filled)} {ig : List Word} (h : j < n) :
    wordAt (packWords n fs ig) j = pack (atWord j fs) (wordAt ig j) := wordAt_map_range _ h

/-- Two lists of `n` words that agree word by word are equal. -/
theorem words_ext {n : Nat} {a b : List Word} (ha : a.length = n) (hb : b.length = n) (h : ∀ j < n, wordAt a j = wordAt b j) :
    a = b := by
  apply List.ext_getElem (by omega)
  intro j h1 h2
  simpa [wordAt, List.getD, h1, h2] using h j (by omega)

theorem clearWords_iff {n : Nat} {fs : List (Nat × Nat × Nat)} {ig : List Word} :
    clearWords n fs ig = true ↔ ig.length = n ∧ ∀ j < n, clearOf (atWord j fs) (wordAt ig j) = true := by
  simp [clearWords]

/-- Words with a word 0 are that word and the rest. -/
theorem cons_of_length {n : Nat} {ws : List Word} (h : ws.length = n) (hn : 0 < n) :
    ∃ rest, ws = wordAt ws 0 :: rest ∧ rest.length + 1 = n := by
  cases ws with
  | nil => simp at h; omega
  | cons w rest => exact ⟨rest, rfl, h⟩

/-- A field of a packed command. -/
theorem bits_packWords {n : Nat} {fs : List (Nat × Filled)} {ig : List Word} (hw : FormatWf n (formatOf fs))
    (hc : clearWords n (formatOf fs) ig = true) {j lo m : Nat} {v : BitVec m} (hm : (j, (⟨(lo, m), v⟩ : Filled)) ∈ fs) :
    bits (wordAt (packWords n fs ig) j) lo m = v := by
  have hj : j < n := hw.1 _ (List.mem_map_of_mem hm)
  rw [wordAt_packWords hj]
  exact bits_packed (by rw [map_fst_atWord]; exact hw.2 j hj) (by rw [map_fst_atWord]; exact (clearWords_iff.1 hc).2 j hj)
    (mem_atWord.2 hm)

/-- A field of a packed command that was filled with a value that fits. -/
theorem fieldOf_packWords {n : Nat} {fs : List (Nat × Filled)} {ig : List Word} (hw : FormatWf n (formatOf fs))
    (hc : clearWords n (formatOf fs) ig = true) {j lo m : Nat} {v : Word} (hm : (j, fill lo m v) ∈ fs) (hf : fitsIn m v = true) :
    fieldOf (wordAt (packWords n fs ig) j) lo m = v :=
  fieldOf_of_bits (bits_packWords hw hc hm) hf

/-- The bits outside the fields of a packed command are the other bits. -/
theorem spareWords_packWords {n : Nat} {fs : List (Nat × Filled)} {ig : List Word} (hc : clearWords n (formatOf fs) ig = true) :
    spareWords n (formatOf fs) (packWords n fs ig) = ig := by
  rw [clearWords_iff] at hc
  refine words_ext (by simp [spareWords]) hc.1 fun j hj => ?_
  rw [spareWords, wordAt_map_range _ hj, wordAt_packWords hj, ← map_fst_atWord]
  exact spare_pack (by rw [map_fst_atWord]; exact hc.2 j hj)

theorem clearWords_spareWords (n : Nat) (fs : List (Nat × Nat × Nat)) (ws : List Word) : clearWords n fs (spareWords n fs ws) = true :=
  clearWords_iff.2 ⟨by simp [spareWords], fun j hj => by rw [spareWords, wordAt_map_range _ hj, clearOf_spare]⟩

/-- Fields that hold what the words have there, packed above the other bits of the words, make the words. -/
theorem packWords_read {n : Nat} {fs : List (Nat × Filled)} {ws : List Word} (hl : ws.length = n)
    (h : ∀ f ∈ fs, f.2.2 = bits (wordAt ws f.1) f.2.1.1 f.2.1.2) : packWords n fs (spareWords n (formatOf fs) ws) = ws := by
  refine words_ext (by simp) hl fun j hj => ?_
  rw [wordAt_packWords hj, spareWords, wordAt_map_range _ hj, ← map_fst_atWord]
  exact pack_read fun f hf => h (j, f) (mem_atWord.1 hf)

/-! ### Codes -/

/-- The value left over by three others is none of them, and the only one. -/
theorem leftOver_spec : ∀ a b c d : BitVec 2, [a, b, c].Nodup → (d = leftOver a b c ↔ d ≠ a ∧ d ≠ b ∧ d ≠ c) := by decide +kernel

theorem nodup_three {α : Type} {a b c : α} (h : [a, b, c].Nodup) : a ≠ b ∧ a ≠ c ∧ b ≠ c := by
  simp only [List.nodup_cons, List.mem_cons, List.not_mem_nil, or_false, not_or] at h; exact ⟨h.1.1, h.1.2, h.2.1⟩

variable {l : Layout}

theorem blockModeOf_code (h : l.CodesWf) {m : BlockMode} (hm : m.fits l = true) : blockModeOf l (blockModeCode l m) = m := by
  obtain ⟨h1, h2, h3⟩ := nodup_three h.2.2.2.1
  cases m with
  | ecb | cbc | ctr => simp [blockModeOf, blockModeCode, Ne.symm h1, Ne.symm h2, Ne.symm h3]
  | reserved v =>
    simp only [BlockMode.fits, Bool.and_eq_true, bne_iff_ne] at hm
    simp [blockModeOf, blockModeCode, hm]

@[simp] theorem blockModeCode_of (l : Layout) (v : Word) : blockModeCode l (blockModeOf l v) = v := by
  unfold blockModeOf
  repeat' split
  all_goals first | exact Eq.symm ‹_› | rfl

/-- The mode that is read from a field fits it. -/
theorem fits_blockModeOf {v : Word} (h : fitsIn l.keyModeBits v = true) : (blockModeOf l v).fits l = true := by
  unfold blockModeOf
  repeat' split
  all_goals simp_all [BlockMode.fits]

/-- The value of a mode that fits, fits. -/
theorem fitsIn_blockModeCode (h : l.CodesWf) {m : BlockMode} (hm : m.fits l = true) : fitsIn l.keyModeBits (blockModeCode l m) = true := by
  have hc := h.2.2.2.2
  simp only [List.all_cons, List.all_nil, Bool.and_true, Bool.and_eq_true] at hc
  cases m with
  | ecb => exact hc.1
  | cbc => exact hc.2.1
  | ctr => exact hc.2.2
  | reserved v => simp only [BlockMode.fits, Bool.and_eq_true] at hm; exact hm.1.1.1

theorem keyDescriptor_bits (h : l.CodesWf) (len : KeyLen) : keyDescriptor l (keyLenBits l len) = .key len := by
  obtain ⟨h1, h2, h3⟩ := nodup_three h.2.2.1
  cases len <;> simp [keyDescriptor, keyLenBits, Ne.symm h1, Ne.symm h2, Ne.symm h3]

theorem keyDescriptor_reserved (h : l.CodesWf) : keyDescriptor l (reservedKeyLen l) = .discarded := by
  obtain ⟨r1, r2, r3⟩ := (leftOver_spec _ _ _ _ h.2.2.1).1 rfl
  rw [keyDescriptor, reservedKeyLen, if_neg r1, if_neg r2, if_neg r3]

/-- What the length class of a KEY can be, by its bits (30_encoding R94, R106). -/
theorem keyDescriptor_cases (l : Layout) (c : BitVec 2) :
    (∃ len, keyDescriptor l c = .key len ∧ keyLenBits l len = c) ∨
    (keyDescriptor l c = .discarded ∧ c ≠ l.keyLen128 ∧ c ≠ l.keyLen192 ∧ c ≠ l.keyLen256) := by
  unfold keyDescriptor
  split
  · rename_i e; exact .inl ⟨.k128, rfl, e.symm⟩
  · rename_i h1
    split
    · rename_i e; exact .inl ⟨.k192, rfl, e.symm⟩
    · rename_i h2
      split
      · rename_i e; exact .inl ⟨.k256, rfl, e.symm⟩
      · rename_i h3; exact .inr ⟨rfl, h1, h2, h3⟩

/-- A length class that is none of the three is the reserved one. -/
theorem reservedKeyLen_of (h : l.CodesWf) {c : BitVec 2} (hc : keyDescriptor l c = .discarded) : c = reservedKeyLen l := by
  rcases keyDescriptor_cases l c with ⟨len, h', -⟩ | ⟨-, hn⟩
  · rw [h'] at hc; cases hc
  · exact (leftOver_spec _ _ _ _ h.2.2.1).2 hn

/-! ### The descriptor -/

variable {k : Cfg}

/-- What a word is at a boundary, by its opcode (30_encoding R91, R92). -/
theorem descriptor_cases (k : Cfg) (w : Word) :
    (opcode k w = k.layout.opKey ∧ descriptor k w = keyDescriptor k.layout (bits w k.layout.keyLen 2)) ∨
    (opcode k w = k.layout.opIv ∧ descriptor k w = .iv) ∨ (opcode k w = k.layout.opData ∧ descriptor k w = .data) ∨
    (opcode k w = k.layout.opStoreIv ∧ descriptor k w = .storeIv) ∨ (opcode k w = k.layout.opFlag ∧ descriptor k w = .flag) ∨
    (k.layout.unassigned (opcode k w) = true ∧ descriptor k w = .discarded) := by
  unfold descriptor Layout.unassigned
  by_cases h1 : opcode k w = k.layout.opKey
  · simp [h1]
  · by_cases h2 : opcode k w = k.layout.opIv
    · exact .inr (.inl ⟨h2, by rw [if_neg h1, if_pos h2]⟩)
    · by_cases h3 : opcode k w = k.layout.opData
      · exact .inr (.inr (.inl ⟨h3, by rw [if_neg h1, if_neg h2, if_pos h3]⟩))
      · by_cases h4 : opcode k w = k.layout.opStoreIv
        · exact .inr (.inr (.inr (.inl ⟨h4, by rw [if_neg h1, if_neg h2, if_neg h3, if_pos h4]⟩)))
        · by_cases h5 : opcode k w = k.layout.opFlag
          · exact .inr (.inr (.inr (.inr (.inl ⟨h5, by rw [if_neg h1, if_neg h2, if_neg h3, if_neg h4, if_pos h5]⟩))))
          · simp [h1, h2, h3, h4, h5]

/-- The five opcodes differ. -/
theorem opcodes_ne (h : l.CodesWf) :
    (l.opKey ≠ l.opIv ∧ l.opKey ≠ l.opData ∧ l.opKey ≠ l.opStoreIv ∧ l.opKey ≠ l.opFlag) ∧
    (l.opIv ≠ l.opData ∧ l.opIv ≠ l.opStoreIv ∧ l.opIv ≠ l.opFlag) ∧ (l.opData ≠ l.opStoreIv ∧ l.opData ≠ l.opFlag) ∧
    l.opStoreIv ≠ l.opFlag := by
  have hn := h.1
  simp only [List.nodup_cons, List.mem_cons, List.not_mem_nil, or_false, not_or] at hn
  exact ⟨hn.1, hn.2.1, hn.2.2.1, hn.2.2.2.1⟩

/-- The descriptor of a word with the opcode of a command. -/
theorem descriptor_of_opcode (h : k.layout.CodesWf) (w : Word) :
    (opcode k w = k.layout.opKey → descriptor k w = keyDescriptor k.layout (bits w k.layout.keyLen 2)) ∧
    (opcode k w = k.layout.opIv → descriptor k w = .iv) ∧ (opcode k w = k.layout.opData → descriptor k w = .data) ∧
    (opcode k w = k.layout.opStoreIv → descriptor k w = .storeIv) ∧ (opcode k w = k.layout.opFlag → descriptor k w = .flag) ∧
    (k.layout.unassigned (opcode k w) = true → descriptor k w = .discarded) := by
  obtain ⟨⟨a1, a2, a3, a4⟩, ⟨b1, b2, b3⟩, ⟨c1, c2⟩, d⟩ := opcodes_ne h
  refine ⟨?_, ?_, ?_, ?_, ?_, ?_⟩ <;> intro e
  · rw [descriptor, if_pos e]
  · rw [descriptor, e, if_neg a1.symm, if_pos rfl]
  · rw [descriptor, e, if_neg a2.symm, if_neg b1.symm, if_pos rfl]
  · rw [descriptor, e, if_neg a3.symm, if_neg b2.symm, if_neg c1.symm, if_pos rfl]
  · rw [descriptor, e, if_neg a4.symm, if_neg b3.symm, if_neg c2.symm, if_neg d.symm, if_pos rfl]
  · simp only [Layout.unassigned, Bool.and_eq_true, bne_iff_ne] at e
    simp [descriptor, e]

/-- The opcode of a word, and for KEY its length class, by its descriptor. -/
theorem opcode_of_descriptor (k : Cfg) (w : Word) :
    (∀ len, descriptor k w = .key len → opcode k w = k.layout.opKey ∧ keyLenBits k.layout len = bits w k.layout.keyLen 2) ∧
    (descriptor k w = .iv → opcode k w = k.layout.opIv) ∧ (descriptor k w = .data → opcode k w = k.layout.opData) ∧
    (descriptor k w = .storeIv → opcode k w = k.layout.opStoreIv) ∧ (descriptor k w = .flag → opcode k w = k.layout.opFlag) ∧
    (descriptor k w = .discarded →
      (opcode k w = k.layout.opKey ∧ keyDescriptor k.layout (bits w k.layout.keyLen 2) = .discarded) ∨
      k.layout.unassigned (opcode k w) = true) := by
  rcases descriptor_cases k w with ⟨ho, h⟩ | ⟨ho, h⟩ | ⟨ho, h⟩ | ⟨ho, h⟩ | ⟨ho, h⟩ | ⟨ho, h⟩
  · rw [h, ho]
    rcases keyDescriptor_cases k.layout (bits w k.layout.keyLen 2) with ⟨len, h', hb⟩ | ⟨h', -⟩
    · rw [h']; simp [← hb]
    · rw [h']; simp
  all_goals rw [h]; simp [ho]

/-- The opcode fills its field with its bits. -/
theorem setWidth_opcode {w op : Word} (h : opcode k w = op) (hw : FieldsWf [k.opcodeField]) :
    op.setWidth k.layout.opcodeBits = bits w k.layout.opcode k.layout.opcodeBits := by
  have h32 : k.layout.opcode + k.layout.opcodeBits ≤ 32 := (fieldsWf_iff.1 hw).1 k.opcodeField (List.mem_singleton_self _)
  rw [← h, opcode, setWidth_fieldOf (by omega)]

/-- The opcodes of the commands fit their field. -/
theorem opcodes_fit (h : k.layout.CodesWf) :
    fitsIn k.layout.opcodeBits k.layout.opKey = true ∧ fitsIn k.layout.opcodeBits k.layout.opIv = true ∧
    fitsIn k.layout.opcodeBits k.layout.opData = true ∧ fitsIn k.layout.opcodeBits k.layout.opStoreIv = true ∧
    fitsIn k.layout.opcodeBits k.layout.opFlag = true := by
  simpa using h.2.1

/-- The opcode field lies in a word, and does not overlap the length class of a KEY. -/
theorem keyReserved_wf (hk : k.LayoutWf) : FieldsWf k.keyReservedFields := by
  have h := hk.2.1
  simp only [fieldsWf_iff, Cfg.keyFields, Cfg.keyReservedFields, List.forall_mem_cons, List.pairwise_cons] at h ⊢
  simp only [List.not_mem_nil, false_implies, implies_true, and_true, List.Pairwise.nil]
  exact ⟨⟨h.1.1, h.1.2.2.2.1⟩, h.2.1.2.2.1⟩

theorem opcode_wf (hk : k.LayoutWf) : FieldsWf [k.opcodeField] :=
  fieldsWf_iff.2 ⟨fun f hf => (fieldsWf_iff.1 hk.2.1).1 f (by rw [List.mem_singleton] at hf; simp [hf, Cfg.keyFields]),
    List.pairwise_singleton _ _⟩

/-- DATA and STORE_IV have a word 0. -/
theorem formats_pos (hk : k.LayoutWf) : 0 < k.layout.dataWords ∧ 0 < k.layout.storeIvWords :=
  ⟨hk.2.2.2.2.1.1 (0, k.opcodeField) (List.mem_cons_self ..), hk.2.2.2.2.2.1 (0, k.opcodeField) (List.mem_cons_self ..)⟩

/-! ### The descriptors the encoder writes -/

theorem descriptor_keyWord0 (hk : k.LayoutWf) (len : KeyLen) {d : KeyDesc} (hd : clearOf k.keyFields d.ignored = true) :
    descriptor k (keyWord0 k len d) = .key len := by
  have ho : opcode k (keyWord0 k len d) = k.layout.opKey :=
    fieldOf_packed (fs := keyFilled k len d) hk.2.1 hd (List.mem_cons_self ..) (opcodes_fit hk.1).1
  have hl : bits (keyWord0 k len d) k.layout.keyLen 2 = keyLenBits k.layout len :=
    bits_packed (fs := keyFilled k len d) hk.2.1 hd (by simp [keyFilled])
  rw [(descriptor_of_opcode hk.1 _).1 ho, hl, keyDescriptor_bits hk.1]

theorem descriptor_keyReservedWord0 (hk : k.LayoutWf) {lo hi : BitVec 16} (hd : clearOf k.keyReservedFields (hi ++ lo) = true) :
    descriptor k (keyReservedWord0 k lo hi) = .discarded ∧
    discardedRow k (keyReservedWord0 k lo hi) = some (.keyReserved lo hi) := by
  have ho : opcode k (keyReservedWord0 k lo hi) = k.layout.opKey :=
    fieldOf_packed (fs := keyReservedFilled k) (keyReserved_wf hk) hd (List.mem_cons_self ..) (opcodes_fit hk.1).1
  have hl : bits (keyReservedWord0 k lo hi) k.layout.keyLen 2 = reservedKeyLen k.layout :=
    bits_packed (fs := keyReservedFilled k) (keyReserved_wf hk) hd (by simp [keyReservedFilled])
  have hs : spare k.keyReservedFields (keyReservedWord0 k lo hi) = hi ++ lo := spare_pack (fs := keyReservedFilled k) hd
  constructor
  · rw [(descriptor_of_opcode hk.1 _).1 ho, hl, keyDescriptor_reserved hk.1]
  · rw [discardedRow, ho, if_pos rfl, hs, bits, bits, extract_append_low _ _ _ _ (by decide), extract_append_high _ _ _ _ (by decide)]
    simp

theorem descriptor_ivWord0 (hk : k.LayoutWf) {d : IvDesc} (hd : clearOf k.ivFields d.ignored = true) :
    descriptor k (ivWord0 k d) = .iv :=
  (descriptor_of_opcode hk.1 _).2.1
    (fieldOf_packed (fs := ivFilled k d) hk.2.2.1 hd (List.mem_cons_self ..) (opcodes_fit hk.1).2.1)

theorem descriptor_flagWord0 (hk : k.LayoutWf) {d : FlagFields} (hd : clearOf k.flagFields d.ignored = true) :
    descriptor k (flagWord0 k d) = .flag :=
  (descriptor_of_opcode hk.1 _).2.2.2.2.1
    (fieldOf_packed (fs := flagFilled k d) hk.2.2.2.1 hd (List.mem_cons_self ..) (opcodes_fit hk.1).2.2.2.2)

theorem descriptor_encodeData (hk : k.LayoutWf) {d : DataFields}
    (hd : clearWords k.layout.dataWords k.dataFormat d.ignored = true) : descriptor k (wordAt (encodeData k d) 0) = .data :=
  (descriptor_of_opcode hk.1 _).2.2.1
    (fieldOf_packWords (fs := dataFilled k d) hk.2.2.2.2.1 hd (List.mem_cons_self ..) (opcodes_fit hk.1).2.2.1)

theorem descriptor_encodeStoreIv (hk : k.LayoutWf) {d : StoreIvFields}
    (hd : clearWords k.layout.storeIvWords k.storeIvFormat d.ignored = true) : descriptor k (wordAt (encodeStoreIv k d) 0) = .storeIv :=
  (descriptor_of_opcode hk.1 _).2.2.2.1
    (fieldOf_packWords (fs := storeIvFilled k d) hk.2.2.2.2.2 hd (List.mem_cons_self ..) (opcodes_fit hk.1).2.2.2.1)

theorem descriptor_unrecWord0 (hk : k.LayoutWf) {op ig : Word} (h : unrecWf k op ig = true) :
    descriptor k (unrecWord0 k op ig) = .discarded ∧ discardedRow k (unrecWord0 k op ig) = unrecognisedRow op ig := by
  simp only [unrecWf, Bool.and_eq_true] at h
  have ho : opcode k (unrecWord0 k op ig) = op :=
    fieldOf_packed (fs := [k.opcodeIs op]) (opcode_wf hk) h.1.2 (List.mem_cons_self ..) h.1.1
  refine ⟨(descriptor_of_opcode hk.1 _).2.2.2.2.2 (by rw [ho]; exact h.2), ?_⟩
  have hn : op ≠ k.layout.opKey := by
    have := h.2; simp only [Layout.unassigned, Bool.and_eq_true, bne_iff_ne] at this; exact this.1.1.1.1
  rw [discardedRow, ho, if_neg hn]
  exact congrArg _ (spare_pack (fs := [k.opcodeIs op]) h.1.2)

/-! ### Word counts -/

/-- No command has more than nine words at the default (30_encoding R92, 10_state R31). -/
theorem cmdWords_le_nine (w : Word) : cmdWords Cfg.default w ≤ 9 := by
  unfold cmdWords
  cases descriptor Cfg.default w with
  | key len => cases len <;> simp [Descriptor.words, KeyLen.words]
  | iv | data | storeIv | flag | discarded => simp [Descriptor.words, Cfg.default, Layout.default]

/-- A word that is no command has count 0. -/
theorem cmdWords_of_discarded {w : Word} (h : descriptor k w = .discarded) : cmdWords k w = 0 := by
  rw [cmdWords, h]; rfl

/-- Under a layout that makes sense no other word has. -/
theorem cmdWords_eq_zero (hk : k.LayoutWf) {w : Word} : cmdWords k w = 0 ↔ descriptor k w = .discarded := by
  refine ⟨fun h => ?_, cmdWords_of_discarded⟩
  have := formats_pos hk
  unfold cmdWords at h
  cases hd : descriptor k w with
  | key len => rw [hd] at h; simp [Descriptor.words] at h
  | iv | data | storeIv | flag => rw [hd] at h; simp [Descriptor.words] at h <;> omega
  | discarded => rfl

/-- What reading words by a row can answer. -/
theorem decodeAs_cases {d : Descriptor} {w : Word} {rest : List Word} {i : Instr} (h : decodeAs k d w rest = some i) :
    (d = .key .k128 ∧ rest.length = 4 ∧ i = .key128 (keyDescOf k w) rest) ∨
    (d = .key .k192 ∧ rest.length = 6 ∧ i = .key192 (keyDescOf k w) rest) ∨
    (d = .key .k256 ∧ rest.length = 8 ∧ i = .key256 (keyDescOf k w) rest) ∨
    (d = .iv ∧ rest.length = 4 ∧ i = .iv (ivDescOf k w) rest) ∨
    (d = .data ∧ rest.length + 1 = max 1 k.layout.dataWords ∧ i = .data (dataFieldsOf k (w :: rest))) ∨
    (d = .storeIv ∧ rest.length + 1 = max 1 k.layout.storeIvWords ∧ i = .storeIv (storeIvFieldsOf k (w :: rest))) ∨
    (d = .flag ∧ rest = [] ∧ i = .flag (flagFieldsOf k w)) ∨
    (d = .discarded ∧ rest = [] ∧ discardedRow k w = some i) := by
  unfold decodeAs at h
  split at h
  · rename_i hl
    match d, h with
    | .key .k128, h | .key .k192, h | .key .k256, h | .iv, h | .data, h | .storeIv, h | .flag, h =>
      injection h with h
      simp only [Descriptor.words, KeyLen.words] at hl
      simp [h.symm]
      first | omega | exact List.eq_nil_of_length_eq_zero (by omega)
    | .discarded, h =>
      simp only [Descriptor.words] at hl
      simp [show discardedRow k w = some i from h]
      exact List.eq_nil_of_length_eq_zero (by omega)
  · cases h

/-- As many words as a descriptor says are read by its row. -/
theorem decodeCommand_of_descriptor {d : Descriptor} {w : Word} {rest : List Word} (h : descriptor k w = d)
    (hl : rest.length + 1 = max 1 (d.words k.layout)) : decodeCommand k (w :: rest) = commandOf k d w rest := by
  rw [decodeCommand, h, decodeAs, if_pos hl]

/-- Words that decode as a command have the descriptor's count. -/
theorem decodeCommand_length {w : Word} {rest : List Word} {i : Instr} (h : decodeCommand k (w :: rest) = some i)
    (hw : cmdWords k w ≠ 0) : cmdWords k w = rest.length + 1 := by
  have h : decodeAs k (descriptor k w) w rest = some i := h
  unfold decodeAs at h
  split at h
  · rename_i hl; unfold cmdWords at hw ⊢; omega
  · cases h

/-- A command the framer makes decodes. -/
theorem decodeCommand_isSome {w : Word} {rest : List Word} (h : cmdWords k w = rest.length + 1) :
    ∃ i, decodeCommand k (w :: rest) = some i := by
  unfold cmdWords at h
  rw [decodeCommand, decodeAs, if_pos (by omega)]
  match descriptor k w, h with
  | .key .k128, _ | .key .k192, _ | .key .k256, _ | .iv, _ | .data, _ | .storeIv, _ | .flag, _ => exact ⟨_, rfl⟩
  | .discarded, h => simp [Descriptor.words] at h

/-- The same, of a command as the queue holds it. -/
theorem decodeCommand_of_formed {c : Machine.Command} (h : CommandFormed k c) : ∃ i, decodeCommand k c.words = some i := by
  obtain ⟨ws⟩ := c
  cases ws with
  | nil => exact absurd h id
  | cons w rest => exact decodeCommand_isSome h

/-- The fields of a KEY that was decoded fit (30_encoding R93). -/
theorem keyDescOf_fits (k : Cfg) (w : Word) : (keyDescOf k w).fits k = true := by
  simp [KeyDesc.fits, keyDescOf, fits_blockModeOf]

end Sys2Proof
end

