-- ==== Sys2Proof/Laws/Memory.lean ====
section
/-! SUPPORT. Memory: read after write, other addresses untouched, and the canonical form kept by every operation. -/

namespace Sys2Proof.Machine

@[simp] theorem Memory.read_nil (a : Nat) : Memory.read [] a = Memory.unlisted := rfl

/-- Below every listed address nothing is listed. -/
theorem Memory.read_eq_unlisted_of_lt {m : Memory} {a : Nat} (h : ∀ c ∈ m, a < c.1) : m.read a = Memory.unlisted := by
  induction m with
  | nil => rfl
  | cons c m ih =>
    obtain ⟨k, v⟩ := c
    have hk : a < k := h (k, v) (by simp)
    simp [Memory.read, Nat.ne_of_gt hk, ih fun c hc => h c (by simp [hc])]

/-- Reading an entry put in front of addresses above it. -/
theorem Memory.read_cons_same {m : Memory} {a : Nat} (b : Byte) (h : ∀ c ∈ m, a < c.1) : (Memory.cons a b m).read a = b := by
  unfold Memory.cons
  split
  · rename_i hb; rw [hb]; exact Memory.read_eq_unlisted_of_lt h
  · simp [Memory.read]

theorem Memory.read_cons_other {a a' : Nat} (b : Byte) (m : Memory) (h : a' ≠ a) : (Memory.cons a b m).read a' = m.read a' := by
  unfold Memory.cons
  split
  · rfl
  · simp [Memory.read, Ne.symm h]

/-- A write leaves every other address alone. -/
theorem Memory.read_write_other (m : Memory) {a a' : Nat} (b : Byte) (h : a' ≠ a) : (m.write a b).read a' = m.read a' := by
  induction m with
  | nil => simp [Memory.write, Memory.read_cons_other b [] h]
  | cons c m ih =>
    obtain ⟨k, v⟩ := c
    simp only [Memory.write]
    split
    · rw [Memory.read_cons_other b _ h]
    · split
      · rename_i hk; subst hk; rw [Memory.read_cons_other b _ h]; simp [Memory.read, Ne.symm h]
      · simp only [Memory.read, ih]

/-- A read after a write to the same address gives the value written. -/
theorem Memory.read_write_same {m : Memory} (hm : m.wf) (a : Nat) (b : Byte) : (m.write a b).read a = b := by
  induction m with
  | nil => exact Memory.read_cons_same b (by simp)
  | cons c m ih =>
    obtain ⟨k, v⟩ := c
    obtain ⟨hs, hn⟩ := hm
    rw [List.pairwise_cons] at hs
    have ih' := ih ⟨hs.2, fun c hc => hn c (by simp [hc])⟩
    simp only [Memory.write]
    split
    · rename_i hlt
      refine Memory.read_cons_same b fun c hc => ?_
      rcases List.mem_cons.1 hc with rfl | hc
      · exact hlt
      · exact Nat.lt_trans hlt (hs.1 c hc)
    · split
      · rename_i hk; subst hk; exact Memory.read_cons_same b fun c hc => hs.1 c hc
      · rename_i hk; simp [Memory.read, Ne.symm hk, ih']

/-- The entries of a memory after a write are old ones or the one written. -/
theorem Memory.mem_write {m : Memory} {a : Nat} {b : Byte} {c : Host.Cell} (h : c ∈ m.write a b) : c ∈ m ∨ (c = (a, b) ∧ b ≠ Memory.unlisted) := by
  have hcons : ∀ m : Memory, c ∈ Memory.cons a b m → c ∈ m ∨ (c = (a, b) ∧ b ≠ Memory.unlisted) := by
    intro m hc
    unfold Memory.cons at hc
    split at hc
    · exact .inl hc
    · rename_i hb
      rcases List.mem_cons.1 hc with rfl | hc
      · exact .inr ⟨rfl, hb⟩
      · exact .inl hc
  induction m with
  | nil => exact hcons [] h
  | cons d m ih =>
    obtain ⟨k, v⟩ := d
    simp only [Memory.write] at h
    split at h
    · exact hcons _ h
    · split at h
      · rcases hcons _ h with h | h
        · exact .inl (by simp [h])
        · exact .inr h
      · rcases List.mem_cons.1 h with rfl | h
        · exact .inl (by simp)
        · rcases ih h with h | h
          · exact .inl (by simp [h])
          · exact .inr h

/-- An entry in front keeps the canonical form. -/
theorem Memory.wf_cons {m : Memory} {a : Nat} {b : Byte} (hm : m.wf) (h : ∀ c ∈ m, a < c.1) : (Memory.cons a b m).wf := by
  unfold Memory.cons
  split
  · exact hm
  · rename_i hb
    refine ⟨List.pairwise_cons.2 ⟨fun c hc => h c hc, hm.1⟩, fun c hc => ?_⟩
    rcases List.mem_cons.1 hc with rfl | hc
    · exact hb
    · exact hm.2 c hc

/-- A write keeps the canonical form. -/
theorem Memory.wf_write {m : Memory} (hm : m.wf) (a : Nat) (b : Byte) : (m.write a b).wf := by
  induction m with
  | nil => exact Memory.wf_cons hm (by simp)
  | cons d m ih =>
    obtain ⟨k, v⟩ := d
    obtain ⟨hs, hn⟩ := hm
    have hs' := List.pairwise_cons.1 hs
    have hm' : Memory.wf m := ⟨hs'.2, fun c hc => hn c (by simp [hc])⟩
    simp only [Memory.write]
    split
    · rename_i hlt
      refine Memory.wf_cons ⟨hs, hn⟩ fun c hc => ?_
      rcases List.mem_cons.1 hc with rfl | hc
      · exact hlt
      · exact Nat.lt_trans hlt (hs'.1 c hc)
    · split
      · rename_i hk; subst hk; exact Memory.wf_cons hm' fun c hc => hs'.1 c hc
      · rename_i hlt hk
        refine ⟨List.pairwise_cons.2 ⟨fun c hc => ?_, (ih hm').1⟩, fun c hc => ?_⟩
        · rcases Memory.mem_write hc with hc | ⟨rfl, -⟩
          · exact hs'.1 c hc
          · exact Nat.lt_of_le_of_ne (Nat.le_of_not_lt hlt) (Ne.symm hk)
        · rcases List.mem_cons.1 hc with rfl | hc
          · exact hn (k, v) (by simp)
          · exact (ih hm').2 c hc

@[simp] theorem Memory.writeBytes_nil (m : Memory) (addr : Nat) : m.writeBytes addr [] = m := rfl

/-- A string of writes keeps the canonical form. -/
theorem Memory.wf_writeBytes {m : Memory} (hm : m.wf) (addr : Nat) (bs : List Byte) : (m.writeBytes addr bs).wf := by
  induction bs generalizing m addr with
  | nil => exact hm
  | cons b bs ih => exact ih (Memory.wf_write hm addr b) (addr + 1)

/-- A string of writes leaves every address outside its range alone. -/
theorem Memory.read_writeBytes_outside (m : Memory) (addr : Nat) (bs : List Byte) {a : Nat} (h : a < addr ∨ addr + bs.length ≤ a) :
    (m.writeBytes addr bs).read a = m.read a := by
  induction bs generalizing m addr with
  | nil => rfl
  | cons b bs ih =>
    have hlen : (b :: bs).length = bs.length + 1 := rfl
    simp only [Memory.writeBytes]
    rw [ih (m.write addr b) (addr + 1) (by omega), Memory.read_write_other m b (by omega)]

/-- A string of writes stores byte `i` at `addr + i`. -/
theorem Memory.read_writeBytes_inside {m : Memory} (hm : m.wf) (addr : Nat) (bs : List Byte) {i : Nat} (h : i < bs.length) :
    (m.writeBytes addr bs).read (addr + i) = bs[i] := by
  induction bs generalizing m addr i with
  | nil => exact absurd h (by simp)
  | cons b bs ih =>
    simp only [Memory.writeBytes]
    cases i with
    | zero => rw [Memory.read_writeBytes_outside _ _ _ (.inl (by omega)), Nat.add_zero, Memory.read_write_same hm]; rfl
    | succ j =>
      have hj : j < bs.length := by simpa using h
      have := ih (Memory.wf_write hm addr b) (addr + 1) hj
      rw [show addr + (j + 1) = addr + 1 + j by omega, this]; rfl

@[simp] theorem Memory.length_readBytes (m : Memory) (addr n : Nat) : (m.readBytes addr n).length = n := by
  simp [Memory.readBytes]

/-- Byte `i` of a read is the byte at `addr + i`. -/
theorem Memory.getElem_readBytes (m : Memory) (addr n i : Nat) (h : i < (m.readBytes addr n).length) :
    (m.readBytes addr n)[i] = m.read (addr + i) := by
  simp [Memory.readBytes]

/-- What was written is read back. -/
theorem Memory.readBytes_writeBytes {m : Memory} (hm : m.wf) (addr : Nat) (bs : List Byte) :
    (m.writeBytes addr bs).readBytes addr bs.length = bs := by
  refine List.ext_getElem (by simp) fun i h₁ h₂ => ?_
  rw [Memory.getElem_readBytes, Memory.read_writeBytes_inside hm addr bs h₂]

end Sys2Proof.Machine
end

