-- ==== Sys2Proof/Laws/State.lean ====
section
/-! SUPPORT. One lemma per field and named update of the state, true by rfl, so that no proof unfolds a record update. -/

namespace Sys2Proof.Machine

variable (s : State)

/-! ### emit -/

@[simp] theorem emit_cfg (o : Obs) : (emit o s).cfg = s.cfg := rfl
@[simp] theorem emit_ctxs (o : Obs) : (emit o s).ctxs = s.ctxs := rfl
@[simp] theorem emit_ivs (o : Obs) : (emit o s).ivs = s.ivs := rfl
@[simp] theorem emit_intStatus (o : Obs) : (emit o s).intStatus = s.intStatus := rfl
@[simp] theorem emit_intEnable (o : Obs) : (emit o s).intEnable = s.intEnable := rfl
@[simp] theorem emit_watermarks (o : Obs) : (emit o s).watermarks = s.watermarks := rfl
@[simp] theorem emit_flagCommand (o : Obs) : (emit o s).flagCommand = s.flagCommand := rfl
@[simp] theorem emit_depth (o : Obs) : (emit o s).depth = s.depth := rfl
@[simp] theorem emit_overflow (o : Obs) : (emit o s).overflow = s.overflow := rfl
@[simp] theorem emit_framer (o : Obs) : (emit o s).framer = s.framer := rfl
@[simp] theorem emit_queue (o : Obs) : (emit o s).queue = s.queue := rfl
@[simp] theorem emit_running (o : Obs) : (emit o s).running = s.running := rfl
@[simp] theorem emit_stopReq (o : Obs) : (emit o s).stopReq = s.stopReq := rfl
@[simp] theorem emit_inflight (o : Obs) : (emit o s).inflight = s.inflight := rfl
@[simp] theorem emit_pending (o : Obs) : (emit o s).pending = s.pending := rfl
@[simp] theorem emit_irq (o : Obs) : (emit o s).irq = s.irq := rfl
@[simp] theorem emit_mem (o : Obs) : (emit o s).mem = s.mem := rfl
@[simp] theorem emit_events (o : Obs) : (emit o s).events = s.events := rfl
@[simp] theorem emit_dmaAnswers (o : Obs) : (emit o s).dmaAnswers = s.dmaAnswers := rfl
@[simp] theorem emit_freeCount (o : Obs) : (emit o s).freeCount = s.freeCount := rfl
@[simp] theorem emit_trace (o : Obs) : (emit o s).trace = s.trace ++ [o] := rfl

/-! ### irqUpdate -/

@[simp] theorem irqUpdate_cfg : (irqUpdate s).cfg = s.cfg := rfl
@[simp] theorem irqUpdate_ctxs : (irqUpdate s).ctxs = s.ctxs := rfl
@[simp] theorem irqUpdate_ivs : (irqUpdate s).ivs = s.ivs := rfl
@[simp] theorem irqUpdate_intStatus : (irqUpdate s).intStatus = s.intStatus := rfl
@[simp] theorem irqUpdate_intEnable : (irqUpdate s).intEnable = s.intEnable := rfl
@[simp] theorem irqUpdate_watermarks : (irqUpdate s).watermarks = s.watermarks := rfl
@[simp] theorem irqUpdate_flagCommand : (irqUpdate s).flagCommand = s.flagCommand := rfl
@[simp] theorem irqUpdate_depth : (irqUpdate s).depth = s.depth := rfl
@[simp] theorem irqUpdate_overflow : (irqUpdate s).overflow = s.overflow := rfl
@[simp] theorem irqUpdate_framer : (irqUpdate s).framer = s.framer := rfl
@[simp] theorem irqUpdate_queue : (irqUpdate s).queue = s.queue := rfl
@[simp] theorem irqUpdate_running : (irqUpdate s).running = s.running := rfl
@[simp] theorem irqUpdate_stopReq : (irqUpdate s).stopReq = s.stopReq := rfl
@[simp] theorem irqUpdate_inflight : (irqUpdate s).inflight = s.inflight := rfl
@[simp] theorem irqUpdate_pending : (irqUpdate s).pending = s.pending := rfl
@[simp] theorem irqUpdate_irq : (irqUpdate s).irq = irqLevel s.intStatus s.intEnable := rfl
@[simp] theorem irqUpdate_mem : (irqUpdate s).mem = s.mem := rfl
@[simp] theorem irqUpdate_events : (irqUpdate s).events = s.events := rfl
@[simp] theorem irqUpdate_dmaAnswers : (irqUpdate s).dmaAnswers = s.dmaAnswers := rfl
@[simp] theorem irqUpdate_freeCount : (irqUpdate s).freeCount = s.freeCount := rfl
@[simp] theorem irqUpdate_trace : (irqUpdate s).trace = s.trace ++ irqEdge s.irq (irqLevel s.intStatus s.intEnable) := rfl

/-! ### raise -/

@[simp] theorem raise_cfg (c : Condition) : (raise c s).cfg = s.cfg := rfl
@[simp] theorem raise_ctxs (c : Condition) : (raise c s).ctxs = s.ctxs := rfl
@[simp] theorem raise_ivs (c : Condition) : (raise c s).ivs = s.ivs := rfl
@[simp] theorem raise_intStatus (c : Condition) : (raise c s).intStatus = s.intStatus ||| c.mask s.cfg := rfl
@[simp] theorem raise_intEnable (c : Condition) : (raise c s).intEnable = s.intEnable := rfl
@[simp] theorem raise_watermarks (c : Condition) : (raise c s).watermarks = s.watermarks := rfl
@[simp] theorem raise_flagCommand (c : Condition) : (raise c s).flagCommand = s.flagCommand := rfl
@[simp] theorem raise_depth (c : Condition) : (raise c s).depth = s.depth := rfl
@[simp] theorem raise_overflow (c : Condition) : (raise c s).overflow = s.overflow := rfl
@[simp] theorem raise_framer (c : Condition) : (raise c s).framer = s.framer := rfl
@[simp] theorem raise_queue (c : Condition) : (raise c s).queue = s.queue := rfl
@[simp] theorem raise_running (c : Condition) : (raise c s).running = s.running := rfl
@[simp] theorem raise_stopReq (c : Condition) : (raise c s).stopReq = s.stopReq := rfl
@[simp] theorem raise_inflight (c : Condition) : (raise c s).inflight = s.inflight := rfl
@[simp] theorem raise_pending (c : Condition) : (raise c s).pending = s.pending := rfl
@[simp] theorem raise_irq (c : Condition) : (raise c s).irq = irqLevel (s.intStatus ||| c.mask s.cfg) s.intEnable := rfl
@[simp] theorem raise_mem (c : Condition) : (raise c s).mem = s.mem := rfl
@[simp] theorem raise_events (c : Condition) : (raise c s).events = s.events := rfl
@[simp] theorem raise_dmaAnswers (c : Condition) : (raise c s).dmaAnswers = s.dmaAnswers := rfl
@[simp] theorem raise_freeCount (c : Condition) : (raise c s).freeCount = s.freeCount := rfl
@[simp] theorem raise_trace (c : Condition) : (raise c s).trace = s.trace ++ irqEdge s.irq (irqLevel (s.intStatus ||| c.mask s.cfg) s.intEnable) := rfl

/-! ### clearStatus -/

@[simp] theorem clearStatus_cfg (v : Word) : (clearStatus v s).cfg = s.cfg := rfl
@[simp] theorem clearStatus_ctxs (v : Word) : (clearStatus v s).ctxs = s.ctxs := rfl
@[simp] theorem clearStatus_ivs (v : Word) : (clearStatus v s).ivs = s.ivs := rfl
@[simp] theorem clearStatus_intStatus (v : Word) : (clearStatus v s).intStatus = s.intStatus &&& ~~~v := rfl
@[simp] theorem clearStatus_intEnable (v : Word) : (clearStatus v s).intEnable = s.intEnable := rfl
@[simp] theorem clearStatus_watermarks (v : Word) : (clearStatus v s).watermarks = s.watermarks := rfl
@[simp] theorem clearStatus_flagCommand (v : Word) : (clearStatus v s).flagCommand = s.flagCommand := rfl
@[simp] theorem clearStatus_depth (v : Word) : (clearStatus v s).depth = s.depth := rfl
@[simp] theorem clearStatus_overflow (v : Word) : (clearStatus v s).overflow = s.overflow := rfl
@[simp] theorem clearStatus_framer (v : Word) : (clearStatus v s).framer = s.framer := rfl
@[simp] theorem clearStatus_queue (v : Word) : (clearStatus v s).queue = s.queue := rfl
@[simp] theorem clearStatus_running (v : Word) : (clearStatus v s).running = s.running := rfl
@[simp] theorem clearStatus_stopReq (v : Word) : (clearStatus v s).stopReq = s.stopReq := rfl
@[simp] theorem clearStatus_inflight (v : Word) : (clearStatus v s).inflight = s.inflight := rfl
@[simp] theorem clearStatus_pending (v : Word) : (clearStatus v s).pending = s.pending := rfl
@[simp] theorem clearStatus_irq (v : Word) : (clearStatus v s).irq = irqLevel (s.intStatus &&& ~~~v) s.intEnable := rfl
@[simp] theorem clearStatus_mem (v : Word) : (clearStatus v s).mem = s.mem := rfl
@[simp] theorem clearStatus_events (v : Word) : (clearStatus v s).events = s.events := rfl
@[simp] theorem clearStatus_dmaAnswers (v : Word) : (clearStatus v s).dmaAnswers = s.dmaAnswers := rfl
@[simp] theorem clearStatus_freeCount (v : Word) : (clearStatus v s).freeCount = s.freeCount := rfl
@[simp] theorem clearStatus_trace (v : Word) : (clearStatus v s).trace = s.trace ++ irqEdge s.irq (irqLevel (s.intStatus &&& ~~~v) s.intEnable) := rfl

/-! ### setCtx -/

@[simp] theorem setCtx_cfg (n : Fin 2) (x : Context) : (setCtx n x s).cfg = s.cfg := rfl
@[simp] theorem setCtx_ctxs (n : Fin 2) (x : Context) : (setCtx n x s).ctxs = s.ctxs.set n x := rfl
@[simp] theorem setCtx_ivs (n : Fin 2) (x : Context) : (setCtx n x s).ivs = s.ivs := rfl
@[simp] theorem setCtx_intStatus (n : Fin 2) (x : Context) : (setCtx n x s).intStatus = s.intStatus := rfl
@[simp] theorem setCtx_intEnable (n : Fin 2) (x : Context) : (setCtx n x s).intEnable = s.intEnable := rfl
@[simp] theorem setCtx_watermarks (n : Fin 2) (x : Context) : (setCtx n x s).watermarks = s.watermarks := rfl
@[simp] theorem setCtx_flagCommand (n : Fin 2) (x : Context) : (setCtx n x s).flagCommand = s.flagCommand := rfl
@[simp] theorem setCtx_depth (n : Fin 2) (x : Context) : (setCtx n x s).depth = s.depth := rfl
@[simp] theorem setCtx_overflow (n : Fin 2) (x : Context) : (setCtx n x s).overflow = s.overflow := rfl
@[simp] theorem setCtx_framer (n : Fin 2) (x : Context) : (setCtx n x s).framer = s.framer := rfl
@[simp] theorem setCtx_queue (n : Fin 2) (x : Context) : (setCtx n x s).queue = s.queue := rfl
@[simp] theorem setCtx_running (n : Fin 2) (x : Context) : (setCtx n x s).running = s.running := rfl
@[simp] theorem setCtx_stopReq (n : Fin 2) (x : Context) : (setCtx n x s).stopReq = s.stopReq := rfl
@[simp] theorem setCtx_inflight (n : Fin 2) (x : Context) : (setCtx n x s).inflight = s.inflight := rfl
@[simp] theorem setCtx_pending (n : Fin 2) (x : Context) : (setCtx n x s).pending = s.pending := rfl
@[simp] theorem setCtx_irq (n : Fin 2) (x : Context) : (setCtx n x s).irq = s.irq := rfl
@[simp] theorem setCtx_mem (n : Fin 2) (x : Context) : (setCtx n x s).mem = s.mem := rfl
@[simp] theorem setCtx_events (n : Fin 2) (x : Context) : (setCtx n x s).events = s.events := rfl
@[simp] theorem setCtx_dmaAnswers (n : Fin 2) (x : Context) : (setCtx n x s).dmaAnswers = s.dmaAnswers := rfl
@[simp] theorem setCtx_freeCount (n : Fin 2) (x : Context) : (setCtx n x s).freeCount = s.freeCount := rfl
@[simp] theorem setCtx_trace (n : Fin 2) (x : Context) : (setCtx n x s).trace = s.trace := rfl

/-! ### setIv -/

@[simp] theorem setIv_cfg (k : Fin 4) (x : List Byte) : (setIv k x s).cfg = s.cfg := rfl
@[simp] theorem setIv_ctxs (k : Fin 4) (x : List Byte) : (setIv k x s).ctxs = s.ctxs := rfl
@[simp] theorem setIv_ivs (k : Fin 4) (x : List Byte) : (setIv k x s).ivs = s.ivs.set k x := rfl
@[simp] theorem setIv_intStatus (k : Fin 4) (x : List Byte) : (setIv k x s).intStatus = s.intStatus := rfl
@[simp] theorem setIv_intEnable (k : Fin 4) (x : List Byte) : (setIv k x s).intEnable = s.intEnable := rfl
@[simp] theorem setIv_watermarks (k : Fin 4) (x : List Byte) : (setIv k x s).watermarks = s.watermarks := rfl
@[simp] theorem setIv_flagCommand (k : Fin 4) (x : List Byte) : (setIv k x s).flagCommand = s.flagCommand := rfl
@[simp] theorem setIv_depth (k : Fin 4) (x : List Byte) : (setIv k x s).depth = s.depth := rfl
@[simp] theorem setIv_overflow (k : Fin 4) (x : List Byte) : (setIv k x s).overflow = s.overflow := rfl
@[simp] theorem setIv_framer (k : Fin 4) (x : List Byte) : (setIv k x s).framer = s.framer := rfl
@[simp] theorem setIv_queue (k : Fin 4) (x : List Byte) : (setIv k x s).queue = s.queue := rfl
@[simp] theorem setIv_running (k : Fin 4) (x : List Byte) : (setIv k x s).running = s.running := rfl
@[simp] theorem setIv_stopReq (k : Fin 4) (x : List Byte) : (setIv k x s).stopReq = s.stopReq := rfl
@[simp] theorem setIv_inflight (k : Fin 4) (x : List Byte) : (setIv k x s).inflight = s.inflight := rfl
@[simp] theorem setIv_pending (k : Fin 4) (x : List Byte) : (setIv k x s).pending = s.pending := rfl
@[simp] theorem setIv_irq (k : Fin 4) (x : List Byte) : (setIv k x s).irq = s.irq := rfl
@[simp] theorem setIv_mem (k : Fin 4) (x : List Byte) : (setIv k x s).mem = s.mem := rfl
@[simp] theorem setIv_events (k : Fin 4) (x : List Byte) : (setIv k x s).events = s.events := rfl
@[simp] theorem setIv_dmaAnswers (k : Fin 4) (x : List Byte) : (setIv k x s).dmaAnswers = s.dmaAnswers := rfl
@[simp] theorem setIv_freeCount (k : Fin 4) (x : List Byte) : (setIv k x s).freeCount = s.freeCount := rfl
@[simp] theorem setIv_trace (k : Fin 4) (x : List Byte) : (setIv k x s).trace = s.trace := rfl

/-! ### setPhase -/

@[simp] theorem setPhase_cfg (p : Phase) : (setPhase p s).cfg = s.cfg := rfl
@[simp] theorem setPhase_ctxs (p : Phase) : (setPhase p s).ctxs = s.ctxs := rfl
@[simp] theorem setPhase_ivs (p : Phase) : (setPhase p s).ivs = s.ivs := rfl
@[simp] theorem setPhase_intStatus (p : Phase) : (setPhase p s).intStatus = s.intStatus := rfl
@[simp] theorem setPhase_intEnable (p : Phase) : (setPhase p s).intEnable = s.intEnable := rfl
@[simp] theorem setPhase_watermarks (p : Phase) : (setPhase p s).watermarks = s.watermarks := rfl
@[simp] theorem setPhase_flagCommand (p : Phase) : (setPhase p s).flagCommand = s.flagCommand := rfl
@[simp] theorem setPhase_depth (p : Phase) : (setPhase p s).depth = s.depth := rfl
@[simp] theorem setPhase_overflow (p : Phase) : (setPhase p s).overflow = s.overflow := rfl
@[simp] theorem setPhase_framer (p : Phase) : (setPhase p s).framer = s.framer := rfl
@[simp] theorem setPhase_queue (p : Phase) : (setPhase p s).queue = s.queue := rfl
@[simp] theorem setPhase_running (p : Phase) : (setPhase p s).running = s.running := rfl
@[simp] theorem setPhase_stopReq (p : Phase) : (setPhase p s).stopReq = s.stopReq := rfl
@[simp] theorem setPhase_inflight (p : Phase) : (setPhase p s).inflight = s.inflight.map fun c => { c with phase := p } := rfl
@[simp] theorem setPhase_pending (p : Phase) : (setPhase p s).pending = s.pending := rfl
@[simp] theorem setPhase_irq (p : Phase) : (setPhase p s).irq = s.irq := rfl
@[simp] theorem setPhase_mem (p : Phase) : (setPhase p s).mem = s.mem := rfl
@[simp] theorem setPhase_events (p : Phase) : (setPhase p s).events = s.events := rfl
@[simp] theorem setPhase_dmaAnswers (p : Phase) : (setPhase p s).dmaAnswers = s.dmaAnswers := rfl
@[simp] theorem setPhase_freeCount (p : Phase) : (setPhase p s).freeCount = s.freeCount := rfl
@[simp] theorem setPhase_trace (p : Phase) : (setPhase p s).trace = s.trace := rfl

/-! ### setBuffer -/

@[simp] theorem setBuffer_cfg (b : List Byte) (p : Phase) : (setBuffer b p s).cfg = s.cfg := rfl
@[simp] theorem setBuffer_ctxs (b : List Byte) (p : Phase) : (setBuffer b p s).ctxs = s.ctxs := rfl
@[simp] theorem setBuffer_ivs (b : List Byte) (p : Phase) : (setBuffer b p s).ivs = s.ivs := rfl
@[simp] theorem setBuffer_intStatus (b : List Byte) (p : Phase) : (setBuffer b p s).intStatus = s.intStatus := rfl
@[simp] theorem setBuffer_intEnable (b : List Byte) (p : Phase) : (setBuffer b p s).intEnable = s.intEnable := rfl
@[simp] theorem setBuffer_watermarks (b : List Byte) (p : Phase) : (setBuffer b p s).watermarks = s.watermarks := rfl
@[simp] theorem setBuffer_flagCommand (b : List Byte) (p : Phase) : (setBuffer b p s).flagCommand = s.flagCommand := rfl
@[simp] theorem setBuffer_depth (b : List Byte) (p : Phase) : (setBuffer b p s).depth = s.depth := rfl
@[simp] theorem setBuffer_overflow (b : List Byte) (p : Phase) : (setBuffer b p s).overflow = s.overflow := rfl
@[simp] theorem setBuffer_framer (b : List Byte) (p : Phase) : (setBuffer b p s).framer = s.framer := rfl
@[simp] theorem setBuffer_queue (b : List Byte) (p : Phase) : (setBuffer b p s).queue = s.queue := rfl
@[simp] theorem setBuffer_running (b : List Byte) (p : Phase) : (setBuffer b p s).running = s.running := rfl
@[simp] theorem setBuffer_stopReq (b : List Byte) (p : Phase) : (setBuffer b p s).stopReq = s.stopReq := rfl
@[simp] theorem setBuffer_inflight (b : List Byte) (p : Phase) : (setBuffer b p s).inflight = s.inflight.map fun c => { c with phase := p, buf := b } := rfl
@[simp] theorem setBuffer_pending (b : List Byte) (p : Phase) : (setBuffer b p s).pending = s.pending := rfl
@[simp] theorem setBuffer_irq (b : List Byte) (p : Phase) : (setBuffer b p s).irq = s.irq := rfl
@[simp] theorem setBuffer_mem (b : List Byte) (p : Phase) : (setBuffer b p s).mem = s.mem := rfl
@[simp] theorem setBuffer_events (b : List Byte) (p : Phase) : (setBuffer b p s).events = s.events := rfl
@[simp] theorem setBuffer_dmaAnswers (b : List Byte) (p : Phase) : (setBuffer b p s).dmaAnswers = s.dmaAnswers := rfl
@[simp] theorem setBuffer_freeCount (b : List Byte) (p : Phase) : (setBuffer b p s).freeCount = s.freeCount := rfl
@[simp] theorem setBuffer_trace (b : List Byte) (p : Phase) : (setBuffer b p s).trace = s.trace := rfl

/-! ### skipFree -/

@[simp] theorem skipFree_cfg (n : Nat) : (skipFree n s).cfg = s.cfg := rfl
@[simp] theorem skipFree_ctxs (n : Nat) : (skipFree n s).ctxs = s.ctxs := rfl
@[simp] theorem skipFree_ivs (n : Nat) : (skipFree n s).ivs = s.ivs := rfl
@[simp] theorem skipFree_intStatus (n : Nat) : (skipFree n s).intStatus = s.intStatus := rfl
@[simp] theorem skipFree_intEnable (n : Nat) : (skipFree n s).intEnable = s.intEnable := rfl
@[simp] theorem skipFree_watermarks (n : Nat) : (skipFree n s).watermarks = s.watermarks := rfl
@[simp] theorem skipFree_flagCommand (n : Nat) : (skipFree n s).flagCommand = s.flagCommand := rfl
@[simp] theorem skipFree_depth (n : Nat) : (skipFree n s).depth = s.depth := rfl
@[simp] theorem skipFree_overflow (n : Nat) : (skipFree n s).overflow = s.overflow := rfl
@[simp] theorem skipFree_framer (n : Nat) : (skipFree n s).framer = s.framer := rfl
@[simp] theorem skipFree_queue (n : Nat) : (skipFree n s).queue = s.queue := rfl
@[simp] theorem skipFree_running (n : Nat) : (skipFree n s).running = s.running := rfl
@[simp] theorem skipFree_stopReq (n : Nat) : (skipFree n s).stopReq = s.stopReq := rfl
@[simp] theorem skipFree_inflight (n : Nat) : (skipFree n s).inflight = s.inflight := rfl
@[simp] theorem skipFree_pending (n : Nat) : (skipFree n s).pending = s.pending := rfl
@[simp] theorem skipFree_irq (n : Nat) : (skipFree n s).irq = s.irq := rfl
@[simp] theorem skipFree_mem (n : Nat) : (skipFree n s).mem = s.mem := rfl
@[simp] theorem skipFree_events (n : Nat) : (skipFree n s).events = s.events := rfl
@[simp] theorem skipFree_dmaAnswers (n : Nat) : (skipFree n s).dmaAnswers = s.dmaAnswers := rfl
@[simp] theorem skipFree_freeCount (n : Nat) : (skipFree n s).freeCount = s.freeCount + n := rfl
@[simp] theorem skipFree_trace (n : Nat) : (skipFree n s).trace = s.trace := rfl

/-! ### takeAnswer -/

@[simp] theorem takeAnswer_cfg : (takeAnswer s).cfg = s.cfg := rfl
@[simp] theorem takeAnswer_ctxs : (takeAnswer s).ctxs = s.ctxs := rfl
@[simp] theorem takeAnswer_ivs : (takeAnswer s).ivs = s.ivs := rfl
@[simp] theorem takeAnswer_intStatus : (takeAnswer s).intStatus = s.intStatus := rfl
@[simp] theorem takeAnswer_intEnable : (takeAnswer s).intEnable = s.intEnable := rfl
@[simp] theorem takeAnswer_watermarks : (takeAnswer s).watermarks = s.watermarks := rfl
@[simp] theorem takeAnswer_flagCommand : (takeAnswer s).flagCommand = s.flagCommand := rfl
@[simp] theorem takeAnswer_depth : (takeAnswer s).depth = s.depth := rfl
@[simp] theorem takeAnswer_overflow : (takeAnswer s).overflow = s.overflow := rfl
@[simp] theorem takeAnswer_framer : (takeAnswer s).framer = s.framer := rfl
@[simp] theorem takeAnswer_queue : (takeAnswer s).queue = s.queue := rfl
@[simp] theorem takeAnswer_running : (takeAnswer s).running = s.running := rfl
@[simp] theorem takeAnswer_stopReq : (takeAnswer s).stopReq = s.stopReq := rfl
@[simp] theorem takeAnswer_inflight : (takeAnswer s).inflight = s.inflight := rfl
@[simp] theorem takeAnswer_pending : (takeAnswer s).pending = s.pending := rfl
@[simp] theorem takeAnswer_irq : (takeAnswer s).irq = s.irq := rfl
@[simp] theorem takeAnswer_mem : (takeAnswer s).mem = s.mem := rfl
@[simp] theorem takeAnswer_events : (takeAnswer s).events = s.events := rfl
@[simp] theorem takeAnswer_dmaAnswers : (takeAnswer s).dmaAnswers = s.dmaAnswers.tail := rfl
@[simp] theorem takeAnswer_freeCount : (takeAnswer s).freeCount = if s.dmaAnswers = [] then s.freeCount + 1 else s.freeCount := rfl
@[simp] theorem takeAnswer_trace : (takeAnswer s).trace = s.trace := rfl

/-! ### drain -/

@[simp] theorem drain_cfg : (drain s).cfg = s.cfg := rfl
@[simp] theorem drain_ctxs : (drain s).ctxs = s.ctxs := rfl
@[simp] theorem drain_ivs : (drain s).ivs = s.ivs := rfl
@[simp] theorem drain_intStatus : (drain s).intStatus = s.intStatus := rfl
@[simp] theorem drain_intEnable : (drain s).intEnable = s.intEnable := rfl
@[simp] theorem drain_watermarks : (drain s).watermarks = s.watermarks := rfl
@[simp] theorem drain_flagCommand : (drain s).flagCommand = s.flagCommand := rfl
@[simp] theorem drain_depth : (drain s).depth = inflightWords s := rfl
@[simp] theorem drain_overflow : (drain s).overflow = overflowOf s.cfg (inflightWords s) := rfl
@[simp] theorem drain_framer : (drain s).framer = ⟨[], 0⟩ := rfl
@[simp] theorem drain_queue : (drain s).queue = [] := rfl
@[simp] theorem drain_running : (drain s).running = s.running := rfl
@[simp] theorem drain_stopReq : (drain s).stopReq = s.stopReq := rfl
@[simp] theorem drain_inflight : (drain s).inflight = s.inflight := rfl
@[simp] theorem drain_pending : (drain s).pending = s.pending := rfl
@[simp] theorem drain_irq : (drain s).irq = irqLevel s.intStatus s.intEnable := rfl
@[simp] theorem drain_mem : (drain s).mem = s.mem := rfl
@[simp] theorem drain_events : (drain s).events = s.events := rfl
@[simp] theorem drain_dmaAnswers : (drain s).dmaAnswers = s.dmaAnswers := rfl
@[simp] theorem drain_freeCount : (drain s).freeCount = s.freeCount := rfl
@[simp] theorem drain_trace : (drain s).trace = s.trace ++ irqEdge s.irq (irqLevel s.intStatus s.intEnable) := rfl

/-! ### fullReset -/

@[simp] theorem fullReset_cfg : (fullReset s).cfg = s.cfg := rfl
@[simp] theorem fullReset_ctxs : (fullReset s).ctxs = ⟨Context.empty, Context.empty⟩ := rfl
@[simp] theorem fullReset_ivs : (fullReset s).ivs = ⟨zeroIv, zeroIv, zeroIv, zeroIv⟩ := rfl
@[simp] theorem fullReset_intStatus : (fullReset s).intStatus = 0 := rfl
@[simp] theorem fullReset_intEnable : (fullReset s).intEnable = 0 := rfl
@[simp] theorem fullReset_watermarks : (fullReset s).watermarks = 0 := rfl
@[simp] theorem fullReset_flagCommand : (fullReset s).flagCommand = 0 := rfl
@[simp] theorem fullReset_depth : (fullReset s).depth = 0 := rfl
@[simp] theorem fullReset_overflow : (fullReset s).overflow = false := rfl
@[simp] theorem fullReset_framer : (fullReset s).framer = ⟨[], 0⟩ := rfl
@[simp] theorem fullReset_queue : (fullReset s).queue = [] := rfl
@[simp] theorem fullReset_running : (fullReset s).running = false := rfl
@[simp] theorem fullReset_stopReq : (fullReset s).stopReq = false := rfl
@[simp] theorem fullReset_inflight : (fullReset s).inflight = none := rfl
@[simp] theorem fullReset_pending : (fullReset s).pending = s.pending := rfl
@[simp] theorem fullReset_irq : (fullReset s).irq = false := by simp [fullReset, irqUpdate, irqLevel]
@[simp] theorem fullReset_mem : (fullReset s).mem = s.mem := rfl
@[simp] theorem fullReset_events : (fullReset s).events = s.events := rfl
@[simp] theorem fullReset_dmaAnswers : (fullReset s).dmaAnswers = s.dmaAnswers := rfl
@[simp] theorem fullReset_freeCount : (fullReset s).freeCount = s.freeCount := rfl
@[simp] theorem fullReset_trace : (fullReset s).trace = s.trace ++ irqEdge s.irq false := by simp [fullReset, irqUpdate, irqLevel]

/-! ### discardWord -/

@[simp] theorem discardWord_cfg : (discardWord s).cfg = s.cfg := rfl
@[simp] theorem discardWord_ctxs : (discardWord s).ctxs = s.ctxs := rfl
@[simp] theorem discardWord_ivs : (discardWord s).ivs = s.ivs := rfl
@[simp] theorem discardWord_intStatus : (discardWord s).intStatus = s.intStatus ||| Condition.mask s.cfg .invalidCommand := rfl
@[simp] theorem discardWord_intEnable : (discardWord s).intEnable = s.intEnable := rfl
@[simp] theorem discardWord_watermarks : (discardWord s).watermarks = s.watermarks := rfl
@[simp] theorem discardWord_flagCommand : (discardWord s).flagCommand = s.flagCommand := rfl
@[simp] theorem discardWord_depth : (discardWord s).depth = s.depth := rfl
@[simp] theorem discardWord_overflow : (discardWord s).overflow = s.overflow := rfl
@[simp] theorem discardWord_framer : (discardWord s).framer = s.framer := rfl
@[simp] theorem discardWord_queue : (discardWord s).queue = s.queue := rfl
@[simp] theorem discardWord_running : (discardWord s).running = s.running := rfl
@[simp] theorem discardWord_stopReq : (discardWord s).stopReq = s.stopReq := rfl
@[simp] theorem discardWord_inflight : (discardWord s).inflight = s.inflight := rfl
@[simp] theorem discardWord_pending : (discardWord s).pending = s.pending := rfl
@[simp] theorem discardWord_irq : (discardWord s).irq = irqLevel (s.intStatus ||| Condition.mask s.cfg .invalidCommand) s.intEnable := rfl
@[simp] theorem discardWord_mem : (discardWord s).mem = s.mem := rfl
@[simp] theorem discardWord_events : (discardWord s).events = s.events := rfl
@[simp] theorem discardWord_dmaAnswers : (discardWord s).dmaAnswers = s.dmaAnswers := rfl
@[simp] theorem discardWord_freeCount : (discardWord s).freeCount = s.freeCount := rfl
@[simp] theorem discardWord_trace : (discardWord s).trace = s.trace ++ irqEdge s.irq (irqLevel (s.intStatus ||| Condition.mask s.cfg .invalidCommand) s.intEnable) := rfl

/-! ### storeFlag -/

@[simp] theorem storeFlag_cfg (d : FlagFields) : (storeFlag d s).cfg = s.cfg := rfl
@[simp] theorem storeFlag_ctxs (d : FlagFields) : (storeFlag d s).ctxs = s.ctxs := rfl
@[simp] theorem storeFlag_ivs (d : FlagFields) : (storeFlag d s).ivs = s.ivs := rfl
@[simp] theorem storeFlag_intStatus (d : FlagFields) : (storeFlag d s).intStatus = s.intStatus := rfl
@[simp] theorem storeFlag_intEnable (d : FlagFields) : (storeFlag d s).intEnable = s.intEnable := rfl
@[simp] theorem storeFlag_watermarks (d : FlagFields) : (storeFlag d s).watermarks = s.watermarks := rfl
@[simp] theorem storeFlag_flagCommand (d : FlagFields) : (storeFlag d s).flagCommand = put s.cfg.regmap.flagCode (d.idCode.setWidth s.cfg.regmap.flagCodeBits) := rfl
@[simp] theorem storeFlag_depth (d : FlagFields) : (storeFlag d s).depth = s.depth := rfl
@[simp] theorem storeFlag_overflow (d : FlagFields) : (storeFlag d s).overflow = s.overflow := rfl
@[simp] theorem storeFlag_framer (d : FlagFields) : (storeFlag d s).framer = s.framer := rfl
@[simp] theorem storeFlag_queue (d : FlagFields) : (storeFlag d s).queue = s.queue := rfl
@[simp] theorem storeFlag_running (d : FlagFields) : (storeFlag d s).running = s.running := rfl
@[simp] theorem storeFlag_stopReq (d : FlagFields) : (storeFlag d s).stopReq = s.stopReq := rfl
@[simp] theorem storeFlag_inflight (d : FlagFields) : (storeFlag d s).inflight = s.inflight := rfl
@[simp] theorem storeFlag_pending (d : FlagFields) : (storeFlag d s).pending = s.pending := rfl
@[simp] theorem storeFlag_irq (d : FlagFields) : (storeFlag d s).irq = s.irq := rfl
@[simp] theorem storeFlag_mem (d : FlagFields) : (storeFlag d s).mem = s.mem := rfl
@[simp] theorem storeFlag_events (d : FlagFields) : (storeFlag d s).events = s.events := rfl
@[simp] theorem storeFlag_dmaAnswers (d : FlagFields) : (storeFlag d s).dmaAnswers = s.dmaAnswers := rfl
@[simp] theorem storeFlag_freeCount (d : FlagFields) : (storeFlag d s).freeCount = s.freeCount := rfl
@[simp] theorem storeFlag_trace (d : FlagFields) : (storeFlag d s).trace = s.trace := rfl

/-! ### holdHost -/

@[simp] theorem holdHost_cfg (p : Pending) : (holdHost p s).cfg = s.cfg := rfl
@[simp] theorem holdHost_ctxs (p : Pending) : (holdHost p s).ctxs = s.ctxs := rfl
@[simp] theorem holdHost_ivs (p : Pending) : (holdHost p s).ivs = s.ivs := rfl
@[simp] theorem holdHost_intStatus (p : Pending) : (holdHost p s).intStatus = s.intStatus := rfl
@[simp] theorem holdHost_intEnable (p : Pending) : (holdHost p s).intEnable = s.intEnable := rfl
@[simp] theorem holdHost_watermarks (p : Pending) : (holdHost p s).watermarks = s.watermarks := rfl
@[simp] theorem holdHost_flagCommand (p : Pending) : (holdHost p s).flagCommand = s.flagCommand := rfl
@[simp] theorem holdHost_depth (p : Pending) : (holdHost p s).depth = s.depth := rfl
@[simp] theorem holdHost_overflow (p : Pending) : (holdHost p s).overflow = s.overflow := rfl
@[simp] theorem holdHost_framer (p : Pending) : (holdHost p s).framer = s.framer := rfl
@[simp] theorem holdHost_queue (p : Pending) : (holdHost p s).queue = s.queue := rfl
@[simp] theorem holdHost_running (p : Pending) : (holdHost p s).running = s.running := rfl
@[simp] theorem holdHost_stopReq (p : Pending) : (holdHost p s).stopReq = true := rfl
@[simp] theorem holdHost_inflight (p : Pending) : (holdHost p s).inflight = s.inflight := rfl
@[simp] theorem holdHost_pending (p : Pending) : (holdHost p s).pending = p := rfl
@[simp] theorem holdHost_irq (p : Pending) : (holdHost p s).irq = s.irq := rfl
@[simp] theorem holdHost_mem (p : Pending) : (holdHost p s).mem = s.mem := rfl
@[simp] theorem holdHost_events (p : Pending) : (holdHost p s).events = s.events := rfl
@[simp] theorem holdHost_dmaAnswers (p : Pending) : (holdHost p s).dmaAnswers = s.dmaAnswers := rfl
@[simp] theorem holdHost_freeCount (p : Pending) : (holdHost p s).freeCount = s.freeCount := rfl
@[simp] theorem holdHost_trace (p : Pending) : (holdHost p s).trace = s.trace := rfl

/-! ### ivExecute -/

@[simp] theorem ivExecute_cfg (d : IvDesc) (ws : List Word) : (ivExecute d ws s).cfg = s.cfg := rfl
@[simp] theorem ivExecute_ctxs (d : IvDesc) (ws : List Word) : (ivExecute d ws s).ctxs = s.ctxs := rfl
@[simp] theorem ivExecute_ivs (d : IvDesc) (ws : List Word) : (ivExecute d ws s).ivs = s.ivs.set d.slot (bytesLe ws) := rfl
@[simp] theorem ivExecute_intStatus (d : IvDesc) (ws : List Word) : (ivExecute d ws s).intStatus = s.intStatus := rfl
@[simp] theorem ivExecute_intEnable (d : IvDesc) (ws : List Word) : (ivExecute d ws s).intEnable = s.intEnable := rfl
@[simp] theorem ivExecute_watermarks (d : IvDesc) (ws : List Word) : (ivExecute d ws s).watermarks = s.watermarks := rfl
@[simp] theorem ivExecute_flagCommand (d : IvDesc) (ws : List Word) : (ivExecute d ws s).flagCommand = s.flagCommand := rfl
@[simp] theorem ivExecute_depth (d : IvDesc) (ws : List Word) : (ivExecute d ws s).depth = s.depth := rfl
@[simp] theorem ivExecute_overflow (d : IvDesc) (ws : List Word) : (ivExecute d ws s).overflow = s.overflow := rfl
@[simp] theorem ivExecute_framer (d : IvDesc) (ws : List Word) : (ivExecute d ws s).framer = s.framer := rfl
@[simp] theorem ivExecute_queue (d : IvDesc) (ws : List Word) : (ivExecute d ws s).queue = s.queue := rfl
@[simp] theorem ivExecute_running (d : IvDesc) (ws : List Word) : (ivExecute d ws s).running = s.running := rfl
@[simp] theorem ivExecute_stopReq (d : IvDesc) (ws : List Word) : (ivExecute d ws s).stopReq = s.stopReq := rfl
@[simp] theorem ivExecute_inflight (d : IvDesc) (ws : List Word) : (ivExecute d ws s).inflight = s.inflight.map fun c => { c with phase := .executed } := rfl
@[simp] theorem ivExecute_pending (d : IvDesc) (ws : List Word) : (ivExecute d ws s).pending = s.pending := rfl
@[simp] theorem ivExecute_irq (d : IvDesc) (ws : List Word) : (ivExecute d ws s).irq = s.irq := rfl
@[simp] theorem ivExecute_mem (d : IvDesc) (ws : List Word) : (ivExecute d ws s).mem = s.mem := rfl
@[simp] theorem ivExecute_events (d : IvDesc) (ws : List Word) : (ivExecute d ws s).events = s.events := rfl
@[simp] theorem ivExecute_dmaAnswers (d : IvDesc) (ws : List Word) : (ivExecute d ws s).dmaAnswers = s.dmaAnswers := rfl
@[simp] theorem ivExecute_freeCount (d : IvDesc) (ws : List Word) : (ivExecute d ws s).freeCount = s.freeCount := rfl
@[simp] theorem ivExecute_trace (d : IvDesc) (ws : List Word) : (ivExecute d ws s).trace = s.trace := rfl

/-! ### dataTransform -/

@[simp] theorem dataTransform_cfg (d : DataFields) : (dataTransform d s).cfg = s.cfg := rfl
@[simp] theorem dataTransform_ctxs (d : DataFields) : (dataTransform d s).ctxs = s.ctxs := rfl
@[simp] theorem dataTransform_ivs (d : DataFields) : (dataTransform d s).ivs = s.ivs.set d.ivCtx (dataResult d s).2 := rfl
@[simp] theorem dataTransform_intStatus (d : DataFields) : (dataTransform d s).intStatus = s.intStatus := rfl
@[simp] theorem dataTransform_intEnable (d : DataFields) : (dataTransform d s).intEnable = s.intEnable := rfl
@[simp] theorem dataTransform_watermarks (d : DataFields) : (dataTransform d s).watermarks = s.watermarks := rfl
@[simp] theorem dataTransform_flagCommand (d : DataFields) : (dataTransform d s).flagCommand = s.flagCommand := rfl
@[simp] theorem dataTransform_depth (d : DataFields) : (dataTransform d s).depth = s.depth := rfl
@[simp] theorem dataTransform_overflow (d : DataFields) : (dataTransform d s).overflow = s.overflow := rfl
@[simp] theorem dataTransform_framer (d : DataFields) : (dataTransform d s).framer = s.framer := rfl
@[simp] theorem dataTransform_queue (d : DataFields) : (dataTransform d s).queue = s.queue := rfl
@[simp] theorem dataTransform_running (d : DataFields) : (dataTransform d s).running = s.running := rfl
@[simp] theorem dataTransform_stopReq (d : DataFields) : (dataTransform d s).stopReq = s.stopReq := rfl
@[simp] theorem dataTransform_inflight (d : DataFields) : (dataTransform d s).inflight = s.inflight.map fun c => { c with phase := .dataXformed, buf := (dataResult d s).1 } := rfl
@[simp] theorem dataTransform_pending (d : DataFields) : (dataTransform d s).pending = s.pending := rfl
@[simp] theorem dataTransform_irq (d : DataFields) : (dataTransform d s).irq = s.irq := rfl
@[simp] theorem dataTransform_mem (d : DataFields) : (dataTransform d s).mem = s.mem := rfl
@[simp] theorem dataTransform_events (d : DataFields) : (dataTransform d s).events = s.events := rfl
@[simp] theorem dataTransform_dmaAnswers (d : DataFields) : (dataTransform d s).dmaAnswers = s.dmaAnswers := rfl
@[simp] theorem dataTransform_freeCount (d : DataFields) : (dataTransform d s).freeCount = s.freeCount := rfl
@[simp] theorem dataTransform_trace (d : DataFields) : (dataTransform d s).trace = s.trace := rfl

/-! ### unrecognisedArm -/

@[simp] theorem unrecognisedArm_cfg : (unrecognisedArm s).cfg = s.cfg := rfl
@[simp] theorem unrecognisedArm_ctxs : (unrecognisedArm s).ctxs = s.ctxs := rfl
@[simp] theorem unrecognisedArm_ivs : (unrecognisedArm s).ivs = s.ivs := rfl
@[simp] theorem unrecognisedArm_intStatus : (unrecognisedArm s).intStatus = s.intStatus ||| Condition.mask s.cfg .invalidCommand := rfl
@[simp] theorem unrecognisedArm_intEnable : (unrecognisedArm s).intEnable = s.intEnable := rfl
@[simp] theorem unrecognisedArm_watermarks : (unrecognisedArm s).watermarks = s.watermarks := rfl
@[simp] theorem unrecognisedArm_flagCommand : (unrecognisedArm s).flagCommand = s.flagCommand := rfl
@[simp] theorem unrecognisedArm_depth : (unrecognisedArm s).depth = s.depth := rfl
@[simp] theorem unrecognisedArm_overflow : (unrecognisedArm s).overflow = s.overflow := rfl
@[simp] theorem unrecognisedArm_framer : (unrecognisedArm s).framer = s.framer := rfl
@[simp] theorem unrecognisedArm_queue : (unrecognisedArm s).queue = s.queue := rfl
@[simp] theorem unrecognisedArm_running : (unrecognisedArm s).running = s.running := rfl
@[simp] theorem unrecognisedArm_stopReq : (unrecognisedArm s).stopReq = s.stopReq := rfl
@[simp] theorem unrecognisedArm_inflight : (unrecognisedArm s).inflight = s.inflight.map fun c => { c with phase := .executed } := rfl
@[simp] theorem unrecognisedArm_pending : (unrecognisedArm s).pending = s.pending := rfl
@[simp] theorem unrecognisedArm_irq : (unrecognisedArm s).irq = irqLevel (s.intStatus ||| Condition.mask s.cfg .invalidCommand) s.intEnable := rfl
@[simp] theorem unrecognisedArm_mem : (unrecognisedArm s).mem = s.mem := rfl
@[simp] theorem unrecognisedArm_events : (unrecognisedArm s).events = s.events := rfl
@[simp] theorem unrecognisedArm_dmaAnswers : (unrecognisedArm s).dmaAnswers = s.dmaAnswers := rfl
@[simp] theorem unrecognisedArm_freeCount : (unrecognisedArm s).freeCount = s.freeCount := rfl
@[simp] theorem unrecognisedArm_trace : (unrecognisedArm s).trace = s.trace ++ irqEdge s.irq (irqLevel (s.intStatus ||| Condition.mask s.cfg .invalidCommand) s.intEnable) := rfl

/-! ### dequeue -/

@[simp] theorem dequeue_cfg (c : Command) (rest : List Command) : (dequeue c rest s).cfg = s.cfg := rfl
@[simp] theorem dequeue_ctxs (c : Command) (rest : List Command) : (dequeue c rest s).ctxs = s.ctxs := rfl
@[simp] theorem dequeue_ivs (c : Command) (rest : List Command) : (dequeue c rest s).ivs = s.ivs := rfl
@[simp] theorem dequeue_intStatus (c : Command) (rest : List Command) : (dequeue c rest s).intStatus = s.intStatus := rfl
@[simp] theorem dequeue_intEnable (c : Command) (rest : List Command) : (dequeue c rest s).intEnable = s.intEnable := rfl
@[simp] theorem dequeue_watermarks (c : Command) (rest : List Command) : (dequeue c rest s).watermarks = s.watermarks := rfl
@[simp] theorem dequeue_flagCommand (c : Command) (rest : List Command) : (dequeue c rest s).flagCommand = s.flagCommand := rfl
@[simp] theorem dequeue_depth (c : Command) (rest : List Command) : (dequeue c rest s).depth = s.depth := rfl
@[simp] theorem dequeue_overflow (c : Command) (rest : List Command) : (dequeue c rest s).overflow = s.overflow := rfl
@[simp] theorem dequeue_framer (c : Command) (rest : List Command) : (dequeue c rest s).framer = s.framer := rfl
@[simp] theorem dequeue_queue (c : Command) (rest : List Command) : (dequeue c rest s).queue = rest := rfl
@[simp] theorem dequeue_running (c : Command) (rest : List Command) : (dequeue c rest s).running = s.running := rfl
@[simp] theorem dequeue_stopReq (c : Command) (rest : List Command) : (dequeue c rest s).stopReq = s.stopReq := rfl
@[simp] theorem dequeue_inflight (c : Command) (rest : List Command) : (dequeue c rest s).inflight = some ⟨c, .fetched, []⟩ := rfl
@[simp] theorem dequeue_pending (c : Command) (rest : List Command) : (dequeue c rest s).pending = s.pending := rfl
@[simp] theorem dequeue_irq (c : Command) (rest : List Command) : (dequeue c rest s).irq = s.irq := rfl
@[simp] theorem dequeue_mem (c : Command) (rest : List Command) : (dequeue c rest s).mem = s.mem := rfl
@[simp] theorem dequeue_events (c : Command) (rest : List Command) : (dequeue c rest s).events = s.events := rfl
@[simp] theorem dequeue_dmaAnswers (c : Command) (rest : List Command) : (dequeue c rest s).dmaAnswers = s.dmaAnswers := rfl
@[simp] theorem dequeue_freeCount (c : Command) (rest : List Command) : (dequeue c rest s).freeCount = s.freeCount := rfl
@[simp] theorem dequeue_trace (c : Command) (rest : List Command) : (dequeue c rest s).trace = s.trace := rfl

/-! ### complete -/

@[simp] theorem complete_cfg (c : Command) : (complete c s).cfg = s.cfg := rfl
@[simp] theorem complete_ctxs (c : Command) : (complete c s).ctxs = s.ctxs := rfl
@[simp] theorem complete_ivs (c : Command) : (complete c s).ivs = s.ivs := rfl
@[simp] theorem complete_intStatus (c : Command) : (complete c s).intStatus = s.intStatus := rfl
@[simp] theorem complete_intEnable (c : Command) : (complete c s).intEnable = s.intEnable := rfl
@[simp] theorem complete_watermarks (c : Command) : (complete c s).watermarks = s.watermarks := rfl
@[simp] theorem complete_flagCommand (c : Command) : (complete c s).flagCommand = s.flagCommand := rfl
@[simp] theorem complete_depth (c : Command) : (complete c s).depth = s.depth - c.words.length := rfl
@[simp] theorem complete_overflow (c : Command) : (complete c s).overflow = s.overflow := rfl
@[simp] theorem complete_framer (c : Command) : (complete c s).framer = s.framer := rfl
@[simp] theorem complete_queue (c : Command) : (complete c s).queue = s.queue := rfl
@[simp] theorem complete_running (c : Command) : (complete c s).running = if flagStops s.cfg c then false else s.running := rfl
@[simp] theorem complete_stopReq (c : Command) : (complete c s).stopReq = s.stopReq := rfl
@[simp] theorem complete_inflight (c : Command) : (complete c s).inflight = none := rfl
@[simp] theorem complete_pending (c : Command) : (complete c s).pending = s.pending := rfl
@[simp] theorem complete_irq (c : Command) : (complete c s).irq = irqLevel s.intStatus s.intEnable := rfl
@[simp] theorem complete_mem (c : Command) : (complete c s).mem = s.mem := rfl
@[simp] theorem complete_events (c : Command) : (complete c s).events = s.events := rfl
@[simp] theorem complete_dmaAnswers (c : Command) : (complete c s).dmaAnswers = s.dmaAnswers := rfl
@[simp] theorem complete_freeCount (c : Command) : (complete c s).freeCount = s.freeCount := rfl
@[simp] theorem complete_trace (c : Command) : (complete c s).trace = s.trace ++ irqEdge s.irq (irqLevel s.intStatus s.intEnable) := rfl

/-! ### acceptWord -/

@[simp] theorem acceptWord_cfg (w : Word) : (acceptWord w s).cfg = s.cfg := rfl
@[simp] theorem acceptWord_ctxs (w : Word) : (acceptWord w s).ctxs = s.ctxs := rfl
@[simp] theorem acceptWord_ivs (w : Word) : (acceptWord w s).ivs = s.ivs := rfl
@[simp] theorem acceptWord_intStatus (w : Word) : (acceptWord w s).intStatus = s.intStatus := rfl
@[simp] theorem acceptWord_intEnable (w : Word) : (acceptWord w s).intEnable = s.intEnable := rfl
@[simp] theorem acceptWord_watermarks (w : Word) : (acceptWord w s).watermarks = s.watermarks := rfl
@[simp] theorem acceptWord_flagCommand (w : Word) : (acceptWord w s).flagCommand = s.flagCommand := rfl
@[simp] theorem acceptWord_depth (w : Word) : (acceptWord w s).depth = s.depth + 1 := rfl
@[simp] theorem acceptWord_overflow (w : Word) : (acceptWord w s).overflow = overflowOf s.cfg (s.depth + 1) := rfl
@[simp] theorem acceptWord_framer (w : Word) : (acceptWord w s).framer = if decide ((framerPush w s).buf.length = (framerPush w s).need) then ⟨[], 0⟩ else framerPush w s := rfl
@[simp] theorem acceptWord_queue (w : Word) : (acceptWord w s).queue = if decide ((framerPush w s).buf.length = (framerPush w s).need) then s.queue ++ [⟨(framerPush w s).buf⟩] else s.queue := rfl
@[simp] theorem acceptWord_running (w : Word) : (acceptWord w s).running = s.running := rfl
@[simp] theorem acceptWord_stopReq (w : Word) : (acceptWord w s).stopReq = s.stopReq := rfl
@[simp] theorem acceptWord_inflight (w : Word) : (acceptWord w s).inflight = s.inflight := rfl
@[simp] theorem acceptWord_pending (w : Word) : (acceptWord w s).pending = s.pending := rfl
@[simp] theorem acceptWord_irq (w : Word) : (acceptWord w s).irq = s.irq := rfl
@[simp] theorem acceptWord_mem (w : Word) : (acceptWord w s).mem = s.mem := rfl
@[simp] theorem acceptWord_events (w : Word) : (acceptWord w s).events = s.events := rfl
@[simp] theorem acceptWord_dmaAnswers (w : Word) : (acceptWord w s).dmaAnswers = s.dmaAnswers := rfl
@[simp] theorem acceptWord_freeCount (w : Word) : (acceptWord w s).freeCount = s.freeCount := rfl
@[simp] theorem acceptWord_trace (w : Word) : (acceptWord w s).trace = s.trace := rfl

end Sys2Proof.Machine
end

