-- ==== Sys2Proof/Laws/Ops.lean ====
section
/-! SUPPORT. What the shared operations can do, once for each. -/

namespace Sys2Proof.Machine

/-! ### Register files -/

@[simp] theorem Contexts.get_set_same (c : Contexts) (n : Fin 2) (x : Context) : (c.set n x).get n = x := by
  unfold Contexts.set Contexts.get; split
  · rfl
  · rfl

@[simp] theorem Contexts.get_set_other (c : Contexts) {n m : Fin 2} (x : Context) (h : m ≠ n) : (c.set n x).get m = c.get m := by
  unfold Contexts.set Contexts.get
  by_cases hn : n = 0 <;> by_cases hm : m = 0 <;> simp [hn, hm] <;> omega

@[simp] theorem IvSlots.get_set_same (v : IvSlots) (k : Fin 4) (x : List Byte) : (v.set k x).get k = x := by
  match k with
  | 0 | 1 | 2 | 3 => rfl

@[simp] theorem IvSlots.get_set_other (v : IvSlots) {k j : Fin 4} (x : List Byte) (h : j ≠ k) : (v.set k x).get j = v.get j := by
  match k, j with
  | 0, 1 | 0, 2 | 0, 3 | 1, 0 | 1, 2 | 1, 3 | 2, 0 | 2, 1 | 2, 3 | 3, 0 | 3, 1 | 3, 2 => rfl
  | 0, 0 | 1, 1 | 2, 2 | 3, 3 => exact absurd rfl h

/-! ### Operands -/

@[simp] theorem length_bytesLe (ws : List Word) : (bytesLe ws).length = 4 * ws.length := by
  induction ws with
  | nil => rfl
  | cons w ws ih =>
    have : bytesLe (w :: ws) = bytesLeWord w ++ bytesLe ws := by simp [bytesLe]
    rw [this, List.length_append, ih, List.length_cons]
    simp [bytesLeWord]; omega

/-- A DMA address, as a number (20_memory R61). -/
theorem dmaAddr_toNat (lo ext : Word) : (dmaAddr lo ext).toNat = lo.toNat + 2 ^ 32 * ext.toNat := by
  have h1 := lo.isLt
  have h2 := ext.isLt
  have h3 : (ext.setWidth 64 <<< 32 : Addr).toNat = 2 ^ 32 * ext.toNat := by
    simp only [BitVec.toNat_shiftLeft, BitVec.toNat_setWidth, Nat.shiftLeft_eq]; omega
  rw [dmaAddr, BitVec.toNat_or, h3, BitVec.toNat_setWidth, Nat.mod_eq_of_lt (by omega), Nat.or_comm,
    ← Nat.two_pow_add_eq_or_of_lt h1]
  omega

@[simp] theorem irqEdge_same (b : Bool) : irqEdge b b = [] := by simp [irqEdge]

/-! ### Conditions -/

/-- The condition bits are defined bits of `INT_STATUS` (40_register_interface R134). -/
theorem mask_defined (k : Cfg) (c : Condition) : c.mask k &&& ~~~statusDefined k = 0 := by
  match c with
  | .invalidCommand | .flagCommand | .invalidDataLength | .keyDisabled 0 | .keyDisabled 1 =>
    ext i hi
    simp only [statusDefined, BitVec.getElem_and, BitVec.getElem_not, BitVec.getElem_or]
    generalize (Condition.mask k _)[i] = a
    cases a <;> simp

/-- Raising what is raised changes nothing but, in a state whose line is not up to date, the line (60_exceptions R240). -/
theorem raise_eq_irqUpdate {c : Condition} {s : State} (h : s.intStatus &&& c.mask s.cfg = c.mask s.cfg) : raise c s = irqUpdate s := by
  have : s.intStatus ||| c.mask s.cfg = s.intStatus := by
    have h2 : s.intStatus ||| (s.intStatus &&& c.mask s.cfg) = s.intStatus := by
      ext i; simp only [BitVec.getElem_or, BitVec.getElem_and]; cases s.intStatus[i] <;> simp
    rwa [h] at h2
  simp [raise, this]

/-! ### The DMA sequencer -/

@[simp] theorem length_draw (n : Nat) (s : State) : (draw n s).length = n := by simp [draw]

/-- `MemRead` touches nothing but the oracle's answers, the free values and the trace. -/
theorem memRead_state (addr : Addr) (n : Nat) (s : State) :
    ∃ a f t, (memRead addr n s).2 = { s with dmaAnswers := a, freeCount := f, trace := t } := by
  unfold memRead
  split
  · exact ⟨_, _, _, rfl⟩
  · split <;> exact ⟨_, _, _, rfl⟩

/-- The bytes `MemRead` delivers: as many as asked for. -/
theorem memRead_length {addr : Addr} {n : Nat} {s : State} {b : List Byte} (h : (memRead addr n s).1 = some b) : b.length = n := by
  unfold memRead at h
  split at h
  · rename_i hn; simp only [Option.some.injEq] at h; simp [← h, hn]
  · split at h <;> simp only [Option.some.injEq, reduceCtorEq] at h
    · simp [← h]
    · simp [← h]

/-- `MemWrite` touches nothing but memory, at most `n` bytes from its address on, the oracle's answers, the free values and the trace. -/
theorem memWrite_state (addr : Addr) (n : Nat) (v : List Byte) (s : State) :
    ∃ bs a f t, bs.length ≤ n ∧ (memWrite addr n v s).2 =
      { s with mem := s.mem.writeBytes addr.toNat bs, dmaAnswers := a, freeCount := f, trace := t } := by
  unfold memWrite
  split
  · exact ⟨[], _, _, _, by simp, rfl⟩
  · split
    · exact ⟨v.take n, _, _, _, by simp, rfl⟩
    · exact ⟨draw n (takeAnswer s), _, _, _, by simp, rfl⟩
    · exact ⟨[], _, _, _, by simp, rfl⟩

/-- While the oracle does not answer, no byte is delivered. -/
theorem memRead_noAnswer {addr : Addr} {n : Nat} {s : State} (hn : n ≠ 0) (h : nextAnswer s = .noAnswer) :
    memRead addr n s = (none, takeAnswer s) := by
  simp [memRead, hn, h]

theorem memRead_ok {addr : Addr} {n : Nat} {s : State} (hn : n ≠ 0) (h : nextAnswer s = .ok) :
    memRead addr n s = (some (s.mem.readBytes addr.toNat n), emit (.dmaRead addr n) (takeAnswer s)) := by
  simp [memRead, hn, h]

theorem memRead_fail {addr : Addr} {n : Nat} {s : State} (hn : n ≠ 0) (h : nextAnswer s = .fail) :
    memRead addr n s = (some (draw n (takeAnswer s)), skipFree n (emit (.dmaRead addr n) (takeAnswer s))) := by
  simp [memRead, hn, h]

theorem memRead_zero (addr : Addr) (s : State) : memRead addr 0 s = (some [], s) := by
  simp [memRead]

theorem memWrite_noAnswer {addr : Addr} {n : Nat} {v : List Byte} {s : State} (hn : n ≠ 0) (h : nextAnswer s = .noAnswer) :
    memWrite addr n v s = (false, takeAnswer s) := by
  simp [memWrite, hn, h]

theorem memWrite_ok {addr : Addr} {n : Nat} {v : List Byte} {s : State} (hn : n ≠ 0) (h : nextAnswer s = .ok) :
    memWrite addr n v s =
      (true, emit (.dmaWrite addr n) { takeAnswer s with mem := s.mem.writeBytes addr.toNat (v.take n) }) := by
  simp [memWrite, hn, h]

theorem memWrite_fail {addr : Addr} {n : Nat} {v : List Byte} {s : State} (hn : n ≠ 0) (h : nextAnswer s = .fail) :
    memWrite addr n v s =
      (true, skipFree n (emit (.dmaWrite addr n)
        { takeAnswer s with mem := s.mem.writeBytes addr.toNat (draw n (takeAnswer s)) })) := by
  simp [memWrite, hn, h]

theorem memWrite_zero (addr : Addr) (v : List Byte) (s : State) : memWrite addr 0 v s = (true, s) := by
  simp [memWrite]

end Sys2Proof.Machine
end

