-- ==== Sys2Proof/Laws/Exec.lean ====
section
/-! SUPPORT. Every meaning answers a next state, and what the steps around the meanings can do: one inversion lemma for each. -/

namespace Sys2Proof.Machine

/-- Every instruction answers a next state. -/
theorem exec_next (i : Instr) (s : State) : ∃ t, exec i s = .next t := by
  cases i <;> exact ⟨_, rfl⟩

/-- A word that is no command runs as a discard, whatever its row (41_framer_queue R162). -/
theorem exec_discarded {k : Cfg} {w : Word} {i : Instr} (h : discardedRow k w = some i) (s : State) :
    exec i s = .next (discardWord s) := by
  unfold discardedRow at h
  split at h
  · injection h with h; subst h; rfl
  · unfold unrecognisedRow at h
    split at h
    all_goals first
      | injection h with h; subst h; rfl
      | cases h

/-- What the framer does with a word (41_framer_queue R161). -/
theorem framerWrite_eq (w : Word) (s : State) :
    framerWrite w s = .next (if s.framer.need = 0 ∧ cmdWords s.cfg w = 0 then discardWord s else acceptWord w s) := by
  unfold framerWrite
  split
  · cases hr : discardedRow s.cfg w with
    | some i => exact exec_discarded hr s
    | none => rfl
  · rfl

/-- What a write to `CONTROL` does (40_register_interface R141 to R147). -/
theorem controlWrite_cases (v : Word) (s : State) :
    (v = s.cfg.ctrl.start ∧ controlWrite v s = execCtrlStart s) ∨ (v = s.cfg.ctrl.stop ∧ controlWrite v s = execCtrlStop s) ∨
    (v = s.cfg.ctrl.reset ∧ controlWrite v s = execCtrlReset s) ∨
    (v = s.cfg.ctrl.resetEngine ∧ controlWrite v s = execCtrlResetEngine s) ∨
    ((v ≠ s.cfg.ctrl.start ∧ v ≠ s.cfg.ctrl.stop ∧ v ≠ s.cfg.ctrl.reset ∧ v ≠ s.cfg.ctrl.resetEngine) ∧
      controlWrite v s = .next s) := by
  unfold controlWrite decodeControl
  by_cases h1 : v = s.cfg.ctrl.start
  · simp [h1, exec]
  · by_cases h2 : v = s.cfg.ctrl.stop
    · exact .inr (.inl ⟨h2, by simp only [if_neg h1, if_pos h2]; rfl⟩)
    · by_cases h3 : v = s.cfg.ctrl.reset
      · exact .inr (.inr (.inl ⟨h3, by simp only [if_neg h1, if_neg h2, if_pos h3]; rfl⟩))
      · by_cases h4 : v = s.cfg.ctrl.resetEngine
        · exact .inr (.inr (.inr (.inl ⟨h4, by simp only [if_neg h1, if_neg h2, if_neg h3, if_pos h4]; rfl⟩)))
        · simp [h1, h2, h3, h4]

/-- The instruction is one of the five commands (30_encoding R91). -/
abbrev IsCommand (i : Instr) : Prop :=
  (∃ d key, i = .key128 d key) ∨ (∃ d key, i = .key192 d key) ∨ (∃ d key, i = .key256 d key) ∨ (∃ d ws, i = .iv d ws) ∨
  (∃ d, i = .data d) ∨ (∃ d, i = .storeIv d) ∨ (∃ d, i = .flag d)

/-- Words whose descriptor is a command decode to a command. -/
theorem isCommand_of_decode {k : Cfg} {w : Word} {rest : List Word} {i : Instr} (hw : cmdWords k w ≠ 0)
    (h : decodeCommand k (w :: rest) = some i) : IsCommand i := by
  rw [decodeCommand, decodeAs] at h
  split at h
  · cases hd : descriptor k w with
    | discarded => exact absurd (cmdWords_of_discarded hd) hw
    | key len => rw [hd] at h; cases len <;> (obtain rfl := Option.some.inj h; simp [IsCommand])
    | iv | data | storeIv | flag => rw [hd] at h; obtain rfl := Option.some.inj h; simp [IsCommand]
  · cases h

/-- What an engine step can do (42_engine_commands R200): complete, run the unrecognised arm, run the in-flight instruction, acknowledge,
dequeue, or stay. -/
theorem engineStep_cases {s t : State} (h : engineStep s = .next t) :
    (∃ c, s.inflight = some c ∧ c.phase = .executed ∧ t = complete c.cmd s) ∨
    (∃ c w rest, s.inflight = some c ∧ c.phase = .fetched ∧ c.cmd.words = w :: rest ∧ cmdWords s.cfg w = 0 ∧ t = unrecognisedArm s) ∨
    (∃ c i, s.inflight = some c ∧ c.phase ≠ .executed ∧ decodeCommand s.cfg c.cmd.words = some i ∧ IsCommand i ∧
      phaseFits i c.phase = true ∧ exec i s = .next t) ∨
    (s.inflight = none ∧ s.stopReq = true ∧ t = acknowledge s) ∨
    (∃ c rest, s.inflight = none ∧ s.stopReq = false ∧ s.running = true ∧ s.queue = c :: rest ∧ t = dequeue c rest s) ∨
    (s.inflight = none ∧ s.stopReq = false ∧ (s.running = false ∨ s.queue = []) ∧ t = s) := by
  unfold engineStep at h
  split at h
  · rename_i c hc
    split at h
    · rename_i hp
      injection h with h
      exact .inl ⟨c, hc, hp, h.symm⟩
    · rename_i hp
      unfold engineExecute at h
      split at h
      · cases h
      · rename_i w rest hw
        split at h
        · rename_i h0
          split at h
          · rename_i hf
            injection h with h
            exact .inr (.inl ⟨c, w, rest, hc, hf, hw, h0, h.symm⟩)
          · cases h
        · rename_i h0
          split at h
          · rename_i i hi
            split at h
            · rename_i hf
              exact .inr (.inr (.inl ⟨c, i, hc, hp, by rw [hw]; exact hi, isCommand_of_decode h0 hi, hf, h⟩))
            · cases h
          · cases h
  · rename_i hc
    split at h
    · rename_i hs
      injection h with h
      exact .inr (.inr (.inr (.inl ⟨hc, hs, h.symm⟩)))
    · rename_i hs
      have hs : s.stopReq = false := by simpa using hs
      split at h
      · rename_i hr
        split at h
        · rename_i c rest hq
          injection h with h
          exact .inr (.inr (.inr (.inr (.inl ⟨c, rest, hc, hs, hr, hq, h.symm⟩))))
        · rename_i hq
          injection h with h
          exact .inr (.inr (.inr (.inr (.inr ⟨hc, hs, .inr hq, h.symm⟩))))
      · rename_i hr
        injection h with h
        exact .inr (.inr (.inr (.inr (.inr ⟨hc, hs, .inl (by simpa using hr), h.symm⟩))))

/-- What a register access that goes on does (40_register_interface R132, R135 to R139). -/
theorem hostAccess_cases {op : HostOp} {s t : State} (h : hostAccess op s = .next t) :
    (∃ off r, op = .regRead off 32 ∧ regAt s.cfg off = some r ∧ t = emit (.regRead off (readReg r s)) s) ∨
    (∃ off v r, op = .regWrite off 32 v ∧ regAt s.cfg off = some r ∧ writeReg r v s = .next t) := by
  have hacc : ∀ {off width : Nat} {r : Reg}, accessReg s.cfg off width = .ok r → width = 32 ∧ regAt s.cfg off = some r := by
    intro off width r hr
    unfold accessReg at hr
    split at hr
    · cases hr
    · rename_i hw
      split at hr
      · cases hr
      · split at hr
        · rename_i r' hr'
          injection hr with hr
          exact ⟨by simpa using hw, hr ▸ hr'⟩
        · cases hr
  unfold hostAccess at h
  split at h
  · rename_i off width
    split at h
    · rename_i r hr
      obtain ⟨rfl, hat⟩ := hacc hr
      injection h with h
      exact .inl ⟨off, r, rfl, hat, h.symm⟩
    · cases h
  · rename_i off width v
    split at h
    · rename_i r hr
      obtain ⟨rfl, hat⟩ := hacc hr
      exact .inr ⟨off, v, r, rfl, hat, h⟩
    · cases h

/-- What a register write does: the store, the action, or nothing. -/
theorem writeReg_cases (r : Reg) (v : Word) (s : State) :
    (r = .control ∧ writeReg r v s = controlWrite v s) ∨ (r = .commandFifo ∧ writeReg r v s = framerWrite v s) ∨
    (r = .intStatus ∧ writeReg r v s = .next (clearStatus v s)) ∨
    (r = .intEnable ∧ writeReg r v s = .next (irqUpdate { s with intEnable := v })) ∨
    (r = .watermarks ∧ writeReg r v s = .next { s with watermarks := v }) ∨
    ((r = .keyId ∨ r = .commandFifoStatus ∨ r = .flagCommand) ∧ writeReg r v s = .next s) := by
  cases r <;> simp [writeReg]

/-- What a step can do: an engine step, a register access of a host that is not held, or another master's byte. -/
theorem step_cases {s t : State} (h : step s = .next t) :
    (∃ ev, engineStep { s with events := ev } = .next t) ∨
    (∃ op rest, s.events = .host op :: rest ∧ s.pending = .none ∧ hostAccess op { s with events := rest } = .next t) ∨
    (∃ a rest, s.events = .busRead a :: rest ∧ inDestination a { s with events := rest } = false ∧
      t = emit (.busRead a (s.mem.read a.toNat)) { s with events := rest }) ∨
    (∃ a b rest, s.events = .busWrite a b :: rest ∧ inDestination a { s with events := rest } = false ∧
      inSource a { s with events := rest } = false ∧ t = { s with events := rest, mem := s.mem.write a.toNat b }) := by
  unfold step at h
  split at h
  · rename_i he
    refine .inl ⟨[], ?_⟩
    rw [← h]; congr 1; rw [← he]
  · exact .inl ⟨_, h⟩
  · rename_i op rest he
    split at h
    · rename_i hp
      exact .inr (.inl ⟨op, rest, he, hp, h⟩)
    · exact .inl ⟨s.events, h⟩
  · rename_i a rest he
    unfold busRead at h
    split at h
    · cases h
    · rename_i hd
      injection h with h
      exact .inr (.inr (.inl ⟨a, rest, he, by simpa using hd, h.symm⟩))
  · rename_i a b rest he
    unfold busWrite at h
    split at h
    · cases h
    · rename_i hd
      injection h with h
      simp only [Bool.or_eq_true, not_or, Bool.not_eq_true] at hd
      exact .inr (.inr (.inr ⟨a, b, rest, he, hd.1, hd.2, h.symm⟩))

/-- A KEY command of a length class (30_encoding R93, R94). -/
abbrev IsKey (len : KeyLen) (d : KeyDesc) (key : List Word) (i : Instr) : Prop :=
  (len = .k128 ∧ i = .key128 d key) ∨ (len = .k192 ∧ i = .key192 d key) ∨ (len = .k256 ∧ i = .key256 d key)

/-- The execute steps of the five commands, as functions of the state (42_engine_commands R181, R186, R187, R191, R192, R195, R197). -/
theorem exec_command_cases {i : Instr} {s t : State} (hi : IsCommand i) (h : exec i s = .next t) :
    (∃ len d key, IsKey len d key i ∧ t = keyExecute len d key s) ∨
    (∃ d ws, i = .iv d ws ∧ t = ivExecute d ws s) ∨
    (∃ d, i = .data d ∧ s.phase = .fetched ∧ t = dataExecute d s) ∨
    (∃ d, i = .data d ∧ s.phase = .dataLoaded ∧ t = dataTransform d s) ∨
    (∃ d, i = .data d ∧ s.phase = .dataXformed ∧ t = dataWriteBack d s) ∨
    (∃ d, i = .data d ∧ s.phase = .executed ∧ t = s) ∨
    (∃ d, i = .storeIv d ∧ t = storeIvExecute d s) ∨
    (∃ d, i = .flag d ∧ t = flagExecute d s) := by
  rcases hi with ⟨d, key, rfl⟩ | ⟨d, key, rfl⟩ | ⟨d, key, rfl⟩ | ⟨d, ws, rfl⟩ | ⟨d, rfl⟩ | ⟨d, rfl⟩ | ⟨d, rfl⟩
  · injection h with h; exact .inl ⟨.k128, d, key, .inl ⟨rfl, rfl⟩, h.symm⟩
  · injection h with h; exact .inl ⟨.k192, d, key, .inr (.inl ⟨rfl, rfl⟩), h.symm⟩
  · injection h with h; exact .inl ⟨.k256, d, key, .inr (.inr ⟨rfl, rfl⟩), h.symm⟩
  · injection h with h; exact .inr (.inl ⟨d, ws, rfl, h.symm⟩)
  · injection h with h
    split at h
    · rename_i hp; exact .inr (.inr (.inl ⟨d, rfl, hp, h.symm⟩))
    · rename_i hp; exact .inr (.inr (.inr (.inl ⟨d, rfl, hp, h.symm⟩)))
    · rename_i hp; exact .inr (.inr (.inr (.inr (.inl ⟨d, rfl, hp, h.symm⟩))))
    · rename_i hp; exact .inr (.inr (.inr (.inr (.inr (.inl ⟨d, rfl, hp, h.symm⟩)))))
  · injection h with h; exact .inr (.inr (.inr (.inr (.inr (.inr (.inl ⟨d, rfl, h.symm⟩))))))
  · injection h with h; exact .inr (.inr (.inr (.inr (.inr (.inr (.inr ⟨d, rfl, h.symm⟩))))))

/-- An access reaches the register whose offset it is at (R130). -/
theorem regAt_some {k : Cfg} {off : Nat} {r : Reg} (h : regAt k off = some r) : k.regmap.offset r = off := by
  simpa using List.find?_some h

/-- Under a register map that makes sense, the register at a register's offset is that register. -/
theorem regAt_offset {k : Cfg} (h : k.regmap.Wf) (r : Reg) : regAt k (k.regmap.offset r) = some r := by
  have hm : r ∈ Reg.all := by cases r <;> decide
  cases hr : regAt k (k.regmap.offset r) with
  | none => exact absurd (List.find?_eq_none.1 hr r hm) (by simp)
  | some r' =>
    have h' : r' ∈ Reg.all := by cases r' <;> decide
    rw [List.inj_on_of_nodup_map h.1 h' hm (regAt_some hr)]

/-- An access to a register's offset reaches it (R130, R133). -/
theorem accessReg_offset {k : Cfg} (h : k.regmap.Wf) (r : Reg) : accessReg k (k.regmap.offset r) 32 = .ok r := by
  have hm : r ∈ Reg.all := by cases r <;> decide
  simp [accessReg, regAt_offset h r, h.2.1 r hm]

/-- What a register write does to the state, form by form (40_register_interface R135 to R147, 41_framer_queue R161). -/
theorem hostWrite_cases {off : Nat} {r : Reg} {v : Word} {s t : State} (hr : regAt s.cfg off = some r) (h : writeReg r v s = .next t) :
    (off = s.cfg.regmap.commandFifo ∧ s.framer.need = 0 ∧ cmdWords s.cfg v = 0 ∧ t = discardWord s) ∨
    (off = s.cfg.regmap.commandFifo ∧ ¬ (s.framer.need = 0 ∧ cmdWords s.cfg v = 0) ∧ t = acceptWord v s) ∨
    (off = s.cfg.regmap.control ∧ v = s.cfg.ctrl.start ∧ t = { s with running := true }) ∨
    (off = s.cfg.regmap.control ∧ v = s.cfg.ctrl.stop ∧ s.running = true ∧ t = holdHost .stop s) ∨
    (off = s.cfg.regmap.control ∧ v = s.cfg.ctrl.reset ∧ t = drain s) ∨
    (off = s.cfg.regmap.control ∧ v = s.cfg.ctrl.resetEngine ∧ s.running = true ∧ t = holdHost .resetEngine s) ∨
    (off = s.cfg.regmap.control ∧ v = s.cfg.ctrl.resetEngine ∧ s.running = false ∧ t = fullReset s) ∨
    (off = s.cfg.regmap.intStatus ∧ t = clearStatus v s) ∨
    (off = s.cfg.regmap.intEnable ∧ t = irqUpdate { s with intEnable := v }) ∨
    (off = s.cfg.regmap.watermarks ∧ t = { s with watermarks := v }) ∨
    t = s := by
  have ho : ∀ {r' : Reg}, r = r' → off = s.cfg.regmap.offset r' := fun e => e ▸ (regAt_some hr).symm
  rcases writeReg_cases r v s with ⟨e, hw⟩ | ⟨e, hw⟩ | ⟨e, hw⟩ | ⟨e, hw⟩ | ⟨e, hw⟩ | ⟨-, hw⟩
  · have ho := ho e
    rw [hw] at h
    rcases controlWrite_cases v s with ⟨hv, hc⟩ | ⟨hv, hc⟩ | ⟨hv, hc⟩ | ⟨hv, hc⟩ | ⟨-, hc⟩
    · rw [hc] at h; injection h with h
      exact .inr (.inr (.inl ⟨ho, hv, h.symm⟩))
    · rw [hc] at h; injection h with h
      cases hs : s.running
      · rw [if_neg (by simp [hs])] at h
        iterate 10 refine .inr ?_
        exact h.symm
      · rw [if_pos hs] at h
        exact .inr (.inr (.inr (.inl ⟨ho, hv, rfl, h.symm⟩)))
    · rw [hc] at h; injection h with h
      exact .inr (.inr (.inr (.inr (.inl ⟨ho, hv, h.symm⟩))))
    · rw [hc] at h; injection h with h
      cases hs : s.running
      · rw [if_neg (by simp [hs])] at h
        exact .inr (.inr (.inr (.inr (.inr (.inr (.inl ⟨ho, hv, rfl, h.symm⟩))))))
      · rw [if_pos hs] at h
        exact .inr (.inr (.inr (.inr (.inr (.inl ⟨ho, hv, rfl, h.symm⟩)))))
    · rw [hc] at h; injection h with h
      iterate 10 refine .inr ?_
      exact h.symm
  · have ho := ho e
    rw [hw, framerWrite_eq] at h
    injection h with h
    split at h
    · rename_i hd; exact .inl ⟨ho, hd.1, hd.2, h.symm⟩
    · rename_i hd; exact .inr (.inl ⟨ho, hd, h.symm⟩)
  · rw [hw] at h; injection h with h
    iterate 7 refine .inr ?_
    exact .inl ⟨ho e, h.symm⟩
  · rw [hw] at h; injection h with h
    iterate 8 refine .inr ?_
    exact .inl ⟨ho e, h.symm⟩
  · rw [hw] at h; injection h with h
    iterate 9 refine .inr ?_
    exact .inl ⟨ho e, h.symm⟩
  · rw [hw] at h; injection h with h
    iterate 10 refine .inr ?_
    exact h.symm

/-! ### The steps with two outcomes -/

/-- The execute step of KEY (42_engine_commands R181, R183). -/
theorem keyExecute_cases (len : KeyLen) (d : KeyDesc) (ws : List Word) (s : State) :
    (d.keySelect = s.cfg.keyselSoftware ∧
      keyExecute len d ws s = setPhase .executed (setCtx d.ctx (keyContext s.cfg.keyselSoftware len d ws) s)) ∨
    (d.keySelect ≠ s.cfg.keyselSoftware ∧
      keyExecute len d ws s = setPhase .executed (raise (.keyDisabled d.ctx) (setCtx d.ctx (keyContext s.cfg.keyselSoftware len d ws) s))) := by
  by_cases h : d.keySelect = s.cfg.keyselSoftware
  · exact .inl ⟨h, by simp [keyExecute, h]⟩
  · exact .inr ⟨h, by simp [keyExecute, h]⟩

/-- The execute step of FLAG (R197). -/
theorem flagExecute_cases (d : FlagFields) (s : State) :
    (d.sendInt = true ∧ flagExecute d s = setPhase .executed (raise .flagCommand (storeFlag d s))) ∨
    (d.sendInt = false ∧ flagExecute d s = setPhase .executed (storeFlag d s)) := by
  cases h : d.sendInt
  · exact .inr ⟨rfl, by simp [flagExecute, h]⟩
  · exact .inl ⟨rfl, by simp [flagExecute, h]⟩

/-- The acknowledgement (R203). -/
theorem acknowledge_cases (s : State) :
    (s.pending = .resetEngine ∧
      acknowledge s = { fullReset { s with running := false, stopReq := false } with pending := .none }) ∨
    (s.pending ≠ .resetEngine ∧ acknowledge s = { s with running := false, stopReq := false, pending := .none }) := by
  by_cases h : s.pending = .resetEngine
  · exact .inl ⟨h, if_pos h⟩
  · exact .inr ⟨h, if_neg h⟩

/-! ### What the DMA steps can do -/

/-- A state whose oracle has answered, or not, some more: answers, free values and trace are the environment's. -/
abbrev AfterDma (s s' : State) : Prop := ∃ a f tr, s' = { s with dmaAnswers := a, freeCount := f, trace := tr }

/-- The load: a scratch buffer of the command's length, or waiting (42_engine_commands R190). -/
theorem dataLoad_cases (d : DataFields) (s : State) :
    ∃ s', AfterDma s s' ∧
      ((∃ b, b.length = dataLength d ∧ dataLoad d s = setBuffer b .dataLoaded s') ∨ dataLoad d s = s') := by
  obtain ⟨a, f, tr, h⟩ := memRead_state (dataSrc d) (dataLength d) s
  refine ⟨_, ⟨a, f, tr, rfl⟩, ?_⟩
  unfold dataLoad
  have hl := @memRead_length (dataSrc d) (dataLength d) s
  generalize memRead (dataSrc d) (dataLength d) s = r at h hl
  obtain ⟨o, s'⟩ := r
  subst h
  cases o with
  | none => exact .inr rfl
  | some b => exact .inl ⟨b, hl rfl, rfl⟩

/-- The execute step of DATA (R187). -/
theorem dataExecute_cases (d : DataFields) (s : State) :
    (dataLength d % 16 ≠ 0 ∧ dataExecute d s = setPhase .executed (raise .invalidDataLength s)) ∨
    (dataLength d % 16 = 0 ∧ ¬ ((s.ctx d.keyCtx).enabled = true ∧ (s.ctx d.keyCtx).handle = .active) ∧
      dataExecute d s = setPhase .executed (raise (.keyDisabled d.keyCtx) s)) ∨
    (dataTouches d s = true ∧ dataExecute d s = dataLoad d s) := by
  by_cases h1 : dataLength d % 16 = 0
  · by_cases h2 : (s.ctx d.keyCtx).enabled = true ∧ (s.ctx d.keyCtx).handle = .active
    · refine .inr (.inr ⟨?_, ?_⟩)
      · simp [dataTouches, lengthOk, h1, ctxLive, h2]
      · simp [dataExecute, lengthOk, h1, ctxLive, h2]
    · refine .inr (.inl ⟨h1, h2, ?_⟩)
      have : ctxLive (s.ctx d.keyCtx) = false := by
        rw [Bool.eq_false_iff]; intro h; exact h2 (by simpa [ctxLive] using h)
      simp [dataExecute, lengthOk, h1, this]
  · exact .inl ⟨h1, by simp [dataExecute, lengthOk, h1]⟩

/-- The write back: at most as many bytes from the destination on, or waiting (R192). -/
theorem dataWriteBack_cases (d : DataFields) (s : State) :
    ∃ s' bs, AfterDma s s' ∧ bs.length ≤ dataLength d ∧
      (dataWriteBack d s = setPhase .executed { s' with mem := s.mem.writeBytes (dataDst d).toNat bs } ∨
        dataWriteBack d s = { s' with mem := s.mem.writeBytes (dataDst d).toNat bs }) := by
  obtain ⟨bs, a, f, tr, hb, h⟩ := memWrite_state (dataDst d) (dataLength d) s.scratch s
  refine ⟨_, bs, ⟨a, f, tr, rfl⟩, hb, ?_⟩
  unfold dataWriteBack
  generalize memWrite (dataDst d) (dataLength d) s.scratch s = r at h
  obtain ⟨o, s'⟩ := r
  subst h
  cases o with
  | true => exact .inl rfl
  | false => exact .inr rfl

/-- STORE_IV: at most 16 bytes from the destination on, or waiting (R195). -/
theorem storeIvExecute_cases (d : StoreIvFields) (s : State) :
    ∃ s' bs, AfterDma s s' ∧ bs.length ≤ 16 ∧
      (storeIvExecute d s = setPhase .executed { s' with mem := s.mem.writeBytes (storeIvDst d).toNat bs } ∨
        storeIvExecute d s = { s' with mem := s.mem.writeBytes (storeIvDst d).toNat bs }) := by
  obtain ⟨bs, a, f, tr, hb, h⟩ := memWrite_state (storeIvDst d) 16 (storeIvBytes d s) s
  unfold storeIvExecute
  generalize memWrite (storeIvDst d) 16 (storeIvBytes d s) s = r at h
  obtain ⟨o, s'⟩ := r
  subst h
  cases o with
  | true => exact ⟨_, bs, ⟨a, f + storeIvDrawn d, tr, rfl⟩, hb, .inl rfl⟩
  | false => exact ⟨_, bs, ⟨a, f, tr, rfl⟩, hb, .inr rfl⟩

/-- STORE_IV takes its bytes from the slot its selector names (R195). -/
theorem storeIv_of_slot {d : StoreIvFields} {k : Fin 4} (h : d.slot.toNat = k.val) (s : State) :
    storeIvBytes d s = s.iv k ∧ storeIvDrawn d = 0 := by
  have hs : slotOf d.slot = some k := by
    unfold slotOf; rw [dif_pos (by omega)]; exact congrArg some (Fin.ext h)
  exact ⟨by rw [storeIvBytes, hs], by rw [storeIvDrawn, hs]; rfl⟩

/-- It writes 16 bytes, slots of 16 bytes given. -/
theorem length_storeIvBytes (d : StoreIvFields) {s : State} (h : ∀ k, (s.iv k).length = 16) : (storeIvBytes d s).length = 16 := by
  unfold storeIvBytes
  split
  · exact h _
  · exact length_draw 16 s

end Sys2Proof.Machine
end

