-- ==== Sys2Proof/Laws/PerInstr.lean ====
section
/-! SUPPORT. Statements made of every instruction, one lemma for each constructor. `EncodedLength`: the encoder writes as many words as the
framer takes for the descriptor it writes, one for a word that is discarded and for a control code (30_encoding R92, R107, R109, R112). -/

namespace Sys2Proof.Laws.EncodedLength

/-- The words of a well-formed instruction are as many as its first word says. -/
def Statement (i : Instr) : Prop :=
  ∀ k : Cfg, k.LayoutWf → i.wf k = true →
    ∃ w rest, encode k i = w :: rest ∧
      match i.space with
      | .commandFifo => max 1 (cmdWords k w) = rest.length + 1
      | .control => rest = []

theorem key128 (d : KeyDesc) (key : List Word) : Statement (.key128 d key) := by
  intro k hk h
  simp only [Instr.wf, keyWf, KeyLen.words, Bool.and_eq_true, beq_iff_eq] at h
  refine ⟨_, _, rfl, ?_⟩
  simp only [Instr.space, cmdWords, descriptor_keyWord0 hk _ h.2.2, Descriptor.words, KeyLen.words, h.1]; rfl

theorem key192 (d : KeyDesc) (key : List Word) : Statement (.key192 d key) := by
  intro k hk h
  simp only [Instr.wf, keyWf, KeyLen.words, Bool.and_eq_true, beq_iff_eq] at h
  refine ⟨_, _, rfl, ?_⟩
  simp only [Instr.space, cmdWords, descriptor_keyWord0 hk _ h.2.2, Descriptor.words, KeyLen.words, h.1]; rfl

theorem key256 (d : KeyDesc) (key : List Word) : Statement (.key256 d key) := by
  intro k hk h
  simp only [Instr.wf, keyWf, KeyLen.words, Bool.and_eq_true, beq_iff_eq] at h
  refine ⟨_, _, rfl, ?_⟩
  simp only [Instr.space, cmdWords, descriptor_keyWord0 hk _ h.2.2, Descriptor.words, KeyLen.words, h.1]; rfl

theorem keyReserved (lo hi : BitVec 16) : Statement (.keyReserved lo hi) := by
  intro k hk h
  refine ⟨_, _, rfl, ?_⟩
  simp only [Instr.space, cmdWords, (descriptor_keyReservedWord0 hk h).1, Descriptor.words]; rfl

theorem iv (d : IvDesc) (words : List Word) : Statement (.iv d words) := by
  intro k hk h
  simp only [Instr.wf, Bool.and_eq_true, beq_iff_eq] at h
  refine ⟨_, _, rfl, ?_⟩
  simp only [Instr.space, cmdWords, descriptor_ivWord0 hk h.2, Descriptor.words, h.1]; rfl

theorem data (d : DataFields) : Statement (.data d) := by
  intro k hk h
  simp only [Instr.wf, Bool.and_eq_true] at h
  obtain ⟨rest, he, hl⟩ := cons_of_length (ws := encodeData k d) (length_packWords ..) (formats_pos hk).1
  refine ⟨_, rest, he, ?_⟩
  simp only [Instr.space, cmdWords, descriptor_encodeData hk h.2, Descriptor.words]; omega

theorem storeIv (d : StoreIvFields) : Statement (.storeIv d) := by
  intro k hk h
  simp only [Instr.wf, Bool.and_eq_true] at h
  obtain ⟨rest, he, hl⟩ := cons_of_length (ws := encodeStoreIv k d) (length_packWords ..) (formats_pos hk).2
  refine ⟨_, rest, he, ?_⟩
  simp only [Instr.space, cmdWords, descriptor_encodeStoreIv hk h.2, Descriptor.words]; omega

theorem flag (d : FlagFields) : Statement (.flag d) := by
  intro k hk h
  simp only [Instr.wf, Bool.and_eq_true] at h
  refine ⟨_, _, rfl, ?_⟩
  simp only [Instr.space, cmdWords, descriptor_flagWord0 hk h.2, Descriptor.words]; rfl

/-- A word with an unrecognised opcode is one word. -/
theorem unrec {k : Cfg} (hk : k.LayoutWf) {op ignored : Word} (h : unrecWf k op ignored = true) :
    ∃ w rest, [unrecWord0 k op ignored] = w :: rest ∧ max 1 (cmdWords k w) = rest.length + 1 := by
  refine ⟨_, _, rfl, ?_⟩
  simp only [cmdWords, (descriptor_unrecWord0 hk h).1, Descriptor.words]; rfl

theorem unrec0 (ignored : Word) : Statement (.unrec0 ignored) := fun _ hk h => unrec hk h

theorem unrec3 (ignored : Word) : Statement (.unrec3 ignored) := fun _ hk h => unrec hk h

theorem unrec4 (ignored : Word) : Statement (.unrec4 ignored) := fun _ hk h => unrec hk h

theorem unrec7 (ignored : Word) : Statement (.unrec7 ignored) := fun _ hk h => unrec hk h

theorem unrec9 (ignored : Word) : Statement (.unrec9 ignored) := fun _ hk h => unrec hk h

theorem unrec10 (ignored : Word) : Statement (.unrec10 ignored) := fun _ hk h => unrec hk h

theorem unrec11 (ignored : Word) : Statement (.unrec11 ignored) := fun _ hk h => unrec hk h

theorem unrec12 (ignored : Word) : Statement (.unrec12 ignored) := fun _ hk h => unrec hk h

theorem unrec13 (ignored : Word) : Statement (.unrec13 ignored) := fun _ hk h => unrec hk h

theorem unrec14 (ignored : Word) : Statement (.unrec14 ignored) := fun _ hk h => unrec hk h

theorem unrec15 (ignored : Word) : Statement (.unrec15 ignored) := fun _ hk h => unrec hk h

theorem ctrlStart : Statement .ctrlStart := fun _ _ _ => ⟨_, _, rfl, rfl⟩

theorem ctrlStop : Statement .ctrlStop := fun _ _ _ => ⟨_, _, rfl, rfl⟩

theorem ctrlReset : Statement .ctrlReset := fun _ _ _ => ⟨_, _, rfl, rfl⟩

theorem ctrlResetEngine : Statement .ctrlResetEngine := fun _ _ _ => ⟨_, _, rfl, rfl⟩

end Sys2Proof.Laws.EncodedLength
end

