-- ==== Sys2Proof/Laws/Step.lean ====
section
/-! SUPPORT. Everything a step can do, said once: every next state is one of these forms. A claim about every step is then one
`cases step_form h`. -/

namespace Sys2Proof.Machine

/-- The forms of a next state. `ev` and `rest` are the events that are left. -/
inductive StepForm (s : State) : State → Prop
  /-- 42_engine_commands R201. -/
  | complete (ev c) (hi : s.inflight = some c) (hp : c.phase = .executed) :
      StepForm s (Machine.complete c.cmd { s with events := ev })
  /-- 42_engine_commands R199. -/
  | unrecognised (ev c w rest) (hi : s.inflight = some c) (hp : c.phase = .fetched) (hw : c.cmd.words = w :: rest)
      (h0 : cmdWords s.cfg w = 0) : StepForm s (unrecognisedArm { s with events := ev })
  /-- 42_engine_commands R181. -/
  | key (ev c i len d ws) (hi : s.inflight = some c) (hp : c.phase ≠ .executed) (hd : decodeCommand s.cfg c.cmd.words = some i)
      (hf : phaseFits i c.phase = true) (hk : IsKey len d ws i) : StepForm s (keyExecute len d ws { s with events := ev })
  /-- 42_engine_commands R186. -/
  | iv (ev c d ws) (hi : s.inflight = some c) (hp : c.phase ≠ .executed) (hd : decodeCommand s.cfg c.cmd.words = some (.iv d ws))
      (hf : phaseFits (.iv d ws) c.phase = true) : StepForm s (ivExecute d ws { s with events := ev })
  /-- 42_engine_commands R187. -/
  | dataFetched (ev c d) (hi : s.inflight = some c) (hd : decodeCommand s.cfg c.cmd.words = some (.data d)) (hp : c.phase = .fetched) :
      StepForm s (dataExecute d { s with events := ev })
  /-- 42_engine_commands R191. -/
  | dataLoaded (ev c d) (hi : s.inflight = some c) (hd : decodeCommand s.cfg c.cmd.words = some (.data d))
      (hp : c.phase = .dataLoaded) : StepForm s (dataTransform d { s with events := ev })
  /-- 42_engine_commands R192. -/
  | dataXformed (ev c d) (hi : s.inflight = some c) (hd : decodeCommand s.cfg c.cmd.words = some (.data d))
      (hp : c.phase = .dataXformed) : StepForm s (dataWriteBack d { s with events := ev })
  /-- 42_engine_commands R195. -/
  | storeIv (ev c d) (hi : s.inflight = some c) (hp : c.phase ≠ .executed) (hd : decodeCommand s.cfg c.cmd.words = some (.storeIv d))
      (hf : phaseFits (.storeIv d) c.phase = true) : StepForm s (storeIvExecute d { s with events := ev })
  /-- 42_engine_commands R197. -/
  | flag (ev c d) (hi : s.inflight = some c) (hp : c.phase ≠ .executed) (hd : decodeCommand s.cfg c.cmd.words = some (.flag d))
      (hf : phaseFits (.flag d) c.phase = true) : StepForm s (flagExecute d { s with events := ev })
  /-- 42_engine_commands R203. -/
  | acknowledge (ev) (hi : s.inflight = none) (hs : s.stopReq = true) : StepForm s (Machine.acknowledge { s with events := ev })
  /-- 42_engine_commands R180. -/
  | dequeue (ev c rest) (hi : s.inflight = none) (hs : s.stopReq = false) (hr : s.running = true) (hq : s.queue = c :: rest) :
      StepForm s (Machine.dequeue c rest { s with events := ev })
  /-- 42_engine_commands R202, and a register write that does nothing (40_register_interface R138, R143, R147). -/
  | idle (ev) : StepForm s { s with events := ev }
  /-- 40_register_interface R132. -/
  | read (rest off r) (hp : s.pending = .none) :
      StepForm s (emit (.regRead off (readReg r { s with events := rest })) { s with events := rest })
  /-- 41_framer_queue R162. -/
  | discard (rest w) (he : s.events = .host (.regWrite s.cfg.regmap.commandFifo 32 w) :: rest) (hp : s.pending = .none)
      (hn : s.framer.need = 0) (h0 : cmdWords s.cfg w = 0) : StepForm s (discardWord { s with events := rest })
  /-- 41_framer_queue R163 to R165. -/
  | accept (rest w) (he : s.events = .host (.regWrite s.cfg.regmap.commandFifo 32 w) :: rest) (hp : s.pending = .none)
      (hn : ¬ (s.framer.need = 0 ∧ cmdWords s.cfg w = 0)) : StepForm s (acceptWord w { s with events := rest })
  /-- 40_register_interface R142. -/
  | start (rest) (he : s.events = .host (.regWrite s.cfg.regmap.control 32 s.cfg.ctrl.start) :: rest) (hp : s.pending = .none) :
      StepForm s { s with events := rest, running := true }
  /-- 40_register_interface R143, R146, the engine running. -/
  | hold (rest p) (hp : s.pending = .none) (hr : s.running = true) (hn : p ≠ .none) :
      StepForm s (holdHost p { s with events := rest })
  /-- 40_register_interface R145. -/
  | drain (rest) (hp : s.pending = .none) : StepForm s (Machine.drain { s with events := rest })
  /-- 40_register_interface R146, the engine stopped. -/
  | fullReset (rest) (he : s.events = .host (.regWrite s.cfg.regmap.control 32 s.cfg.ctrl.resetEngine) :: rest) (hp : s.pending = .none)
      (hr : s.running = false) : StepForm s (Machine.fullReset { s with events := rest })
  /-- 40_register_interface R135. -/
  | clearStatus (rest v) (he : s.events = .host (.regWrite s.cfg.regmap.intStatus 32 v) :: rest) (hp : s.pending = .none) :
      StepForm s (Machine.clearStatus v { s with events := rest })
  /-- 40_register_interface R136. -/
  | enable (rest v) (hp : s.pending = .none) : StepForm s (irqUpdate { s with events := rest, intEnable := v })
  /-- 40_register_interface R137. -/
  | watermarks (rest v) (hp : s.pending = .none) : StepForm s { s with events := rest, watermarks := v }
  /-- Another master reads a byte (20_memory R71). -/
  | busRead (rest a) : StepForm s (emit (.busRead a (s.mem.read a.toNat)) { s with events := rest })
  /-- Another master writes a byte (20_memory R71). -/
  | busWrite (rest a b) (hd : inDestination a s = false) (hs : inSource a s = false) :
      StepForm s { s with events := rest, mem := s.mem.write a.toNat b }

/-- Every next state is one of the forms. -/
theorem step_form {s t : State} (h : step s = .next t) : StepForm s t := by
  rcases step_cases h with ⟨ev, h⟩ | ⟨op, rest, he, hp, h⟩ | ⟨a, rest, -, -, rfl⟩ | ⟨a, b, rest, -, h1, h2, rfl⟩
  · rcases engineStep_cases h with ⟨c, h1, h2, rfl⟩ | ⟨c, w, rest, h1, h2, h3, h4, rfl⟩ | ⟨c, i, h1, h2, h3, h4, h5, h6⟩ |
      ⟨h1, h2, rfl⟩ | ⟨c, rest, h1, h2, h3, h4, rfl⟩ | ⟨-, -, -, rfl⟩
    · exact .complete ev c h1 h2
    · exact .unrecognised ev c w rest h1 h2 h3 h4
    · have hph : ({ s with events := ev } : State).phase = c.phase := by
        have : s.inflight = some c := h1
        simp [State.phase, this]
      rcases exec_command_cases h4 h6 with ⟨len, d, ws, hk, rfl⟩ | ⟨d, ws, rfl, rfl⟩ | ⟨d, rfl, hf, rfl⟩ | ⟨d, rfl, hl, rfl⟩ |
        ⟨d, rfl, hx, rfl⟩ | ⟨d, rfl, he, rfl⟩ | ⟨d, rfl, rfl⟩ | ⟨d, rfl, rfl⟩
      · exact .key ev c i len d ws h1 h2 h3 h5 hk
      · exact .iv ev c d ws h1 h2 h3 h5
      · exact .dataFetched ev c d h1 h3 (hph ▸ hf)
      · exact .dataLoaded ev c d h1 h3 (hph ▸ hl)
      · exact .dataXformed ev c d h1 h3 (hph ▸ hx)
      · exact absurd (hph ▸ he) h2
      · exact .storeIv ev c d h1 h2 h3 h5
      · exact .flag ev c d h1 h2 h3 h5
    · exact .acknowledge ev h1 h2
    · exact .dequeue ev c rest h1 h2 h3 h4
    · exact .idle ev
  · rcases hostAccess_cases h with ⟨off, r, rfl, hr, rfl⟩ | ⟨off, v, r, rfl, hr, h⟩
    · exact .read rest off r hp
    · rcases hostWrite_cases hr h with ⟨rfl, hn, h0, rfl⟩ | ⟨rfl, hn, rfl⟩ | hc | hc | hc | hc | hc | ⟨rfl, rfl⟩ | ⟨-, rfl⟩ | ⟨-, rfl⟩ | rfl
      · exact .discard rest v he hp hn h0
      · exact .accept rest v he hp hn
      · obtain ⟨rfl, rfl, rfl⟩ := hc; exact .start rest he hp
      · obtain ⟨-, -, hrun, rfl⟩ := hc; exact .hold rest _ hp hrun (by simp)
      · obtain ⟨-, -, rfl⟩ := hc; exact .drain rest hp
      · obtain ⟨-, -, hrun, rfl⟩ := hc; exact .hold rest _ hp hrun (by simp)
      · obtain ⟨rfl, rfl, hstop, rfl⟩ := hc; exact .fullReset rest he hp hstop
      · exact .clearStatus rest v he hp
      · exact .enable rest v hp
      · exact .watermarks rest v hp
      · exact .idle rest
  · exact .busRead rest a
  · exact .busWrite rest a b h1 h2

end Sys2Proof.Machine
end

