-- ==== Sys2Proof/Tests/Slice0.lean ====
section
/-! SUPPORT. Tests. Expected values are those of spec/95_test_vectors.md (V numbers) or are worked out by hand from the rule named. Then one
witness for the hypotheses of every statement of Obligations.lean. -/

set_option Elab.async false

namespace Sys2Proof.Tests

open Sys2Proof.Machine Sys2Proof.Safety

/-! ### Builders -/

/-- The state an outcome goes on with. -/
def after : Outcome → Option State
  | .next s => some s
  | _ => none

/-- The reason of a refusal. -/
def refusal : Outcome → Option Refusal
  | .refused r => some r
  | _ => none

/-- The reason of a fault. -/
def fault : Outcome → Option Fault
  | .fault r => some r
  | _ => none

/-- A byte string of `n` bytes written as one number, first byte most significant. -/
def bytes (n v : Nat) : List Byte := (List.range n).map fun i => BitVec.ofNat 8 (v >>> (8 * (n - 1 - i)))

/-- K128 of spec/95_test_vectors.md, as payload words. -/
def k128 : List Word := [0x16157E2B, 0xA6D2AE28, 0x8815F7AB, 0x3C4FCF09]

/-- K192. -/
def k192 : List Word := [0xF7B0738E, 0x52640EDA, 0x2BF310C8, 0xE5799080, 0xD2EAF862, 0x7B6B2C52]

/-- K256. -/
def k256 : List Word := [0x10EB3D60, 0xBE71CA15, 0xF0AE732B, 0x81777D85, 0x072C351F, 0xD708613B, 0xA310982D, 0xF4DF1409]

/-- IVA, as payload words. -/
def ivaWords : List Word := [0x03020100, 0x07060504, 0x0B0A0908, 0x0F0E0D0C]

/-- IVA. -/
def iva : List Byte := bytes 16 0x000102030405060708090A0B0C0D0E0F

/-- CTRA. -/
def ctra : List Byte := bytes 16 0xF0F1F2F3F4F5F6F7F8F9FAFBFCFDFEFF

/-- P1 and P2. -/
def p12 : List Byte := bytes 32 0x6BC1BEE22E409F96E93D7E117393172AAE2D8A571E03AC9C9EB76FAC45AF8E51

/-- The descriptor of V1: context 0, software key, encrypt, CBC, id 0x11. -/
def descV1 : KeyDesc := ⟨0, 0, false, true, 0, .cbc, 0x11, 0⟩

/-- The descriptor of V4: context 1, key-select 3, encrypt, CBC, id 7. -/
def descV4 : KeyDesc := ⟨1, 3, false, true, 0, .cbc, 7, 0⟩

/-- A context with a software key. -/
def live (len : KeyLen) (mode : BlockMode) (encrypt : Bool) (key : List Word) : Context :=
  keyContext 0 len ⟨0, 0, false, encrypt, 0, mode, 0, 0⟩ key

/-- The operands of V8: context 0, slot 0, 32 bytes from 0x1000 to 0x2000. -/
def dataV8 : DataFields := ⟨0, 0, 32, 0, 0, 0x1000, 0x2000, [0, 0, 0, 0]⟩

/-- The words of V8. -/
def wordsV8 : List Word := [0x00002005, 0x00000000, 0x00001000, 0x00002000]

/-- A running engine with a command in flight. -/
def flying (ws : List Word) (p : Phase) (b : List Byte) (s : State) : State :=
  { s with running := true, inflight := some ⟨⟨ws⟩, p, b⟩, depth := ws.length }

/-- V1 and V6 executed, P1 and P2 in memory at 0x1000, the oracle about to answer. -/
def ready (answers : List DmaAnswer) : State :=
  { State.reset with
    ctxs := ⟨keyContext 0 .k128 descV1 k128, Context.empty⟩
    ivs := ⟨iva, zeroIv, zeroIv, zeroIv⟩
    mem := Memory.writeBytes [] 0x1000 p12
    dmaAnswers := answers }

/-- V8 in flight in a phase. -/
def v8At (p : Phase) (b : List Byte) (answers : List DmaAnswer) : State := flying wordsV8 p b (ready answers)

/-! ### Well-formedness: a term each check refuses -/

theorem test_wf_refuses_short_key128 : Instr.wf Cfg.default (.key128 descV1 [1, 2, 3]) = false := by decide
theorem test_wf_refuses_long_key192 : Instr.wf Cfg.default (.key192 descV1 (0 :: k192)) = false := by decide
theorem test_wf_refuses_short_key256 : Instr.wf Cfg.default (.key256 descV1 k192) = false := by decide
theorem test_wf_refuses_empty_iv : Instr.wf Cfg.default (.iv ⟨0, 0⟩ []) = false := by decide
theorem test_wf_refuses_ignored_bit_in_a_field :
    [Instr.key128 { descV1 with ignored := 0x00010000 } k128, .keyReserved 0x0100 0, .iv ⟨0, 0x10⟩ k128,
      .data { dataV8 with ignored := [0x80000000, 0, 0, 0] }, .data { dataV8 with ignored := [0, 1, 0, 0] },
      .data { dataV8 with ignored := [0, 0, 0, 1] }, .storeIv ⟨0, 0, 0, [0x100, 0]⟩, .flag ⟨false, false, 0, 0x20⟩, .unrec3 3].map
      (Instr.wf Cfg.default) = List.replicate 9 false := by decide +kernel
theorem test_wf_refuses_ignored_bits_of_another_word_count :
    [Instr.data { dataV8 with ignored := [0, 0, 0] }, .storeIv ⟨0, 0, 0, []⟩].map (Instr.wf Cfg.default) = [false, false] := by
  decide +kernel
theorem test_wf_refuses_wide_operands :
    [Instr.data { dataV8 with length := 0x1000000 }, .data { dataV8 with dstExt := 0x100 }, .data { dataV8 with srcExt := 0x100 },
      .storeIv ⟨0, 0x100, 0, [0, 0]⟩, .storeIv ⟨4, 0, 0, [0, 0]⟩, .flag ⟨false, false, 0x10000, 0⟩,
      .key128 { descV1 with keySelect := 8 } k128, .key128 { descV1 with keyFunc := 4 } k128,
      .key128 { descV1 with blockMode := .reserved 4 } k128, .key128 { descV1 with blockMode := .reserved 2 } k128,
      .key128 { descV1 with commandId := 0x100 } k128].map (Instr.wf Cfg.default) = List.replicate 11 false := by decide +kernel
theorem test_wf_accepts_key256 : Instr.wf Cfg.default (.key256 descV1 k256) = true := by decide

/-! ### Another configuration (00_scope R6) -/

/-- A configuration with other numbers: FLAG is 3 with its code at bit 8; STORE_IV has three words and a selector of three bits; a 128-bit key is
length class 3, so that class 0 is the reserved one; the mode has three
bits, ECB is 1, CBC 0, and a clear bit encrypts; a queue of two words, another map, other codes. -/
def cfgB : Cfg :=
  { Cfg.default with
    layout :=
      { Layout.default with
        opFlag := 3, flagIdCode := 8, keyLen128 := 3, keyModeBits := 3, modeEcb := 1, modeCbc := 0, keyEncryptValue := false
        keyCommandId := 17
        storeIvWords := 3, storeIvSlotBits := 3, storeIvDstExt := ⟨1, 0⟩, storeIvDstLo := 2 }
    regmap := { RegMap.default with intStatus := 0x100, invalidCommandBit := 31 }
    ctrl := ⟨8, 4, 2, 1⟩
    fifoCapacity := 2, keyselSoftware := 5 }

theorem test_cfg_wf : cfgB.Wf := by decide +kernel
/-- Fields that overlap, a field past the end of its word or of its command, opcodes that are equal or too wide. -/
theorem test_cfg_wf_refuses :
    ∀ l ∈ [{ Layout.default with keySelect := 4 }, { Layout.default with flagIdCode := 17 }, { Layout.default with dataDstLo := 4 },
        { Layout.default with storeIvSlotBits := 5 }, { Layout.default with opFlag := 6 }, { Layout.default with opcodeBits := 3 }],
      ¬ Cfg.LayoutWf { Cfg.default with layout := l } := by decide +kernel
/-- A row whose opcode is assigned under the configuration is no row there. -/
theorem test_wf_refuses_assigned_opcode : Instr.wf cfgB (.unrec3 0) = false ∧ Instr.wf cfgB (.unrec4 0) = true := by decide +kernel
/-- Nor is a row whose number does not fit the opcode. -/
theorem test_wf_refuses_wide_opcode : Instr.wf { cfgB with layout := { cfgB.layout with opcodeBits := 3 } } (.unrec9 0) = false := by
  decide +kernel
/-- R91, R103 with other numbers. -/
theorem test_cfg_decode :
    decodeCommand cfgB [0x00123413] = some (.flag ⟨true, false, 0x1234, 0⟩) ∧ cmdWords cfgB 8 = 0 ∧
      decodeControl cfgB 8 = some .ctrlStart := by decide +kernel
/-- R93 to R95, R106 with other codes. -/
theorem test_cfg_decode_key :
    decodeCommand cfgB (0x00000301 :: k128) = some (.key128 ⟨0, 0, false, true, 0, .cbc, 0, 0⟩ k128) ∧
      decodeCommand cfgB (0x00018B01 :: k128) = some (.key128 ⟨0, 0, false, false, 0, .reserved 6, 0, 0⟩ k128) ∧
      decodeCommand cfgB [0x00000001] = some (.keyReserved 0 0) := by decide +kernel
/-- R102 with other numbers: a selector that names no slot. -/
theorem test_cfg_decode_store_iv :
    decodeCommand cfgB [0x000000C6, 0x00000001, 0x00003000] = some (.storeIv ⟨4, 1, 0x3000, [0x80, 0, 0]⟩) ∧
      encode cfgB (.storeIv ⟨4, 1, 0x3000, [0x80, 0, 0]⟩) = [0x000000C6, 0x00000001, 0x00003000] := by decide +kernel
/-- It runs, as one write of 16 free bytes (U4; log 26). -/
theorem test_cfg_store_iv :
    (after (exec (.storeIv ⟨4, 1, 0x3000, [0, 0, 0]⟩) { flying [0x46, 1, 0x3000] .fetched [] (ready [.ok]) with cfg := cfgB })).map
      (fun t => (t.phase, t.freeCount, t.trace, t.intStatus)) = some (.executed, 16, [.dmaWrite 0x100003000 16], 0) := by decide +kernel
/-- R162 with other numbers: the word of opcode 8 has no row of the table (log 25). R29, R181 with other values. -/
theorem test_cfg_steps :
    ((after (hostAccess (.regWrite 0x200 32 0xBEEF0018) { State.reset with cfg := cfgB })).map fun t => (t.intStatus, t.depth)) =
      some (0x80000000, 0) ∧
    ((after (hostAccess (.regWrite 0x200 32 3) { State.reset with cfg := cfgB, depth := 2 })).map (·.overflow)) = some true ∧
    ((after (exec (.key128 { descV1 with keySelect := 5 } k128) { State.reset with cfg := cfgB })).map fun t => (t.ctx 0).enabled) =
      some true := by decide +kernel

/-! ### Decoding, from words written out from the encodings -/

/-- V1. -/
theorem test_decode_key128 : decodeCommand Cfg.default (0x00114801 :: k128) = some (.key128 descV1 k128) := by decide +kernel
/-- V2. -/
theorem test_decode_key192 :
    decodeCommand Cfg.default (0x00228911 :: k192) = some (.key192 ⟨1, 0, false, true, 0, .ctr, 0x22, 0⟩ k192) := by decide +kernel
/-- V3. -/
theorem test_decode_key256 :
    decodeCommand Cfg.default (0x00A52611 :: k256) = some (.key256 ⟨1, 0, true, false, 2, .ecb, 0xA5, 0⟩ k256) := by decide +kernel
/-- V4: a key that is not a software key. -/
theorem test_decode_key_select : decodeCommand Cfg.default [0x00074871, 0, 0, 0, 0] = some (.key128 descV4 [0, 0, 0, 0]) := by decide +kernel
/-- V5: the reserved block mode. -/
theorem test_decode_reserved_mode :
    decodeCommand Cfg.default (0x0000C801 :: k128) = some (.key128 ⟨0, 0, false, true, 0, .reserved 3, 0, 0⟩ k128) := by decide +kernel
/-- R106: length class 3; the bits around it 1010 and 0x2AAAAA, in place. -/
theorem test_decode_key_reserved :
    decodeCommand Cfg.default [0b1010101010101010101010_11_1010_0001] = some (.keyReserved 0xA8A0 0xAAAA) := by decide +kernel
/-- V7. -/
theorem test_decode_iv :
    decodeCommand Cfg.default [0x00000032, 0xF3F2F1F0, 0xF7F6F5F4, 0xFBFAF9F8, 0xFFFEFDFC] =
      some (.iv ⟨3, 0⟩ [0xF3F2F1F0, 0xF7F6F5F4, 0xFBFAF9F8, 0xFFFEFDFC]) := by decide +kernel
/-- V9. -/
theorem test_decode_data :
    decodeCommand Cfg.default [0xFFFFF075, 0x00AB00CD, 0x12345678, 0x9ABCDEF0] =
      some (.data ⟨1, 3, 0xFFFFF0, 0xCD, 0xAB, 0x12345678, 0x9ABCDEF0, [0, 0, 0, 0]⟩) := by decide +kernel
/-- V11. -/
theorem test_decode_store_iv : decodeCommand Cfg.default [0x0000FF26, 0x00000010] = some (.storeIv ⟨2, 0xFF, 0x10, [0, 0]⟩) := by decide +kernel
/-- V12. -/
theorem test_decode_flag : decodeCommand Cfg.default [0xBEEF0018] = some (.flag ⟨true, false, 0xBEEF, 0⟩) := by decide +kernel
/-- R103, R104: the stop bit alone, every ignored bit set. -/
theorem test_decode_flag_ignored_bits : decodeCommand Cfg.default [0x0001FFE8] = some (.flag ⟨false, true, 1, 0xFFC0⟩) := by decide +kernel
/-- R105, one word for each unrecognised opcode. -/
theorem test_decode_unrecognised :
    [0x80000000, 0x00000003, 0x00000014, 0x00000107, 0x00000009, 0x0000000A, 0x0000000B, 0x0000000C, 0x0000000D, 0x0000000E,
        0xFFFFFFFF].map (fun w => decodeCommand Cfg.default [w]) =
      [some (.unrec0 0x80000000), some (.unrec3 0), some (.unrec4 0x10), some (.unrec7 0x100), some (.unrec9 0), some (.unrec10 0),
        some (.unrec11 0), some (.unrec12 0), some (.unrec13 0), some (.unrec14 0), some (.unrec15 0xFFFFFFF0)] := by decide +kernel
/-- R109, R147. -/
theorem test_decode_control :
    [1, 2, 4, 8, 0, 3, 5, 9, 0x80000001].map (decodeControl Cfg.default) =
      [some .ctrlStart, some .ctrlStop, some .ctrlReset, some .ctrlResetEngine, none, none, none, none, none] := by decide +kernel
/-- V15, V16. -/
theorem test_word_counts :
    [0x00114801, 0x00228911, 0x00A52611, 0x00000301, 0x00000002, 0x00002005, 0x00000106, 0xBEEF0018, 0xFFFFFFFF, 0xFFFFFFF8,
        0xFFFFFCF1].map (cmdWords Cfg.default) = [5, 7, 9, 0, 5, 4, 2, 1, 0, 1, 5] := by decide +kernel
/-- A command with a word too few or too many does not decode. -/
theorem test_decode_wrong_length :
    decodeCommand Cfg.default [0x00000002, 0, 0, 0] = none ∧ decodeCommand Cfg.default [0x00000106, 0, 0] = none ∧ decodeCommand Cfg.default [] = none := by decide +kernel
/-- V9 and V3, encoded. -/
theorem test_encode :
    encode Cfg.default (.data ⟨1, 3, 0xFFFFF0, 0xCD, 0xAB, 0x12345678, 0x9ABCDEF0, [0, 0, 0, 0]⟩) =
        [0xFFFFF075, 0x00AB00CD, 0x12345678, 0x9ABCDEF0] ∧
      encode Cfg.default (.key256 ⟨1, 0, true, false, 2, .ecb, 0xA5, 0⟩ k256) = 0x00A52611 :: k256 := by decide +kernel
/-- V17. -/
theorem test_addresses :
    let d : DataFields := ⟨1, 3, 0xFFFFF0, 0xCD, 0xAB, 0x12345678, 0x9ABCDEF0, [0, 0, 0, 0]⟩
    dataSrc d = 0x000000AB12345678 ∧ dataDst d = 0x000000CD9ABCDEF0 ∧ dataLength d = 16777200 := by decide +kernel

/-! ### Words of the opcode table -/

/-- The rows of KEY, whose operand words the table does not give. -/
theorem test_table_key : decodeTableWord 32 0x00000101 = some (.key192 ⟨0, 0, false, false, 0, .ecb, 0, 0⟩ [0, 0, 0, 0, 0, 0]) := by
  decide +kernel
/-- A control row gives all 32 bits. -/
theorem test_table_control : decodeTableWord 32 4 = some .ctrlReset := by decide +kernel
/-- The first step after reset runs the placed command: a FLAG with its bit. -/
theorem test_fetch_flag :
    (after (step (State.reset.withFetchWord 32 0xBEEF0018))).map (fun t => (t.flagCommand, t.intStatus, t.phase)) =
      some (0x0000BEEF, 0x20, .executed) := by decide +kernel
/-- The first step after reset runs the placed control code. -/
theorem test_fetch_start : (after (step (State.reset.withFetchWord 32 1))).map (·.running) = some true := by decide +kernel
/-- The first step after reset runs the placed word that is no command. -/
theorem test_fetch_unrecognised : (after (step (State.reset.withFetchWord 32 0x00000301))).map (·.intStatus) = some 4 := by
  decide +kernel
/-- The first step after reset runs the placed DATA: context 0 is empty. -/
theorem test_fetch_data : (after (step (State.reset.withFetchWord 128 0x00001005))).map (·.intStatus) = some 0x80 := by
  decide +kernel

/-! ### Reset -/

/-- V20. -/
theorem test_reset_reads :
    [Reg.control, .keyId, .intStatus, .intEnable, .watermarks, .commandFifoStatus, .flagCommand, .commandFifo].map
      (fun r => readReg r State.reset) = [0, 0, 0, 0, 0, 1, 0, 0] := by decide +kernel

/-! ### The block function and the modes -/

/-- V60, V63, V66: ECB, the three key lengths. V70: ECB, decrypt. -/
theorem test_ecb :
    (transform aes (live .k128 .ecb true k128) iva p12 =
      (bytes 32 0x3AD77BB40D7A3660A89ECAF32466EF97F5D3D58503B9699DE785895A96FDBAAF, iva)) ∧
    (transform aes (live .k192 .ecb true k192) iva p12 =
      (bytes 32 0xBD334F1D6E45F25FF712A214571FA5CC974104846D0AD3AD7734ECB3ECEE4EEF, iva)) ∧
    (transform aes (live .k256 .ecb true k256) iva p12 =
      (bytes 32 0xF3EED1BDB5D2A03C064B5A7E3DB181F8591CCB10D410ED26DC5BA74A31362870, iva)) ∧
    (transform aes (live .k128 .ecb false k128) iva (p12.take 16) = (bytes 16 0x500594E20D6D6C8C716B667C38F085F1, iva)) := by decide +kernel
/-- V61. V69, the row of V67: CBC decrypt with a 256-bit key. -/
theorem test_cbc :
    (transform aes (live .k128 .cbc true k128) iva p12 =
      (bytes 32 0x7649ABAC8119B246CEE98E9B12E9197D5086CB9B507219EE95DB113A917678B2,
        bytes 16 0x5086CB9B507219EE95DB113A917678B2)) ∧
    (transform aes (live .k256 .cbc false k256) iva
        (bytes 32 0xF58C4C04D6E5F1BA779EABFB5F7BFBD69CFC4E967EDB808D679F777BC6702C7D) =
      (p12, bytes 16 0x9CFC4E967EDB808D679F777BC6702C7D)) := by decide +kernel
/-- V65, with the decrypt direction, which CTR ignores. V71: the counter wraps. V72: a carry across bytes. -/
theorem test_ctr :
    (transform aes (live .k192 .ctr false k192) ctra p12 =
      (bytes 32 0x1ABC932417521CA24F2B0459FE7E6E0B090339EC0AA6FAEFD5CCC2C6F4CE8E94,
        bytes 16 0xF0F1F2F3F4F5F6F7F8F9FAFBFCFDFF01)) ∧
    (transform aes (live .k128 .ctr true k128) (bytes 16 (2 ^ 128 - 1)) p12 =
      (bytes 32 0xE13338E36CB71962E00D020B4CEDBD86D3DAE15B04BB352FA0F59FEBFCB4DA3E, bytes 16 1)) ∧
    ((transform aes (live .k128 .ctr true k128) (bytes 16 0xFFFFFF) (p12.take 16)).2 = bytes 16 0x1000000) := by decide +kernel

/-! ### Registers -/

/-- V21, V24. -/
theorem test_status_write :
    (after (hostAccess (.regWrite 0x018 32 0x00000040) { State.reset with intStatus := 0x2044 })).map (·.intStatus) = some 0x2004 ∧
    (after (hostAccess (.regWrite 0x018 32 0x00000020) { State.reset with intStatus := 0x04 })).map (·.intStatus) = some 0x04 := by
  decide +kernel
/-- V25, V26: enabling raises the line once, masking lowers it once. -/
theorem test_enable_write :
    (after (hostAccess (.regWrite 0x01C 32 0x20) { State.reset with intStatus := 0x20 })).map (fun t => (t.irq, t.trace)) =
      some (true, [.irqRaise]) ∧
    (after (hostAccess (.regWrite 0x01C 32 0x40) { State.reset with intStatus := 0x20, intEnable := 0x20, irq := true })).map
      (fun t => (t.irq, t.trace)) = some (false, [.irqLower]) := by decide +kernel
/-- V27: clearing one of two pending bits leaves the line as it is. -/
theorem test_status_write_line :
    (after (hostAccess (.regWrite 0x018 32 0x20) { State.reset with intStatus := 0x60, intEnable := 0x60, irq := true })).map
      (fun t => (t.intStatus, t.irq, t.trace)) = some (0x40, true, []) := by decide +kernel
/-- V30, V32, V34: the FIFO view. -/
theorem test_fifo_view :
    readReg .commandFifoStatus { State.reset with depth := 5, watermarks := 8 } = 0x00000508 ∧
    readReg .commandFifoStatus { State.reset with depth := 8, watermarks := 8 } = 0x00000800 ∧
    readReg .commandFifoStatus { State.reset with depth := 129, overflow := true } = 0x00008106 := by decide +kernel
/-- V29: a write to a read-only register changes nothing. -/
theorem test_read_only :
    after (hostAccess (.regWrite 0x030 32 0) { State.reset with flagCommand := 0xBEEF }) =
      some { State.reset with flagCommand := 0xBEEF } := by decide +kernel
/-- R133. -/
theorem test_refused_accesses :
    [hostAccess (.regRead 0x200 8) State.reset, hostAccess (.regRead 0x201 32) State.reset,
      hostAccess (.regWrite 0x000 32 1) State.reset, hostAccess (.regWrite 0x014 32 1) State.reset].map refusal =
      [some .accessWidth, some .misalignedOffset, some .undefinedOffset, some .undefinedOffset] := by decide +kernel

/-! ### Control codes -/

/-- V39, and START after reset (R142). -/
theorem test_start : (after (exec .ctrlStart State.reset)).map (·.running) = some true := by decide +kernel
/-- V38 and R143. -/
theorem test_stop :
    after (exec .ctrlStop State.reset) = some State.reset ∧
    (after (exec .ctrlStop { State.reset with running := true })).map (fun t => (t.running, t.stopReq, t.pending)) =
      some (true, true, .stop) := by decide +kernel
/-- V46, V47: RESET with a command in flight keeps its words in `DEPTH`. -/
theorem test_reset_code :
    (after (exec .ctrlReset { v8At .fetched [] [] with queue := [⟨[0xBEEF0018]⟩], framer := ⟨[0x12, 0, 0], 5⟩, depth := 8 })).map
      (fun t => (t.queue, t.framer, t.depth, t.inflight.isSome)) = some ([], ⟨[], 0⟩, 4, true) := by decide +kernel
/-- R146, R271: on a stopped engine, at once; the line is lowered. -/
theorem test_reset_engine :
    (after (exec .ctrlResetEngine { State.reset with intStatus := 4, intEnable := 4, irq := true, watermarks := 9 })).map
      (fun t => (t.intStatus, t.watermarks, t.irq, t.trace)) = some (0, 0, false, [.irqLower]) := by decide +kernel

/-! ### Framer -/

/-- V43, the last two of its five words. -/
theorem test_framer_last_word :
    (after (writeWords [0x0B0A0908, 0x0F0E0D0C] { State.reset with framer := ⟨[2, 0x03020100, 0x07060504], 5⟩, depth := 3 })).map
      (fun t => (t.queue, t.framer, t.depth)) = some ([⟨2 :: ivaWords⟩], ⟨[], 0⟩, 5) := by decide +kernel
/-- V44: an opcode pattern in a payload position is payload. -/
theorem test_framer_payload :
    (after (writeWords [0x00000002, 0x00000003] State.reset)).map (fun t => (t.intStatus, t.framer, t.depth)) =
      some (0, ⟨[2, 3], 5⟩, 2) := by decide +kernel
/-- V40, V41. -/
theorem test_framer_discards :
    ([0x00000003, 0x00000301].map fun w => (after (writeWords [w] State.reset)).map fun t => (t.intStatus, t.depth, t.queue, t.framer)) =
      [some (4, 0, [], ⟨[], 0⟩), some (4, 0, [], ⟨[], 0⟩)] := by decide +kernel
/-- V34, V36: `OVERFLOW` is recomputed by the accepting write. -/
theorem test_overflow :
    ((after (writeWords [0xBEEF0018] { State.reset with depth := 128 })).map (·.overflow),
      (after (writeWords [0xBEEF0018] { State.reset with depth := 127, overflow := true })).map (·.overflow)) =
      (some true, some false) := by decide +kernel

/-! ### KEY, IV -/

/-- V50. -/
theorem test_key_software :
    (after (exec (.key128 descV1 k128) State.reset)).map (fun t => (t.ctx 0, keyId t, t.intStatus)) =
      some (⟨0, .k128, false, true, 0, .cbc, 0x11, bytes 32 (0x2B7E151628AED2A6ABF7158809CF4F3C * 2 ^ 128), .active, true⟩,
        0x00001108, 0) := by decide +kernel
/-- V51. -/
theorem test_key_256 :
    (after (exec (.key256 ⟨1, 0, true, false, 2, .ecb, 0xA5, 0⟩ k256) State.reset)).map
        (fun t => ((t.ctx 1).keyLen, (t.ctx 1).wrapped, (t.ctx 1).key.take 2, keyId t)) =
      some (.k256, true, [0x60, 0x3D], 0xA5080000) := by decide +kernel
/-- V42: a key that is not a software key. V52: the reserved mode enables the context without a handle. -/
theorem test_key_disabled :
    ((after (exec (.key128 descV4 [0, 0, 0, 0]) State.reset)).map
        (fun t => ((t.ctx 1).enabled, (t.ctx 1).handle, t.intStatus, keyId t)) = some (false, .none, 0x2000, 0x07030000)) ∧
    ((after (exec (.key128 ⟨0, 0, false, true, 0, .reserved 3, 0, 0⟩ k128) State.reset)).map
        (fun t => ((t.ctx 0).enabled, (t.ctx 0).handle, t.intStatus, keyId t)) = some (true, .none, 0, 8)) := by decide +kernel
/-- R181 with a 192-bit key: the bytes above the key length are zero. -/
theorem test_key_192 :
    (after (exec (.key192 descV1 k192) State.reset)).map (fun t => ((t.ctx 0).key.drop 22, (t.ctx 1).enabled)) =
      some ([0x6B, 0x7B, 0, 0, 0, 0, 0, 0, 0, 0], false) := by decide +kernel
/-- V54, V55: the named slot and no other. -/
theorem test_iv :
    (after (exec (.iv ⟨3, 0⟩ ivaWords) State.reset)).map (fun t => (t.iv 3, t.iv 2)) = some (iva, zeroIv) := by decide +kernel

/-! ### DATA -/

/-- V80, its three steps: load, transform, write back. -/
theorem test_data :
    ((after (exec (.data dataV8) (v8At .fetched [] [.ok]))).map (fun t => (t.phase, t.scratch, t.trace)) =
      some (.dataLoaded, p12, [.dmaRead 0x1000 32])) ∧
    ((after (exec (.data dataV8) (v8At .dataLoaded p12 []))).map (fun t => (t.phase, t.scratch.take 2, t.iv 0)) =
      some (.dataXformed, [0x76, 0x49], bytes 16 0x5086CB9B507219EE95DB113A917678B2)) ∧
    ((after (exec (.data dataV8) (v8At .dataXformed p12 [.ok]))).map
        (fun t => (t.phase, t.mem.readBytes 0x2000 32, t.mem.read 0x1FFF, t.mem.read 0x2020, t.trace)) =
      some (.executed, p12, 0, 0, [.dmaWrite 0x2000 32])) := by decide +kernel
/-- V84, V85 (a bad length), V42 (no key), V83 (length 0), R291 (no answer yet), V92 (a failed read). -/
theorem test_data_corners :
    (([0, 1].map fun n => (after (exec (.data ⟨n, 0, 24, 0, 0, 0x1000, 0x2100, [0, 0, 0, 0]⟩) (v8At .fetched [] [.ok]))).map
      fun t => (t.intStatus, t.phase, t.trace)) = [some (0x40, .executed, []), some (0x40, .executed, [])]) ∧
    ((after (exec (.data ⟨1, 0, 16, 0, 0, 0, 0x100, [0, 0, 0, 0]⟩) (v8At .fetched [] [.ok]))).map
      (fun t => (t.intStatus, t.phase, t.trace)) = some (0x2000, .executed, [])) ∧
    ((after (exec (.data ⟨0, 0, 0, 0, 0, 0x10, 0x20, [0, 0, 0, 0]⟩) (v8At .fetched [] []))).map
      (fun t => (t.phase, t.scratch, t.trace)) = some (.dataLoaded, [], [])) ∧
    ((after (exec (.data dataV8) (v8At .fetched [] [.noAnswer, .ok]))).map (fun t => (t.phase, t.dmaAnswers, t.trace)) =
      some (.fetched, [.ok], [])) ∧
    ((after (exec (.data dataV8) (v8At .fetched [] [.fail]))).map (fun t => (t.phase, t.scratch.length, t.intStatus)) =
      some (.dataLoaded, 32, 0)) := by decide +kernel

/-! ### STORE_IV, FLAG, the engine's other steps -/

/-- V88. -/
theorem test_store_iv :
    (after (exec (.storeIv ⟨0, 1, 0x3000, [0, 0]⟩) (flying [0x00000106, 0x00003000] .fetched [] (ready [.ok])))).map
      (fun t => (t.mem.readBytes 0x100003000 16, t.iv 0, t.trace, t.phase)) =
      some (iva, iva, [.dmaWrite 0x100003000 16], .executed) := by decide +kernel
/-- V89. -/
theorem test_flag :
    (after (exec (.flag ⟨true, false, 0xBEEF, 0⟩) { State.reset with intEnable := 0x20 })).map
      (fun t => (t.flagCommand, t.intStatus, t.irq, t.trace)) = some (0x0000BEEF, 0x20, true, [.irqRaise]) := by decide +kernel
/-- V90, its completion: the stop bit stops the engine. -/
theorem test_complete_stop :
    (after (engineStep (flying [0x12340038] .executed [] State.reset))).map (fun t => (t.running, t.depth, t.inflight)) =
      some (false, 0, none) := by decide +kernel
/-- V35: completion leaves `OVERFLOW`. -/
theorem test_complete_overflow :
    (after (engineStep { flying [0xBEEF0018] .executed [] State.reset with depth := 129, overflow := true })).map
      (fun t => (t.running, t.depth, t.overflow)) = some (true, 128, true) := by decide +kernel
/-- R180. -/
theorem test_dequeue :
    (after (engineStep { State.reset with running := true, queue := [⟨wordsV8⟩, ⟨[8]⟩], depth := 5 })).map
      (fun t => (t.inflight, t.queue, t.depth)) = some (some ⟨⟨wordsV8⟩, .fetched, []⟩, [⟨[8]⟩], 5) := by decide +kernel
/-- R203, P4 step 6. -/
theorem test_acknowledge :
    (after (engineStep { State.reset with running := true, stopReq := true, pending := .stop, depth := 3 })).map
      (fun t => (t.running, t.stopReq, t.pending, t.depth)) = some (false, false, .none, 3) := by decide +kernel
/-- R199. -/
theorem test_unrecognised_arm :
    (after (engineStep (flying [0x00000003] .fetched [] State.reset))).map (fun t => (t.intStatus, t.phase)) = some (4, .executed) := by
  decide +kernel
/-- 20_memory R71 (log 9): another master in the source before the read, and in it after. -/
theorem test_race :
    fault (step { v8At .fetched [] [] with events := [.busWrite 0x101F 1] }) = some .dmaRace ∧
    (after (step { v8At .dataLoaded p12 [] with events := [.busWrite 0x101F 1] })).map (fun t => t.mem.read 0x101F) = some 1 := by
  decide +kernel

/-! ### Witnesses

Each meets the hypotheses of the statement it is named after, clause by clause, at a boundary where a clause has one. -/

/-- An outcome with a next state of which a check holds. -/
theorem next_of_after {o : Outcome} (p : State → Bool) (h : (after o).any p = true) : ∃ t, o = .next t ∧ p t = true := by
  cases o <;> simp_all [after]

/-- A state of the invariant with something everywhere: a DATA loaded, a FLAG queued, an IV begun, the line asserted. -/
def busy : State :=
  { State.reset with
    ctxs := ⟨keyContext 0 .k128 descV1 k128, keyContext 0 .k128 descV4 k128⟩
    intStatus := 0x20, intEnable := 0x20, flagCommand := 0xFFFF, depth := 6, framer := ⟨[0x12], 5⟩, queue := [⟨[0xBEEF0018]⟩]
    running := true
    inflight := some ⟨⟨[0x00001005, 0, 0x1000, 0x2000]⟩, .dataLoaded, bytes 16 0xFF⟩
    irq := true, mem := [(0x1000, 1)], dmaAnswers := [.ok, .fail, .ok, .ok] }

theorem busy_inv : Inv busy where
  depth := by decide +kernel
  irq := by decide +kernel
  framer := by constructor <;> decide +kernel
  queue := by intro c hc; obtain rfl := List.mem_singleton.1 hc; exact (rfl : cmdWords Cfg.default 0xBEEF0018 = 1)
  inflight := by
    refine ⟨(by decide +kernel : cmdWords Cfg.default 0x00001005 = 4), ?_, rfl⟩
    have h : decodeCommand State.reset.cfg [0x00001005, 0, 0x1000, 0x2000] = some (.data ⟨0, 0, 16, 0, 0, 0x1000, 0x2000, [0, 0, 0, 0]⟩) := by decide +kernel
    simp only [BufferFits, busy, h]
    decide +kernel
  ctxs := by decide +kernel
  ivs := by decide +kernel
  status := by decide +kernel
  flag := by decide +kernel
  hold := by decide +kernel
  mem := by decide +kernel

theorem witness_DecodeOfEncodeIsTheInstruction :
    Cfg.default.Wf ∧ ∀ i ∈ [Instr.key256 ⟨1, 7, true, true, 3, .reserved 3, 0xFF, 0xFF000000⟩ k256, .iv ⟨3, 0xFFFFFFC0⟩ ivaWords,
        .data ⟨1, 3, 0xFFFFFF, 0xFF, 0xFF, 0xFFFFFFFF, 0xFFFFFFFF, [0x80, 0xFF00FF00, 0, 0]⟩,
        .storeIv ⟨3, 0xFF, 0xFFFFFFFF, [0xFFFF00C0, 0]⟩,
        .flag ⟨true, true, 0xFFFF, 0xFFC0⟩, .keyReserved 0xFCF0 0xFFFF, .unrec15 0xFFFFFFF0, .ctrlResetEngine],
      Instr.wf Cfg.default i = true :=
  ⟨by decide +kernel, by decide +kernel⟩
/-- The same under another configuration, with a selector that names no slot. -/
theorem witness_DecodeOfEncode_other :
    cfgB.Wf ∧ ∀ i ∈ [Instr.key128 ⟨1, 7, true, true, 3, .reserved 7, 0xFF, 0xFE000000⟩ k128, .storeIv ⟨7, 0xFF, 0xFFFFFFFF, [0x80, 0, 0]⟩, .keyReserved 0 0], Instr.wf cfgB i = true := by decide +kernel
theorem witness_EncodeOfDecodeIsTheWords :
    Cfg.default.Wf ∧ decode Cfg.default .commandFifo [0xFFFFFFFF] = some (.unrec15 0xFFFFFFF0) ∧
      decode Cfg.default .control [8] = some .ctrlResetEngine := by decide +kernel
theorem witness_DmaRangesStayBelowTheTop :
    DataFields.fits Cfg.default ⟨1, 3, 0xFFFFFF, 0xFF, 0xFF, 0xFFFFFFFF, 0xFFFFFFFF, [0, 0, 0, 0]⟩ = true ∧
      StoreIvFields.fits Cfg.default ⟨3, 0xFF, 0xFFFFFFFF, [0, 0]⟩ = true := by decide +kernel
theorem witness_defaultConfiguration : State.reset.cfg = Cfg.default ∧ State.reset.cfg.Wf := by decide +kernel
theorem witness_KeyBytesAreLittleEndianWords :
    k256.length ≤ 8 ∧ 7 < k256.length ∧ 3 < 4 ∧ k128.length ≤ 8 ∧ 4 * k128.length ≤ 16 ∧ 4 * k128.length ≤ 31 ∧ 31 < 32 := by decide
theorem witness_AccessesOutsideTheMapAreRefused :
    let valid := fun off width => width = 32 ∧ off % 4 = 0 ∧ ∃ r ∈ Reg.all, State.reset.cfg.regmap.offset r = off
    valid 0x200 32 ∧ ¬ valid 0x200 16 ∧ ¬ valid 0x204 32 ∧ ¬ valid 0x00A 32 := by decide +kernel
theorem witness_StopHoldsTheHostWhileTheEngineRuns : busy.running = true ∧ State.reset.running = false := by decide
theorem witness_ResetEngineResetsOrHolds : busy.running = true ∧ { busy with running := false }.running = false := by decide
theorem witness_OtherControlValuesDoNothing :
    State.reset.cfg.Wf ∧ ∀ v ∈ ([0, 3, 5, 7, 9, 0xFFFFFFFF] : List Word), v ≠ State.reset.cfg.ctrl.start ∧
      v ≠ State.reset.cfg.ctrl.stop ∧ v ≠ State.reset.cfg.ctrl.reset ∧ v ≠ State.reset.cfg.ctrl.resetEngine := by
  refine ⟨by decide +kernel, ?_⟩
  simp [State.reset, Cfg.default]
theorem witness_HoldLastsUntilTheAcknowledgement :
    let s := { State.reset with running := true, stopReq := true, pending := .resetEngine, events := [.host (.regRead 0x018 32)] }
    let b := { busy with stopReq := true, pending := .stop, events := [.host (.regRead 0x018 32)] }
    (s.events = .host (.regRead 0x018 32) :: [] ∧ s.pending ≠ .none ∧ s.stopReq = true ∧ s.inflight = none) ∧
      b.events = .host (.regRead 0x018 32) :: [] ∧ b.pending ≠ .none ∧ ¬ (b.stopReq = true ∧ b.inflight = none) ∧
      ∃ t, step b = .next t ∧ (t.phase == .dataXformed) = true :=
  ⟨by decide, rfl, by decide, by decide, next_of_after (fun t => t.phase == .dataXformed) (by decide +kernel)⟩
theorem witness_StepRuns_engine :
    let s := { v8At .dataXformed p12 [.ok] with events := [.engine] }
    s.inflight = some ⟨⟨wordsV8⟩, .dataXformed, p12⟩ ∧ (Phase.dataXformed ≠ .executed) ∧ cmdWords Cfg.default 0x00002005 = 4 ∧
      decodeCommand Cfg.default wordsV8 = some (.data dataV8) ∧ phaseFits (.data dataV8) .dataXformed = true ∧ s.events = .engine :: [] := by
  decide +kernel
theorem witness_StepRuns_control :
    let s := { State.reset with events := [.host (.regWrite 0x008 32 8)] }
    s.cfg.Wf ∧ s.pending = .none ∧ s.events = .host (.regWrite s.cfg.regmap.control 32 8) :: [] ∧ decodeControl Cfg.default 8 = some .ctrlResetEngine := by decide +kernel
theorem witness_StepRuns_discard :
    let s := { State.reset with events := [.host (.regWrite 0x200 32 0x301)] }
    s.cfg.Wf ∧ s.pending = .none ∧ s.events = .host (.regWrite s.cfg.regmap.commandFifo 32 0x301) :: [] ∧ s.framer.need = 0 ∧ cmdWords Cfg.default 0x301 = 0 ∧
      decodeCommand Cfg.default [0x301] = some (.keyReserved 0 0) := by decide +kernel
theorem witness_FramerTakesOneWord :
    (State.reset.framer.need = 0 ∧ cmdWords Cfg.default 0x301 = 0 ∧ cmdWords Cfg.default 0xBEEF0018 = 1 ∧ cmdWords Cfg.default 0x106 > 1) ∧
      (let s := { State.reset with framer := ⟨2 :: ivaWords.take 3, 5⟩ }; s.framer.need ≠ 0 ∧ s.framer.buf.length + 1 = s.framer.need) ∧
      (busy.framer.need ≠ 0 ∧ busy.framer.buf.length + 1 ≠ busy.framer.need) := by decide +kernel
theorem witness_AWholeCommandIsFramed :
    cmdWords Cfg.default 0x201 = k256.length + 1 ∧ cmdWords Cfg.default 0xBEEF0018 = ([] : List Word).length + 1 ∧ State.reset.framer = ⟨[], 0⟩ := by
  decide +kernel
theorem witness_DequeueTakesTheOldestCommand :
    let s := { busy with inflight := none }
    s.running = true ∧ s.stopReq = false ∧ s.inflight = none ∧ s.queue = ⟨[0xBEEF0018]⟩ :: [] := by decide
theorem witness_CompletionCountsTheWordsOff :
    (flying wordsV8 .executed p12 State.reset).inflight = some ⟨⟨wordsV8⟩, .executed, p12⟩ ∧
      (Command.mk wordsV8).words = 0x00002005 :: [0x00000000, 0x00001000, 0x00002000] ∧
      (flying [0x12340038] .executed [] State.reset).inflight = some ⟨⟨[0x12340038]⟩, .executed, []⟩ ∧
      opcode Cfg.default 0x12340038 = Cfg.default.layout.opFlag ∧ bitAt 0x12340038 Cfg.default.layout.flagStop = true := by
  decide +kernel
theorem witness_AcknowledgementStopsAndReleases :
    let s := { State.reset with running := true, stopReq := true, pending := .stop }
    let r := { s with pending := .resetEngine }
    (s.stopReq = true ∧ s.inflight = none ∧ s.pending ≠ .resetEngine) ∧ (r.stopReq = true ∧ r.inflight = none ∧ r.pending = .resetEngine) := by
  decide
theorem witness_AnIdleEngineChangesNothing :
    (let s := { State.reset with queue := [⟨[8]⟩], depth := 1 }; s.inflight = none ∧ s.stopReq = false ∧ s.running = false) ∧
      (let s := { State.reset with running := true }; s.inflight = none ∧ s.stopReq = false ∧ s.queue = []) := by decide
theorem witness_TheUnrecognisedArmRaisesAndExecutes :
    let s := flying [0xFFFFFFFF] .fetched [] State.reset
    s.inflight = some ⟨⟨[0xFFFFFFFF]⟩, .fetched, []⟩ ∧
      opcode s.cfg 0xFFFFFFFF ∉
        [s.cfg.layout.opKey, s.cfg.layout.opIv, s.cfg.layout.opData, s.cfg.layout.opStoreIv, s.cfg.layout.opFlag] := by decide +kernel
theorem witness_ACommandIsNeverPreempted :
    Inv busy ∧ busy.inflight = some ⟨⟨[0x00001005, 0, 0x1000, 0x2000]⟩, .dataLoaded, bytes 16 0xFF⟩ ∧ ∃ t, step busy = .next t ∧ true = true :=
  ⟨busy_inv, rfl, next_of_after (fun _ => true) (by decide +kernel)⟩
theorem witness_KeyWithSoftwareKeyEnablesItsContext :
    descV1.keySelect = State.reset.cfg.keyselSoftware ∧
      (KeyLen.k128, Instr.key128 descV1 k128) ∈
        [(KeyLen.k128, Instr.key128 descV1 k128), (.k192, .key192 descV1 k128), (.k256, .key256 descV1 k128)] ∧
      (KeyLen.k192, Instr.key192 descV1 k192) ∈
        [(KeyLen.k128, Instr.key128 descV1 k192), (.k192, .key192 descV1 k192), (.k256, .key256 descV1 k192)] ∧
      (KeyLen.k256, Instr.key256 descV1 k256) ∈
        [(KeyLen.k128, Instr.key128 descV1 k256), (.k192, .key192 descV1 k256), (.k256, .key256 descV1 k256)] := by decide
theorem witness_KeyWithAnotherKeyDisablesItsContext :
    descV4.keySelect ≠ State.reset.cfg.keyselSoftware ∧
      (KeyLen.k128, Instr.key128 descV4 k128) ∈
        [(KeyLen.k128, Instr.key128 descV4 k128), (.k192, .key192 descV4 k128), (.k256, .key256 descV4 k128)] ∧
      (KeyLen.k192, Instr.key192 descV4 k192) ∈
        [(KeyLen.k128, Instr.key128 descV4 k192), (.k192, .key192 descV4 k192), (.k256, .key256 descV4 k192)] ∧
      (KeyLen.k256, Instr.key256 descV4 k256) ∈
        [(KeyLen.k128, Instr.key128 descV4 k256), (.k192, .key192 descV4 k256), (.k256, .key256 descV4 k256)] := by decide
theorem witness_DataWithABadLengthAborts :
    let s := v8At .fetched [] []
    s.phase = .fetched ∧ s.inflight ≠ none ∧ dataLength { dataV8 with length := 1 } % 16 ≠ 0 ∧
      dataLength { dataV8 with length := 0xFFFFFF } % 16 ≠ 0 := by decide +kernel
theorem witness_DataWithADeadContextAborts :
    let s := v8At .fetched [] []
    let r := { s with ctxs := ⟨live .k128 (.reserved 3) true k128, live .k128 .ecb true k128⟩ }
    s.phase = .fetched ∧ s.inflight ≠ none ∧ dataLength dataV8 % 16 = 0 ∧ (s.ctx 1).enabled = false ∧
      r.phase = .fetched ∧ r.inflight ≠ none ∧ (r.ctx 0).enabled = true ∧ (r.ctx 0).handle ≠ .active := by decide +kernel
theorem witness_DataLoadsItsSource :
    let s := v8At .fetched []
    (s []).inflight = some ⟨⟨wordsV8⟩, .fetched, []⟩ ∧ ((s []).ctx 0).enabled = true ∧ ((s []).ctx 0).handle = .active ∧
      dataLength dataV8 % 16 = 0 ∧ dataLength dataV8 ≠ 0 ∧ nextAnswer (s [.ok]) = .ok ∧ nextAnswer (s [.fail]) = .fail ∧
      nextAnswer (s [.noAnswer]) = .noAnswer ∧ dataLength { dataV8 with length := 0 } = 0 := by decide +kernel
theorem witness_DataTransformsItsBuffer : (v8At .dataLoaded p12 []).inflight = some ⟨⟨wordsV8⟩, .dataLoaded, p12⟩ := by decide
theorem witness_DataWritesItsDestination :
    let s := v8At .dataXformed p12
    (s []).inflight = some ⟨⟨wordsV8⟩, .dataXformed, p12⟩ ∧ p12.length = dataLength dataV8 ∧ (s []).mem.wf ∧
      dataLength dataV8 ≠ 0 ∧ nextAnswer (s [.ok]) = .ok ∧ nextAnswer (s [.fail]) = .fail ∧ nextAnswer (s [.noAnswer]) = .noAnswer ∧
      (v8At .dataXformed [] []).inflight = some ⟨⟨wordsV8⟩, .dataXformed, []⟩ ∧
      ([] : List Byte).length = dataLength { dataV8 with length := 0 } := by decide +kernel
theorem witness_DataChangesOnlyItsOwn :
    (∃ t, exec (.data dataV8) (v8At .fetched [] [.ok]) = .next t ∧ true = true) ∧
      (∃ t, exec (.data dataV8) (v8At .dataLoaded p12 []) = .next t ∧ true = true) ∧
      ∃ t, exec (.data dataV8) (v8At .dataXformed p12 [.ok]) = .next t ∧ true = true := by
  refine ⟨?_, ?_, ?_⟩ <;> exact next_of_after (fun _ => true) (by decide +kernel)
theorem witness_DataMovesTheTransformedSource :
    let s := v8At .fetched [] [.ok, .ok]
    s.inflight = some ⟨⟨wordsV8⟩, .fetched, []⟩ ∧ dataLength dataV8 % 16 = 0 ∧ dataLength dataV8 ≠ 0 ∧
      (s.ctx dataV8.keyCtx).enabled = true ∧ (s.ctx dataV8.keyCtx).handle = .active ∧ (s.iv dataV8.ivCtx).length = 16 ∧ s.mem.wf ∧
      s.dmaAnswers = .ok :: .ok :: [] := by decide +kernel
theorem witness_StoreIvWritesItsSlot :
    let s := fun l => flying [0x00000136, 0xFFFFFFFF] .fetched [] (ready l)
    (∀ k, ((s []).iv k).length = 16) ∧ (3 : Word).toNat = (3 : Fin 4).val ∧ (s []).mem.wf ∧ nextAnswer (s [.ok]) = .ok ∧ nextAnswer (s [.fail]) = .fail ∧
      nextAnswer (s [.noAnswer]) = .noAnswer := by decide +kernel
theorem witness_transforms :
    (live .k192 .ecb false k192).blockMode = .ecb ∧ (live .k128 .cbc true k128).blockMode = .cbc ∧
      (live .k128 .cbc true k128).encrypt = true ∧ (live .k256 .cbc false k256).encrypt = false ∧
      (live .k128 .ctr false k128).blockMode = .ctr ∧ iva.length = 16 ∧ p12.length = 16 * 2 ∧ ([] : List Byte).length = 16 * 0 ∧
      (bytes 16 (2 ^ 128 - 1)).length = 16 := by decide +kernel
theorem witness_DecryptionUndoesEncryption :
    let e := live .k192 .cbc true k192
    let d := live .k192 .cbc false k192
    let c := live .k192 .ctr false k192
    e.key = d.key ∧ e.keyLen = d.keyLen ∧ e.blockMode = d.blockMode ∧ e.blockMode.isMode = true ∧ iva.length = 16 ∧
      p12.length = 16 * 2 ∧ e.encrypt = true ∧ d.encrypt = false ∧ c.key = c.key ∧ c.blockMode = .ctr := by decide +kernel
theorem witness_TheLineFollowsItsLevel :
    IrqConsistent busy ∧ ∃ t, step { busy with events := [.host (.regWrite 0x018 32 0x20)] } = .next t ∧ (t.irq == false) = true :=
  ⟨by decide +kernel, next_of_after (fun t => t.irq == false) (by decide +kernel)⟩
theorem witness_StatusBitsAreSetOnlyByTheirCauses :
    ∀ s ∈ [{ State.reset with events := [.host (.regWrite 0x200 32 0x301)] }, flying [0xBEEF0018] .fetched [] State.reset,
        flying [0x00001805, 0, 0, 0] .fetched [] State.reset, flying [0x00001005, 0, 0, 0] .fetched [] State.reset,
        flying [0x00001015, 0, 0, 0] .fetched [] State.reset, flying [0x00074871, 0, 0, 0, 0] .fetched [] State.reset],
      ∃ t, step s = .next t ∧ (t.intStatus &&& ~~~s.intStatus != 0) = true := by
  intro s hs
  apply next_of_after (fun t => t.intStatus &&& ~~~s.intStatus != 0)
  revert s
  decide +kernel
theorem witness_StatusBitsAreClearedOnlyByHostOrReset :
    ∀ s ∈ [{ busy with events := [.host (.regWrite 0x018 32 0xFFFFFFFF)] },
        { busy with inflight := none, running := false, events := [.host (.regWrite 0x008 32 8)] },
        { busy with inflight := none, stopReq := true, pending := .resetEngine }],
      ∃ t, step s = .next t ∧ (s.intStatus &&& ~~~t.intStatus != 0) = true := by
  intro s hs
  apply next_of_after (fun t => s.intStatus &&& ~~~t.intStatus != 0)
  revert s
  decide +kernel
theorem witness_ContextsChangeOnlyByKeyOrReset :
    ∀ s ∈ [flying (0x00A52611 :: k256) .fetched [] busy, { busy with inflight := none, stopReq := true, pending := .resetEngine }],
      ∃ t, step s = .next t ∧ (t.ctx 1 != s.ctx 1) = true := by
  intro s hs
  apply next_of_after (fun t => t.ctx 1 != s.ctx 1)
  revert s
  decide +kernel
theorem witness_IvSlotsChangeOnlyByIvDataOrReset :
    ∀ s ∈ [flying (0x00000002 :: ivaWords) .fetched [] State.reset, busy,
        { busy with inflight := none, stopReq := true, pending := .resetEngine, ivs := ⟨iva, iva, iva, iva⟩ }],
      ∃ t, step s = .next t ∧ (t.iv 0 != s.iv 0) = true := by
  intro s hs
  apply next_of_after (fun t => t.iv 0 != s.iv 0)
  revert s
  decide +kernel
theorem witness_TheEngineStartsAndStopsOnlyAsTold :
    (∃ t, step { State.reset with events := [.host (.regWrite 0x008 32 1)] } = .next t ∧ t.running = true) ∧
      (∃ t, step { busy with inflight := none, stopReq := true, pending := .stop } = .next t ∧ (!t.running) = true) ∧
      ∃ t, step (flying [0x12340038] .executed [] State.reset) = .next t ∧ (!t.running) = true :=
  ⟨next_of_after (·.running) (by decide +kernel), next_of_after (fun t => !t.running) (by decide +kernel),
    next_of_after (fun t => !t.running) (by decide +kernel)⟩
theorem witness_DepthCountsTheOutstandingWords :
    DepthConsistent busy ∧ FramerConsistent busy ∧ busy.cfg.Wf ∧ Inv busy ∧
      ∃ t, step { busy with events := [.host (.regWrite 0x200 32 0)] } = .next t ∧ (t.depth == 7) = true :=
  ⟨busy_inv.depth, busy_inv.framer, by decide +kernel, busy_inv, next_of_after (fun t => t.depth == 7) (by decide +kernel)⟩
theorem witness_EveryStepKeepsTheInvariant : Inv busy ∧ ∃ t, step busy = .next t ∧ (t.phase == .dataXformed) = true :=
  ⟨busy_inv, next_of_after (fun t => t.phase == .dataXformed) (by decide +kernel)⟩
theorem witness_OnlyTheOutsideStopsTheMachine : Inv busy := busy_inv
theorem witness_PublicStateDoesNotDependOnSecrets :
    let other := { busy with
      ctxs := ⟨keyContext 0 .k128 descV1 (k128.reverse), keyContext 0 .k128 descV4 k128⟩, ivs := ⟨iva, iva, zeroIv, zeroIv⟩
      inflight := some ⟨⟨[0x00001005, 0, 0x1000, 0x2000]⟩, .dataLoaded, iva⟩, mem := [] }
    publicView busy = publicView other ∧ busy ≠ other := by decide +kernel
theorem witness_TheEngineReachesQuiescence :
    Inv busy ∧ busy.events = [] ∧ (∀ a ∈ busy.dmaAnswers, a ≠ .noAnswer) ∧
      2 * (busy.queue.length + 1) ≤ busy.dmaAnswers.length ∧ ¬ Quiescent busy :=
  ⟨busy_inv, by decide +kernel, by decide +kernel, by decide +kernel, by decide +kernel⟩
theorem witness_OtherMastersRaceOnlyOnBuffersInFlight :
    let s := v8At .fetched [] []
    let i := flying [0x00000106, 0x00003000] .fetched [] (ready [])
    s.inflight = some ⟨⟨wordsV8⟩, .fetched, []⟩ ∧ decodeCommand s.cfg wordsV8 = some (.data dataV8) ∧ dataLength dataV8 % 16 = 0 ∧
      (s.ctx dataV8.keyCtx).enabled = true ∧ (s.ctx dataV8.keyCtx).handle = .active ∧ s.mem.wf ∧
      (dataDst dataV8).toNat = 0x2000 ∧ (dataSrc dataV8).toNat = 0x1000 ∧ dataLength dataV8 = 0x20 ∧
      decodeCommand i.cfg [0x00000106, 0x00003000] = some (.storeIv ⟨0, 1, 0x3000, [0, 0]⟩) ∧
      (storeIvDst ⟨0, 1, 0x3000, [0, 0]⟩).toNat = 0x100003000 := by
  decide +kernel
/-- Its clauses, at the ends of the ranges: a race in the destination, read or written, and in the source that is not read yet, written. -/
theorem witness_Race_inside :
    let s := v8At .fetched [] []
    let i := flying [0x00000106, 0x00003000] .fetched [] (ready [])
    [step { s with events := [.busWrite 0x201F 1] }, step { s with events := [.busRead 0x2000] },
      step { s with events := [.busWrite 0x1000 1] }, step { i with events := [.busWrite 0x100003000 1] },
      step { i with events := [.busRead 0x10000300F] }].map fault = List.replicate 5 (some .dmaRace) := by decide +kernel
theorem witness_Race_outside :
    let s := v8At .fetched [] []
    let i := flying [0x00000106, 0x00003000] .fetched [] (ready [])
    [step { s with events := [.busWrite 0x2020 1] }, step { s with events := [.busWrite 0x1FFF 1] },
      step { s with events := [.busRead 0x1000] }, step { v8At .dataLoaded p12 [] with events := [.busWrite 0x1000 1] },
      step { i with events := [.busRead 0x100003010] }, step { State.reset with events := [.busWrite 0 1] }].map
      (fun o => (after o).isSome) = List.replicate 6 true := by decide +kernel

end Sys2Proof.Tests
end

section
/-! The engine's steps around the commands, DATA's length check and FLAG (42_engine_commands.md): one equation for each
branch of the model's functions, then the statements O22, O23, O31 and O39. -/

namespace Sys2Proof.Machine

open Sys2Proof.Safety

/-! ### Shared operations, in the words of the statements -/

/-- Updating the line is keeping the status and bringing its line up to date (60_exceptions R251). -/
theorem irqUpdate_eq_withStatus (s : State) : irqUpdate s = withStatus s s.intStatus := rfl

/-- Raising a condition is setting its bit and bringing the line up to date (60_exceptions R240). -/
theorem raise_eq_withStatus (c : Condition) (s : State) : raise c s = withStatus s (s.intStatus ||| c.mask s.cfg) := rfl

theorem setPhase_eq_inPhase (p : Phase) (s : State) : setPhase p s = { s with inflight := inPhase s p } := rfl

/-- Raising a condition leaves the in-flight command for the phase change that follows it. -/
theorem setPhase_raise (p : Phase) (c : Condition) (s : State) :
    setPhase p (raise c s) = { withStatus s (s.intStatus ||| c.mask s.cfg) with inflight := inPhase s p } := by
  rw [setPhase_eq_inPhase, raise_eq_withStatus]; rfl

/-! ### The engine's branches (R200) -/

theorem engineStep_of_executed {s : State} {c : Inflight} (hc : s.inflight = some c) (hp : c.phase = .executed) :
    engineStep s = .next (complete c.cmd s) := by
  simp only [engineStep, hc, if_pos hp]

theorem engineStep_of_queued {s : State} {c : Command} {rest : List Command} (hr : s.running = true) (hs : s.stopReq = false)
    (hi : s.inflight = none) (hq : s.queue = c :: rest) : engineStep s = .next (dequeue c rest s) := by
  simp [engineStep, hi, hs, hr, hq]

theorem flagStops_iff {c : Command} {w : Word} {rest : List Word} (h : c.words = w :: rest) (k : Cfg) :
    flagStops k c = true ↔ opcode k w = k.layout.opFlag ∧ bitAt w k.layout.flagStop = true := by
  simp only [flagStops, h, Bool.and_eq_true, decide_eq_true_eq]

/-- Completion (R201), as a whole state. -/
theorem complete_eq (c : Command) (s : State) :
    complete c s =
      { withStatus s s.intStatus with
        depth := s.depth - c.words.length
        running := if flagStops s.cfg c then false else s.running
        inflight := none } := by
  rw [complete, irqUpdate_eq_withStatus]; rfl

/-! ### DATA and FLAG -/

theorem exec_data_of_fetched {s : State} (h : s.phase = .fetched) (d : DataFields) : exec (.data d) s = .next (dataExecute d s) := by
  simp only [exec, execData, h]

/-- The length is checked before the key (R187, R188): the context does not matter. -/
theorem dataExecute_of_badLength {d : DataFields} (h : dataLength d % 16 ≠ 0) (s : State) :
    dataExecute d s = setPhase .executed (raise .invalidDataLength s) := by
  have hl : lengthOk d = false := decide_eq_false h
  rw [dataExecute, if_pos hl]

theorem exec_flag (d : FlagFields) (s : State) : exec (.flag d) s = .next (flagExecute d s) := rfl

end Sys2Proof.Machine

namespace Sys2Proof

/-- A value that fits a field of `n` bits is whole in that field, put at bit 0. -/
theorem put_zero_setWidth {n : Nat} {v : Word} (h : v.toNat < 2 ^ n) : put 0 (v.setWidth n) = v := by
  apply BitVec.eq_of_toNat_eq
  simp [put, Nat.mod_eq_of_lt h, v.isLt]

end Sys2Proof

namespace Sys2Proof.Proofs

open Sys2Proof.Machine Sys2Proof.Safety

/-- Settles O22: the dequeue branch of the engine's step. -/
theorem dequeueTakesTheOldestCommand : Obligations.DequeueTakesTheOldestCommand := by
  intro s c rest hrun hstop hidle hqueue
  rw [engineStep_of_queued hrun hstop hidle hqueue, dequeue]

/-- Settles O23: the completion branch, with the stop bit of a FLAG read off the command's first word. -/
theorem completionCountsTheWordsOff : Obligations.CompletionCountsTheWordsOff := by
  intro s c w rest b hc hw
  have hstops := if_congr (flagStops_iff hw s.cfg) (Eq.refl false) (Eq.refl s.running)
  rw [engineStep_of_executed hc rfl, complete_eq, hstops, hw, List.length_cons]

/-- Settles O31: the length is the first check of DATA's execute step. -/
theorem dataWithABadLengthAborts : Obligations.DataWithABadLengthAborts := by
  intro d s hphase _ hlen
  rw [exec_data_of_fetched hphase, dataExecute_of_badLength hlen, setPhase_raise]

/-- Settles O39: with and without the send-interrupt bit; the code, which fits its 16 bits, is whole in the default's field. -/
theorem flagStoresItsCode : Obligations.FlagStoresItsCode := by
  intro d s
  refine ⟨?_, put_zero_setWidth⟩
  rw [exec_flag]
  rcases flagExecute_cases d s with ⟨hsend, hexec⟩ | ⟨hsend, hexec⟩
  · rw [hexec, if_pos hsend, setPhase_raise]; rfl
  · rw [hexec, if_neg (by simp [hsend]), setPhase_eq_inPhase]; rfl

end Sys2Proof.Proofs
end

section
/-! Reading back what the encoder writes, and writing back what the decoder reads (30_encoding.md), one lemma for each format;
then the statements O1 and O2. -/

namespace Sys2Proof

variable {k : Cfg}

/-! ### The operands of an encoded command -/

theorem keyDescOf_keyWord0 (hk : k.LayoutWf) (len : KeyLen) {d : KeyDesc} (hd : keyWf k d = true) :
    keyDescOf k (keyWord0 k len d) = d := by
  simp only [keyWf, KeyDesc.fits, Bool.and_eq_true] at hd
  obtain ⟨⟨⟨⟨hsel, hfunc⟩, hmode⟩, hid⟩, hig⟩ := hd
  have flag : ∀ {lo : Nat} {b : Bool}, (⟨(lo, 1), flagBit b⟩ : Filled) ∈ keyFilled k len d → bitAt (keyWord0 k len d) lo = b :=
    fun hm => bitAt_of_bits (bits_packed (fs := keyFilled k len d) hk.2.1 hig hm)
  have field : ∀ {lo n : Nat} {v : Word}, fill lo n v ∈ keyFilled k len d → fitsIn n v = true → fieldOf (keyWord0 k len d) lo n = v :=
    fun hm hf => fieldOf_packed (fs := keyFilled k len d) hk.2.1 hig hm hf
  have hctx : bits (keyWord0 k len d) k.layout.keyCtx 1 = BitVec.ofFin d.ctx :=
    bits_packed (fs := keyFilled k len d) hk.2.1 hig (by simp [keyFilled])
  have hspare : spare k.keyFields (keyWord0 k len d) = d.ignored := spare_pack (fs := keyFilled k len d) hig
  rw [keyDescOf, hctx, hspare, field (v := d.keySelect) (by simp [keyFilled]) hsel, field (v := d.keyFunc) (by simp [keyFilled]) hfunc,
    field (v := d.commandId) (by simp [keyFilled]) hid,
    field (v := blockModeCode k.layout d.blockMode) (by simp [keyFilled]) (fitsIn_blockModeCode hk.1 hmode),
    blockModeOf_code hk.1 hmode, flag (b := d.wrapped) (by simp [keyFilled]),
    flag (b := d.encrypt == k.layout.keyEncryptValue) (by simp [keyFilled])]
  cases d; cases k.layout.keyEncryptValue <;> simp

theorem ivDescOf_ivWord0 (hk : k.LayoutWf) {d : IvDesc} (hd : clearOf k.ivFields d.ignored = true) : ivDescOf k (ivWord0 k d) = d := by
  have hslot : bits (ivWord0 k d) k.layout.ivSlot 2 = BitVec.ofFin d.slot :=
    bits_packed (fs := ivFilled k d) hk.2.2.1 hd (by simp [ivFilled])
  have hspare : spare k.ivFields (ivWord0 k d) = d.ignored := spare_pack (fs := ivFilled k d) hd
  rw [ivDescOf, hslot, hspare]

theorem flagFieldsOf_flagWord0 (hk : k.LayoutWf) {d : FlagFields} (hcode : fitsIn k.layout.flagIdCodeBits d.idCode = true)
    (hd : clearOf k.flagFields d.ignored = true) : flagFieldsOf k (flagWord0 k d) = d := by
  have flag : ∀ {lo : Nat} {b : Bool}, (⟨(lo, 1), flagBit b⟩ : Filled) ∈ flagFilled k d → bitAt (flagWord0 k d) lo = b :=
    fun hm => bitAt_of_bits (bits_packed (fs := flagFilled k d) hk.2.2.2.1 hd hm)
  have hid : fieldOf (flagWord0 k d) k.layout.flagIdCode k.layout.flagIdCodeBits = d.idCode :=
    fieldOf_packed (fs := flagFilled k d) hk.2.2.2.1 hd (by simp [flagFilled]) hcode
  have hspare : spare k.flagFields (flagWord0 k d) = d.ignored := spare_pack (fs := flagFilled k d) hd
  rw [flagFieldsOf, hid, hspare, flag (b := d.sendInt) (by simp [flagFilled]), flag (b := d.stop) (by simp [flagFilled])]

/-- A field of full width is the whole word. -/
theorem fieldOf_whole (w : Word) : fieldOf w 0 32 = w := by
  simp [fieldOf, bits]

theorem fitsIn_whole (w : Word) : fitsIn 32 w = true := by
  simpa [fitsIn] using w.isLt

theorem dataFieldsOf_encodeData (hk : k.LayoutWf) {d : DataFields} (hfit : d.fits k = true)
    (hd : clearWords k.layout.dataWords k.dataFormat d.ignored = true) : dataFieldsOf k (encodeData k d) = d := by
  simp only [DataFields.fits, Bool.and_eq_true] at hfit
  obtain ⟨⟨hlen, hdst⟩, hsrc⟩ := hfit
  have part : ∀ {j lo n : Nat} {v : BitVec n}, (j, (⟨(lo, n), v⟩ : Filled)) ∈ dataFilled k d →
      bits (wordAt (encodeData k d) j) lo n = v := fun hm => bits_packWords (fs := dataFilled k d) hk.2.2.2.2.1 hd hm
  have field : ∀ {j lo n : Nat} {v : Word}, (j, fill lo n v) ∈ dataFilled k d → fitsIn n v = true →
      fieldOf (wordAt (encodeData k d) j) lo n = v := fun hm hf => fieldOf_packWords (fs := dataFilled k d) hk.2.2.2.2.1 hd hm hf
  have hspare : spareWords k.layout.dataWords k.dataFormat (encodeData k d) = d.ignored :=
    spareWords_packWords (fs := dataFilled k d) hd
  rw [dataFieldsOf, hspare, part (v := BitVec.ofFin d.keyCtx) (by simp [dataFilled]),
    part (v := BitVec.ofFin d.ivCtx) (by simp [dataFilled]), field (v := d.length) (by simp [dataFilled]) hlen,
    field (v := d.dstExt) (by simp [dataFilled]) hdst, field (v := d.srcExt) (by simp [dataFilled]) hsrc,
    ← fieldOf_whole (wordAt _ k.layout.dataSrcLo), field (v := d.srcLo) (by simp [dataFilled]) (fitsIn_whole _),
    ← fieldOf_whole (wordAt _ k.layout.dataDstLo), field (v := d.dstLo) (by simp [dataFilled]) (fitsIn_whole _)]

theorem storeIvFieldsOf_encodeStoreIv (hk : k.LayoutWf) {d : StoreIvFields} (hfit : d.fits k = true)
    (hd : clearWords k.layout.storeIvWords k.storeIvFormat d.ignored = true) : storeIvFieldsOf k (encodeStoreIv k d) = d := by
  simp only [StoreIvFields.fits, Bool.and_eq_true] at hfit
  obtain ⟨hslot, hdst⟩ := hfit
  have field : ∀ {j lo n : Nat} {v : Word}, (j, fill lo n v) ∈ storeIvFilled k d → fitsIn n v = true →
      fieldOf (wordAt (encodeStoreIv k d) j) lo n = v :=
    fun hm hf => fieldOf_packWords (fs := storeIvFilled k d) hk.2.2.2.2.2 hd hm hf
  have hspare : spareWords k.layout.storeIvWords k.storeIvFormat (encodeStoreIv k d) = d.ignored :=
    spareWords_packWords (fs := storeIvFilled k d) hd
  rw [storeIvFieldsOf, hspare, field (v := d.slot) (by simp [storeIvFilled]) hslot,
    field (v := d.dstExt) (by simp [storeIvFilled]) hdst,
    ← fieldOf_whole (wordAt _ k.layout.storeIvDstLo), field (v := d.dstLo) (by simp [storeIvFilled]) (fitsIn_whole _)]

/-! ### Whole commands, decoded -/

/-- A KEY of any length class: its descriptor with its payload decodes by its row. -/
theorem decode_key (hk : k.LayoutWf) {len : KeyLen} {d : KeyDesc} {key : List Word} (hkey : key.length = len.words)
    (hd : keyWf k d = true) :
    decodeCommand k (keyWord0 k len d :: key) = commandOf k (.key len) (keyWord0 k len d) key ∧ keyDescOf k (keyWord0 k len d) = d := by
  have hig : clearOf k.keyFields d.ignored = true := by simp only [keyWf, Bool.and_eq_true] at hd; exact hd.2
  exact ⟨decodeCommand_of_descriptor (descriptor_keyWord0 hk len hig) (by simp only [Descriptor.words]; omega),
    keyDescOf_keyWord0 hk len hd⟩

/-- A discarded word decodes to its row. -/
theorem decode_discarded {w : Word} (h : descriptor k w = .discarded) : decodeCommand k [w] = discardedRow k w :=
  decodeCommand_of_descriptor h rfl

theorem decode_unrec (hk : k.LayoutWf) {op ig : Word} (h : unrecWf k op ig = true) :
    decodeCommand k [unrecWord0 k op ig] = unrecognisedRow op ig := by
  obtain ⟨hdesc, hrow⟩ := descriptor_unrecWord0 hk h
  rw [decode_discarded hdesc, hrow]

theorem decode_data (hk : k.LayoutWf) {d : DataFields} (hfit : d.fits k = true)
    (hd : clearWords k.layout.dataWords k.dataFormat d.ignored = true) : decodeCommand k (encodeData k d) = some (.data d) := by
  obtain ⟨rest, hrest, hlen⟩ := cons_of_length (length_packWords k.layout.dataWords (dataFilled k d) d.ignored) (formats_pos hk).1
  have hdesc := descriptor_encodeData hk hd
  change encodeData k d = wordAt (encodeData k d) 0 :: rest at hrest
  rw [hrest, decodeCommand_of_descriptor hdesc (by simp only [Descriptor.words]; omega), commandOf, ← hrest,
    dataFieldsOf_encodeData hk hfit hd]

theorem decode_storeIv (hk : k.LayoutWf) {d : StoreIvFields} (hfit : d.fits k = true)
    (hd : clearWords k.layout.storeIvWords k.storeIvFormat d.ignored = true) : decodeCommand k (encodeStoreIv k d) = some (.storeIv d) := by
  obtain ⟨rest, hrest, hlen⟩ := cons_of_length (length_packWords k.layout.storeIvWords (storeIvFilled k d) d.ignored) (formats_pos hk).2
  have hdesc := descriptor_encodeStoreIv hk hd
  change encodeStoreIv k d = wordAt (encodeStoreIv k d) 0 :: rest at hrest
  rw [hrest, decodeCommand_of_descriptor hdesc (by simp only [Descriptor.words]; omega), commandOf, ← hrest,
    storeIvFieldsOf_encodeStoreIv hk hfit hd]

/-- The four control codes, which differ, decode to their rows. -/
theorem decodeControl_codes (h : [k.ctrl.start, k.ctrl.stop, k.ctrl.reset, k.ctrl.resetEngine].Nodup) :
    decodeControl k k.ctrl.start = some .ctrlStart ∧ decodeControl k k.ctrl.stop = some .ctrlStop ∧
    decodeControl k k.ctrl.reset = some .ctrlReset ∧ decodeControl k k.ctrl.resetEngine = some .ctrlResetEngine := by
  simp only [List.nodup_cons, List.mem_cons, List.not_mem_nil, or_false, not_or] at h
  obtain ⟨⟨h1, h2, h3⟩, ⟨h4, h5⟩, h6, -⟩ := h
  simp [decodeControl, Ne.symm h1, Ne.symm h2, Ne.symm h3, Ne.symm h4, Ne.symm h5, Ne.symm h6]

/-- Every well-formed instruction is read back from its own words, row by row. -/
theorem decode_encode (hk : k.Wf) {i : Instr} (hi : i.wf k = true) : decode k i.space (encode k i) = some i := by
  obtain ⟨hl, -, hctrl⟩ := hk
  obtain ⟨hstart, hstop, hreset, hresetEngine⟩ := decodeControl_codes hctrl
  cases i with
  | key128 d key | key192 d key | key256 d key =>
    simp only [Instr.wf, Bool.and_eq_true, beq_iff_eq] at hi
    obtain ⟨hdec, hdesc⟩ := decode_key hl hi.1 hi.2
    simp only [Instr.space, encode, decode, hdec, commandOf, hdesc]
  | keyReserved lo hi' =>
    obtain ⟨hdesc, hrow⟩ := descriptor_keyReservedWord0 hl hi
    simp only [Instr.space, encode, decode, decode_discarded hdesc, hrow]
  | iv d words =>
    simp only [Instr.wf, Bool.and_eq_true, beq_iff_eq] at hi
    simp only [Instr.space, encode, decode]
    rw [decodeCommand_of_descriptor (descriptor_ivWord0 hl hi.2) (by simp only [Descriptor.words]; omega), commandOf,
      ivDescOf_ivWord0 hl hi.2]
  | data d =>
    simp only [Instr.wf, Bool.and_eq_true] at hi
    exact decode_data hl hi.1 hi.2
  | storeIv d =>
    simp only [Instr.wf, Bool.and_eq_true] at hi
    exact decode_storeIv hl hi.1 hi.2
  | flag d =>
    simp only [Instr.wf, Bool.and_eq_true] at hi
    simp only [Instr.space, encode, decode]
    rw [decodeCommand_of_descriptor (descriptor_flagWord0 hl hi.2) rfl, commandOf, flagFieldsOf_flagWord0 hl hi.1 hi.2]
  | unrec0 ig | unrec3 ig | unrec4 ig | unrec7 ig | unrec9 ig | unrec10 ig | unrec11 ig | unrec12 ig | unrec13 ig | unrec14 ig
  | unrec15 ig => exact decode_unrec hl hi
  | ctrlStart => exact hstart
  | ctrlStop => exact hstop
  | ctrlReset => exact hreset
  | ctrlResetEngine => exact hresetEngine

/-! ### Words that decode, encoded again -/

theorem keyWord0_keyDescOf (hk : k.LayoutWf) {len : KeyLen} {w : Word} (h : descriptor k w = .key len) :
    keyWord0 k len (keyDescOf k w) = w := by
  obtain ⟨hop, hlen⟩ := (opcode_of_descriptor k w).1 len h
  have hsel : k.layout.keySelectBits ≤ 32 ∧ k.layout.keyFuncBits ≤ 32 ∧ k.layout.keyModeBits ≤ 32 ∧ k.layout.keyCommandIdBits ≤ 32 := by
    have := (fieldsWf_iff.1 hk.2.1).1
    simp only [Cfg.keyFields, List.forall_mem_cons] at this
    omega
  refine pack_read (fs := keyFilled k len (keyDescOf k w)) fun f hf => ?_
  simp only [keyFilled, List.mem_cons, List.not_mem_nil, or_false] at hf
  rcases hf with rfl | rfl | rfl | rfl | rfl | rfl | rfl | rfl | rfl
  · exact setWidth_opcode hop (opcode_wf hk)
  · rfl
  · exact setWidth_fieldOf hsel.1
  · exact hlen
  · exact flagBit_bitAt w _
  · simp only [keyDescOf, ← flagBit_bitAt]
    cases bitAt w k.layout.keyEncrypt <;> cases k.layout.keyEncryptValue <;> rfl
  · exact setWidth_fieldOf hsel.2.1
  · simp only [keyDescOf, fill, blockModeCode_of]
    exact setWidth_fieldOf hsel.2.2.1
  · exact setWidth_fieldOf hsel.2.2.2

theorem keyReservedWord0_of (hk : k.LayoutWf) {w : Word} (hop : opcode k w = k.layout.opKey)
    (hd : keyDescriptor k.layout (bits w k.layout.keyLen 2) = .discarded) :
    keyReservedWord0 k (bits (spare k.keyReservedFields w) 0 16) (bits (spare k.keyReservedFields w) 16 16) = w := by
  rw [keyReservedWord0, halves]
  refine pack_read (fs := keyReservedFilled k) fun f hf => ?_
  simp only [keyReservedFilled, List.mem_cons, List.not_mem_nil, or_false] at hf
  rcases hf with rfl | rfl
  · exact setWidth_opcode hop (opcode_wf hk)
  · exact (reservedKeyLen_of hk.1 hd).symm

theorem ivWord0_ivDescOf (hk : k.LayoutWf) {w : Word} (hop : opcode k w = k.layout.opIv) : ivWord0 k (ivDescOf k w) = w := by
  refine pack_read (fs := ivFilled k (ivDescOf k w)) fun f hf => ?_
  simp only [ivFilled, List.mem_cons, List.not_mem_nil, or_false] at hf
  rcases hf with rfl | rfl
  · exact setWidth_opcode hop (opcode_wf hk)
  · rfl

theorem flagWord0_flagFieldsOf (hk : k.LayoutWf) {w : Word} (hop : opcode k w = k.layout.opFlag) :
    flagWord0 k (flagFieldsOf k w) = w := by
  have hcode : k.layout.flagIdCodeBits ≤ 32 := by
    have := (fieldsWf_iff.1 hk.2.2.2.1).1 (k.layout.flagIdCode, k.layout.flagIdCodeBits) (by simp [Cfg.flagFields])
    omega
  refine pack_read (fs := flagFilled k (flagFieldsOf k w)) fun f hf => ?_
  simp only [flagFilled, List.mem_cons, List.not_mem_nil, or_false] at hf
  rcases hf with rfl | rfl | rfl | rfl
  · exact setWidth_opcode hop (opcode_wf hk)
  · exact flagBit_bitAt w _
  · exact flagBit_bitAt w _
  · exact setWidth_fieldOf hcode

/-- A field of a format that makes sense is at most a word wide. -/
theorem width_le_of_format {n : Nat} {fs : List (Nat × Nat × Nat)} (h : FormatWf n fs) {j lo m : Nat} (hm : (j, lo, m) ∈ fs) :
    m ≤ 32 := by
  have := (fieldsWf_iff.1 (h.2 j (h.1 _ hm))).1 (lo, m) (mem_atWord.2 hm)
  omega

theorem encodeData_dataFieldsOf (hk : k.LayoutWf) {w : Word} {rest : List Word} (hop : opcode k w = k.layout.opData)
    (hlen : rest.length + 1 = k.layout.dataWords) : encodeData k (dataFieldsOf k (w :: rest)) = w :: rest := by
  have hfmt : FormatWf k.layout.dataWords k.dataFormat := hk.2.2.2.2.1
  have hL : k.lenBits ≤ 32 := width_le_of_format hfmt (j := k.layout.dataLength.word) (lo := k.layout.dataLength.lo) (by simp [Cfg.dataFormat])
  have hE : k.extBits ≤ 32 := width_le_of_format hfmt (j := k.layout.dataDstExt.word) (lo := k.layout.dataDstExt.lo) (by simp [Cfg.dataFormat])
  refine packWords_read (fs := dataFilled k (dataFieldsOf k (w :: rest))) hlen fun f hf => ?_
  simp only [dataFilled, List.mem_cons, List.not_mem_nil, or_false] at hf
  rcases hf with rfl | rfl | rfl | rfl | rfl | rfl | rfl | rfl
  · exact setWidth_opcode hop (opcode_wf hk)
  · rfl
  · rfl
  · exact setWidth_fieldOf hL
  · exact setWidth_fieldOf hE
  · exact setWidth_fieldOf hE
  · simp [fill, bits, dataFieldsOf]
  · simp [fill, bits, dataFieldsOf]

theorem encodeStoreIv_storeIvFieldsOf (hk : k.LayoutWf) {w : Word} {rest : List Word} (hop : opcode k w = k.layout.opStoreIv)
    (hlen : rest.length + 1 = k.layout.storeIvWords) : encodeStoreIv k (storeIvFieldsOf k (w :: rest)) = w :: rest := by
  have hfmt : FormatWf k.layout.storeIvWords k.storeIvFormat := hk.2.2.2.2.2
  have hS : k.layout.storeIvSlotBits ≤ 32 :=
    width_le_of_format hfmt (j := k.layout.storeIvSlot.word) (lo := k.layout.storeIvSlot.lo) (by simp [Cfg.storeIvFormat])
  have hE : k.extBits ≤ 32 :=
    width_le_of_format hfmt (j := k.layout.storeIvDstExt.word) (lo := k.layout.storeIvDstExt.lo) (by simp [Cfg.storeIvFormat])
  refine packWords_read (fs := storeIvFilled k (storeIvFieldsOf k (w :: rest))) hlen fun f hf => ?_
  simp only [storeIvFilled, List.mem_cons, List.not_mem_nil, or_false] at hf
  rcases hf with rfl | rfl | rfl | rfl
  · exact setWidth_opcode hop (opcode_wf hk)
  · exact setWidth_fieldOf hS
  · exact setWidth_fieldOf hE
  · simp [fill, bits, storeIvFieldsOf]

/-- The row of an unrecognised opcode encodes to a word with that opcode, and is well formed if the opcode is unassigned. -/
theorem encode_unrecognisedRow (hk : k.LayoutWf) {w : Word} {i : Instr} (hu : k.layout.unassigned (opcode k w) = true)
    (h : unrecognisedRow (opcode k w) (spare [k.opcodeField] w) = some i) :
    encode k i = [w] ∧ i.space = .commandFifo ∧ i.wf k = true := by
  have hword : unrecWord0 k (opcode k w) (spare [k.opcodeField] w) = w := by
    refine pack_read (fs := [k.opcodeIs (opcode k w)]) fun f hf => ?_
    obtain rfl := List.mem_singleton.1 hf
    exact setWidth_opcode rfl (opcode_wf hk)
  have hwf : unrecWf k (opcode k w) (spare [k.opcodeField] w) = true := by
    rw [unrecWf, hu, clearOf_spare, opcode, fitsIn_fieldOf]; rfl
  unfold unrecognisedRow at h
  generalize spare [k.opcodeField] w = ig at *
  generalize hop : opcode k w = op at *
  have hnum : BitVec.ofNat 32 op.toNat = op := by simp
  split at h
  case h_12 => cases h
  all_goals
    rename_i hn
    rw [hn] at hnum
    subst hnum
    obtain rfl := Option.some.inj h
    exact ⟨congrArg (fun w => [w]) hword, rfl, hwf⟩

theorem encode_discardedRow (hk : k.LayoutWf) {w : Word} {i : Instr} (hd : descriptor k w = .discarded)
    (h : discardedRow k w = some i) : encode k i = [w] ∧ i.space = .commandFifo ∧ i.wf k = true := by
  rcases (opcode_of_descriptor k w).2.2.2.2.2 hd with ⟨hop, hlen⟩ | hu
  · rw [discardedRow, if_pos hop] at h
    obtain rfl := Option.some.inj h
    refine ⟨congrArg (fun w => [w]) (keyReservedWord0_of hk hop hlen), rfl, ?_⟩
    rw [Instr.wf, halves, clearOf_spare]
  · have hn : opcode k w ≠ k.layout.opKey := by
      simp only [Layout.unassigned, Bool.and_eq_true, bne_iff_ne] at hu
      exact hu.1.1.1.1
    rw [discardedRow, if_neg hn] at h
    exact encode_unrecognisedRow hk hu h

theorem keyWf_keyDescOf (k : Cfg) (w : Word) : keyWf k (keyDescOf k w) = true := by
  rw [keyWf, keyDescOf_fits, Bool.true_and]
  exact clearOf_spare _ _

/-- Words that decode as a command, row by row, are the words of what they decode to. -/
theorem encode_decodeCommand (hk : k.LayoutWf) {ws : List Word} {i : Instr} (h : decodeCommand k ws = some i) :
    encode k i = ws ∧ i.space = .commandFifo ∧ i.wf k = true := by
  cases ws with
  | nil => cases h
  | cons w rest =>
    have ho := opcode_of_descriptor k w
    have hpos := formats_pos hk
    rcases decodeAs_cases h with ⟨hd, hl, rfl⟩ | ⟨hd, hl, rfl⟩ | ⟨hd, hl, rfl⟩ | ⟨hd, hl, rfl⟩ | ⟨hd, hl, rfl⟩ | ⟨hd, hl, rfl⟩ |
      ⟨hd, rfl, rfl⟩ | ⟨hd, rfl, hrow⟩
    · exact ⟨by rw [encode, keyWord0_keyDescOf hk hd], rfl, by simp [Instr.wf, hl, KeyLen.words, keyWf_keyDescOf]⟩
    · exact ⟨by rw [encode, keyWord0_keyDescOf hk hd], rfl, by simp [Instr.wf, hl, KeyLen.words, keyWf_keyDescOf]⟩
    · exact ⟨by rw [encode, keyWord0_keyDescOf hk hd], rfl, by simp [Instr.wf, hl, KeyLen.words, keyWf_keyDescOf]⟩
    · exact ⟨by rw [encode, ivWord0_ivDescOf hk (ho.2.1 hd)], rfl, by simp [Instr.wf, hl, ivDescOf]⟩
    · exact ⟨encodeData_dataFieldsOf hk (ho.2.2.1 hd) (by omega), rfl,
        by simp [Instr.wf, DataFields.fits, dataFieldsOf, clearWords_spareWords]⟩
    · exact ⟨encodeStoreIv_storeIvFieldsOf hk (ho.2.2.2.1 hd) (by omega), rfl,
        by simp [Instr.wf, StoreIvFields.fits, storeIvFieldsOf, clearWords_spareWords]⟩
    · exact ⟨by rw [encode, flagWord0_flagFieldsOf hk (ho.2.2.2.2.1 hd)], rfl, by simp [Instr.wf, flagFieldsOf]⟩
    · exact encode_discardedRow hk hd hrow

/-- A value that decodes as a control code is that code. -/
theorem encode_decodeControl {v : Word} {i : Instr} (h : decodeControl k v = some i) :
    encode k i = [v] ∧ i.space = .control ∧ i.wf k = true := by
  unfold decodeControl at h
  repeat' split at h
  case isFalse.isFalse.isFalse.isFalse => cases h
  all_goals
    rename_i hv
    obtain rfl := Option.some.inj h
    exact ⟨congrArg (fun w => [w]) hv.symm, rfl, rfl⟩

/-! ### The opcode table of the default -/

/-- What the default's framer reads of a word at a boundary: the opcode and the length class, the other bits cleared. -/
def boundaryWord (op : BitVec 4) (len : BitVec 2) : Word := put 0 op ||| put 8 len

theorem boundaryWord_bits (w : Word) : boundaryWord (bits w 0 4) (bits w 8 2) = w &&& 0x30F := by
  have hmask : (0x30F : Word) = put 0 (BitVec.allOnes 4) ||| put 8 (BitVec.allOnes 2) := by decide
  rw [boundaryWord, put_bits, put_bits, hmask]
  ext i hi
  simp only [BitVec.getElem_or, BitVec.getElem_and, Bool.and_or_distrib_left]

/-- A row whose mask lies in these bits covers a word as it covers what the framer reads of it. -/
theorem covers_boundaryWord {r : TableRow} (hr : r.mask &&& 0x30F = r.mask) (w : Word) :
    r.covers (boundaryWord (bits w 0 4) (bits w 8 2)) = r.covers w := by
  rw [TableRow.covers, TableRow.covers, boundaryWord_bits, BitVec.and_assoc, BitVec.and_comm 0x30F, hr]

theorem mask_of_mem_opcodeTable : ∀ r ∈ opcodeTable, r.mask &&& 0x30F = r.mask := by decide

theorem opcode_default (w : Word) : opcode Cfg.default w = (bits w 0 4).setWidth 32 := rfl

/-- The word count reads no other bits. -/
theorem cmdWords_boundaryWord (w : Word) :
    cmdWords Cfg.default (boundaryWord (bits w 0 4) (bits w 8 2)) = cmdWords Cfg.default w := by
  have hop : opcode Cfg.default (boundaryWord (bits w 0 4) (bits w 8 2)) = opcode Cfg.default w := by
    rw [opcode_default, opcode_default, boundaryWord, bits_or, bits_put_same _ (by decide), bits_put_other _ (by decide)]
    simp
  have hlen : bits (boundaryWord (bits w 0 4) (bits w 8 2)) Cfg.default.layout.keyLen 2 = bits w Cfg.default.layout.keyLen 2 := by
    rw [show Cfg.default.layout.keyLen = 8 from rfl, boundaryWord, bits_or, bits_put_same _ (by decide), bits_put_other _ (by decide)]
    simp
  unfold cmdWords descriptor
  rw [hop, hlen]

/-- The word count at the default, by opcode and length class (30_encoding R92). -/
theorem cmdWords_default (w : Word) :
    cmdWords Cfg.default w =
      if bits w 0 4 = 1 then
        (if bits w 8 2 = 0 then 5 else if bits w 8 2 = 1 then 7 else if bits w 8 2 = 2 then 9 else 0)
      else if bits w 0 4 = 2 then 5
      else if bits w 0 4 = 5 then 4
      else if bits w 0 4 = 6 then 2
      else if bits w 0 4 = 8 then 1
      else 0 := by
  rw [← cmdWords_boundaryWord]
  generalize bits w 0 4 = op, bits w 8 2 = len
  revert op len
  decide +kernel

/-- Exactly one row covers a word that has nothing but an opcode and a length class. -/
theorem one_row_covers_boundaryWord : ∀ (op : BitVec 4) (len : BitVec 2),
    ∃ r ∈ opcodeTable, opcodeTable.filter (fun r => r.covers (boundaryWord op len)) = [r] ∧
      r.words = cmdWords Cfg.default (boundaryWord op len) := by
  decide +kernel

end Sys2Proof

namespace Sys2Proof.Proofs

/-- Settles O1: the default's checks are evaluated, and every row is read back. -/
theorem decodeOfEncodeIsTheInstruction : Obligations.DecodeOfEncodeIsTheInstruction :=
  ⟨by decide +kernel, fun _ hk _ hi => decode_encode hk hi⟩

/-- Settles O2: by word space; in the command space row by row. -/
theorem encodeOfDecodeIsTheWords : Obligations.EncodeOfDecodeIsTheWords := by
  intro k hk sp ws i h
  match sp, ws, h with
  | .commandFifo, ws, h => exact encode_decodeCommand hk.1 h
  | .control, [v], h => exact encode_decodeControl h

/-- Settles O3: no row and no word count reads more than the opcode and the length class, and there are 64 pairs of them. -/
theorem everyWordMatchesExactlyOneRow : Obligations.EveryWordMatchesExactlyOneRow := by
  intro w
  obtain ⟨r, -, hrow, hwords⟩ := one_row_covers_boundaryWord (bits w 0 4) (bits w 8 2)
  refine ⟨r, ?_, ?_⟩
  · rw [← hrow]
    exact List.filter_congr fun r hr => (covers_boundaryWord (mask_of_mem_opcodeTable r hr) w).symm
  · rw [hwords, cmdWords_boundaryWord]

/-- Settles O4. -/
theorem wordCountFollowsTheDescriptor : Obligations.WordCountFollowsTheDescriptor := cmdWords_default

/-- Settles O5: the decoder, run on the words. -/
theorem specWordsDecode : Obligations.SpecWordsDecode := by
  unfold Obligations.SpecWordsDecode
  decide +kernel

end Sys2Proof.Proofs
end

section
/-! The cipher modes on lists of blocks, then on byte strings (43_cipher_modes.md): statements O40 to O45. -/

namespace Sys2Proof.Machine

open Sys2Proof.Safety

/-! ### The modes on lists of blocks -/

variable {f g : List Byte → List Byte} {bs cs : List (List Byte)}

/-- CBC encryption: each output block is made from the chain of the IV and the output so far, and the new IV ends the chain. -/
theorem cbcEncrypt_chain (f : List Byte → List Byte) (iv : List Byte) (bs : List (List Byte)) :
    (∀ i < bs.length, (cbcEncrypt f iv bs).1.getD i [] =
      f (xorBytes (bs.getD i []) ((iv :: (cbcEncrypt f iv bs).1).getD i []))) ∧
    (cbcEncrypt f iv bs).2 = (iv :: (cbcEncrypt f iv bs).1).getD bs.length [] := by
  induction bs generalizing iv with
  | nil => exact ⟨fun i hi => absurd hi (Nat.not_lt_zero i), rfl⟩
  | cons b bs ih =>
    obtain ⟨hblocks, hiv⟩ := ih (f (xorBytes b iv))
    refine ⟨fun i hi => ?_, hiv⟩
    cases i with
    | zero => rfl
    | succ i => exact hblocks i (Nat.lt_of_succ_lt_succ hi)

/-- CBC decryption: the chain is of the IV and the input. -/
theorem cbcDecrypt_chain (f : List Byte → List Byte) (iv : List Byte) (bs : List (List Byte)) :
    (∀ i < bs.length, (cbcDecrypt f iv bs).1.getD i [] = xorBytes (f (bs.getD i [])) ((iv :: bs).getD i [])) ∧
    (cbcDecrypt f iv bs).2 = (iv :: bs).getD bs.length [] := by
  induction bs generalizing iv with
  | nil => exact ⟨fun i hi => absurd hi (Nat.not_lt_zero i), rfl⟩
  | cons b bs ih =>
    obtain ⟨hblocks, hiv⟩ := ih b
    refine ⟨fun i hi => ?_, hiv⟩
    cases i with
    | zero => rfl
    | succ i => exact hblocks i (Nat.lt_of_succ_lt_succ hi)

/-- CTR: block `i` is under the counter after `i` increments. -/
theorem ctrMode_counter (f : List Byte → List Byte) (t : List Byte) (bs : List (List Byte)) :
    (∀ i < bs.length, (ctrMode f t bs).1.getD i [] = xorBytes (bs.getD i []) (f (inc128^[i] t))) ∧
    (ctrMode f t bs).2 = inc128^[bs.length] t := by
  induction bs generalizing t with
  | nil => exact ⟨fun i hi => absurd hi (Nat.not_lt_zero i), rfl⟩
  | cons b bs ih =>
    obtain ⟨hblocks, hiv⟩ := ih (inc128 t)
    refine ⟨fun i hi => ?_, hiv⟩
    cases i with
    | zero => rfl
    | succ i => exact hblocks i (Nat.lt_of_succ_lt_succ hi)

theorem cbcEncrypt_append (f : List Byte → List Byte) (iv : List Byte) (bs cs : List (List Byte)) :
    cbcEncrypt f iv (bs ++ cs) =
      ((cbcEncrypt f iv bs).1 ++ (cbcEncrypt f (cbcEncrypt f iv bs).2 cs).1, (cbcEncrypt f (cbcEncrypt f iv bs).2 cs).2) := by
  induction bs generalizing iv with
  | nil => rfl
  | cons b bs ih => simp only [List.cons_append, cbcEncrypt, ih]

theorem cbcDecrypt_append (f : List Byte → List Byte) (iv : List Byte) (bs cs : List (List Byte)) :
    cbcDecrypt f iv (bs ++ cs) =
      ((cbcDecrypt f iv bs).1 ++ (cbcDecrypt f (cbcDecrypt f iv bs).2 cs).1, (cbcDecrypt f (cbcDecrypt f iv bs).2 cs).2) := by
  induction bs generalizing iv with
  | nil => rfl
  | cons b bs ih => simp only [List.cons_append, cbcDecrypt, ih]

theorem ctrMode_append (f : List Byte → List Byte) (t : List Byte) (bs cs : List (List Byte)) :
    ctrMode f t (bs ++ cs) = ((ctrMode f t bs).1 ++ (ctrMode f (ctrMode f t bs).2 cs).1, (ctrMode f (ctrMode f t bs).2 cs).2) := by
  induction bs generalizing t with
  | nil => rfl
  | cons b bs ih => simp only [List.cons_append, ctrMode, ih]

/-- Every mode takes blocks one after the other, through the IV (43_cipher_modes R228). -/
theorem modeBlocks_append (c : BlockCipher) (ctx : Context) (iv : List Byte) (bs cs : List (List Byte)) :
    modeBlocks c ctx iv (bs ++ cs) =
      ((modeBlocks c ctx iv bs).1 ++ (modeBlocks c ctx (modeBlocks c ctx iv bs).2 cs).1,
        (modeBlocks c ctx (modeBlocks c ctx iv bs).2 cs).2) := by
  unfold modeBlocks
  cases ctx.blockMode with
  | ecb => cases ctx.encrypt <;> simp [ecb]
  | cbc =>
    cases ctx.encrypt with
    | true => exact cbcEncrypt_append ..
    | false => exact cbcDecrypt_append ..
  | ctr => exact ctrMode_append ..
  | reserved code => rfl

/-! ### Decryption on blocks -/

/-- CBC decryption with the inverse block function undoes CBC encryption (R229). -/
theorem cbcDecrypt_cbcEncrypt (hf : ∀ x, x.length = 16 → (f x).length = 16) (hg : ∀ x, x.length = 16 → g (f x) = x) {iv : List Byte}
    (hiv : iv.length = 16) (hb : ∀ b ∈ bs, b.length = 16) : (cbcDecrypt g iv (cbcEncrypt f iv bs).1).1 = bs := by
  induction bs generalizing iv with
  | nil => rfl
  | cons b bs ih =>
    rw [List.forall_mem_cons] at hb
    have hx : (xorBytes b iv).length = 16 := by simp [hb.1, hiv]
    simp only [cbcEncrypt, cbcDecrypt]
    rw [hg _ hx, xorBytes_xorBytes (hb.1.trans hiv.symm), ih (hf _ hx) hb.2]

/-- CTR undoes itself, whatever the block function. -/
theorem ctrMode_ctrMode (hf : ∀ x, x.length = 16 → (f x).length = 16) {t : List Byte} (ht : t.length = 16)
    (hb : ∀ b ∈ bs, b.length = 16) : (ctrMode f t (ctrMode f t bs).1).1 = bs := by
  induction bs generalizing t with
  | nil => rfl
  | cons b bs ih =>
    rw [List.forall_mem_cons] at hb
    simp only [ctrMode]
    rw [xorBytes_xorBytes (hb.1.trans (hf t ht).symm), ih (length_inc128 t) hb.2]

theorem ecb_ecb (hg : ∀ x, x.length = 16 → g (f x) = x) (iv : List Byte) (hb : ∀ b ∈ bs, b.length = 16) :
    (ecb g iv (ecb f iv bs).1).1 = bs := by
  simp only [ecb, List.map_map]
  exact (List.map_congr_left fun b h => hg b (hb b h)).trans (List.map_id bs)

/-! ### Byte strings -/

/-- The transform of a string of `m` blocks (R222). -/
theorem transform_eq (c : BlockCipher) (ctx : Context) (iv : List Byte) {data : List Byte} {m : Nat} (hd : data.length = 16 * m) :
    transform c ctx iv data =
      ((modeBlocks c ctx iv (blocks m data)).1.flatten, (modeBlocks c ctx iv (blocks m data)).2) := by
  rw [transform, hd, Nat.mul_div_cancel_left m (by decide)]

/-- What the transform of whole blocks gives: as many bytes, and an IV of 16 bytes. -/
theorem transform_lengths {c : BlockCipher} (hc : CipherLawful c) (ctx : Context) {iv data : List Byte} {m : Nat} (hiv : iv.length = 16)
    (hd : data.length = 16 * m) : (transform c ctx iv data).1.length = data.length ∧ (transform c ctx iv data).2.length = 16 := by
  obtain ⟨hn, h16, hiv'⟩ := modeBlocks_blocksLike hc ctx hiv fun _ hb => length_of_mem_blocks hd hb
  rw [transform_eq c ctx iv hd]
  exact ⟨by rw [length_flatten_blocks h16, hn, length_blocks, hd], hiv'⟩

/-- Block `i` of a string of blocks, by number. -/
theorem getD_eq_block (hb : ∀ b ∈ bs, b.length = 16) {i : Nat} (hi : i < bs.length) : bs.getD i [] = block bs.flatten i := by
  rw [block_flatten hb hi, List.getD_eq_getElem _ _ hi]

theorem getD_blocks {data : List Byte} {m i : Nat} (hd : data.length = 16 * m) (hi : i < m) :
    (blocks m data).getD i [] = block data i := by
  rw [getD_eq_block (fun _ hb => length_of_mem_blocks hd hb) (by simpa using hi), flatten_blocks hd]

/-- A link of the chain of the IV and a string of blocks. -/
theorem getD_chain (hb : ∀ b ∈ bs, b.length = 16) (iv : List Byte) {i : Nat} (hi : i ≤ bs.length) :
    (iv :: bs).getD i [] = if i = 0 then iv else block bs.flatten (i - 1) := by
  cases i with
  | zero => rfl
  | succ i => rw [List.getD_cons_succ, getD_eq_block hb hi, if_neg (Nat.succ_ne_zero i), Nat.add_sub_cancel]

/-- Two transforms one after the other are one (R228). -/
theorem transform_append (c : BlockCipher) (ctx : Context) (iv : List Byte) {a b : List Byte} {m n : Nat} (ha : a.length = 16 * m)
    (hb : b.length = 16 * n) :
    transform c ctx iv (a ++ b) =
      ((transform c ctx iv a).1 ++ (transform c ctx (transform c ctx iv a).2 b).1, (transform c ctx (transform c ctx iv a).2 b).2) := by
  rw [transform_eq c ctx iv (show (a ++ b).length = 16 * (m + n) by rw [List.length_append]; omega), transform_eq c ctx iv ha,
    transform_eq c ctx _ hb, blocks_append ha, modeBlocks_append, List.flatten_append]

/-- A context that undoes another's blocks undoes its transform. -/
theorem transform_transform {c : BlockCipher} (hc : CipherLawful c) {e d : Context} {iv data : List Byte} {m : Nat} (hiv : iv.length = 16)
    (hd : data.length = 16 * m)
    (h : (modeBlocks c d iv (modeBlocks c e iv (blocks m data)).1).1 = blocks m data) :
    (transform c d iv (transform c e iv data).1).1 = data := by
  obtain ⟨hn, h16, -⟩ := modeBlocks_blocksLike hc e hiv fun _ hb => length_of_mem_blocks hd hb
  rw [length_blocks] at hn
  have hout : (transform c e iv data).1.length = 16 * m := (transform_lengths hc e hiv hd).1.trans hd
  have hblocks : blocks m (modeBlocks c e iv (blocks m data)).1.flatten = (modeBlocks c e iv (blocks m data)).1 := by
    have := blocks_flatten h16
    rwa [hn] at this
  rw [transform_eq c d iv hout, transform_eq c e iv hd]
  dsimp only
  rw [hblocks, h, flatten_blocks hd]

end Sys2Proof.Machine

namespace Sys2Proof.Proofs

open Sys2Proof.Machine Sys2Proof.Safety

/-- Settles O40: ECB maps the block function over the blocks. -/
theorem ecbTransformsEachBlock : Obligations.EcbTransformsEachBlock := by
  intro c ctx iv data m hmode hd
  have hlaw := blockCipher_lawful c
  obtain ⟨f, hf, hlen, htr⟩ : ∃ f, (∀ x, f x = if ctx.encrypt then (blockCipher c).enc (handleKey ctx) x
        else (blockCipher c).dec (handleKey ctx) x) ∧ (∀ x, x.length = 16 → (f x).length = 16) ∧
      transform (blockCipher c) ctx iv data = (((blocks m data).map f).flatten, iv) := by
    rw [transform_eq _ _ _ hd, modeBlocks, hmode]
    cases ctx.encrypt with
    | true => exact ⟨_, fun _ => rfl, hlaw.enc_length _, rfl⟩
    | false => exact ⟨_, fun _ => rfl, hlaw.dec_length _, rfl⟩
  have h16 : ∀ b ∈ (blocks m data).map f, b.length = 16 := by
    intro b hb
    obtain ⟨x, hx, rfl⟩ := List.mem_map.1 hb
    exact hlen x (length_of_mem_blocks hd hx)
  rw [htr]
  refine ⟨rfl, ?_, fun i hi => ?_⟩
  · rw [length_flatten_blocks h16, List.length_map, length_blocks, hd]
  · rw [block_flatten h16 (by simpa using hi), List.getElem_map, getElem_blocks, hf]

/-- Settles O41: the chain of the IV and the output. -/
theorem cbcEncryptChainsOnCiphertext : Obligations.CbcEncryptChainsOnCiphertext := by
  intro c ctx iv data m hmode henc hiv hd
  have htr : transform (blockCipher c) ctx iv data =
      ((cbcEncrypt ((blockCipher c).enc (handleKey ctx)) iv (blocks m data)).1.flatten,
        (cbcEncrypt ((blockCipher c).enc (handleKey ctx)) iv (blocks m data)).2) := by
    rw [transform_eq _ _ _ hd, modeBlocks, hmode, henc]; rfl
  obtain ⟨hn, h16, -⟩ := cbcEncrypt_blocksLike ((blockCipher_lawful c).enc_length (handleKey ctx)) hiv
    fun _ hb => length_of_mem_blocks hd hb
  obtain ⟨hblocks, hnew⟩ := cbcEncrypt_chain ((blockCipher c).enc (handleKey ctx)) iv (blocks m data)
  rw [length_blocks] at hn hblocks hnew
  rw [htr]
  refine ⟨fun i hi => ?_, ?_⟩
  · rw [← getD_eq_block h16 (by rwa [hn]), hblocks i hi, getD_blocks hd hi, getD_chain h16 iv (by omega)]
  · rw [hnew, getD_chain h16 iv (by omega)]

/-- Settles O42: the chain of the IV and the input. -/
theorem cbcDecryptChainsOnInput : Obligations.CbcDecryptChainsOnInput := by
  intro c ctx iv data m hmode henc hiv hd
  have htr : transform (blockCipher c) ctx iv data =
      ((cbcDecrypt ((blockCipher c).dec (handleKey ctx)) iv (blocks m data)).1.flatten,
        (cbcDecrypt ((blockCipher c).dec (handleKey ctx)) iv (blocks m data)).2) := by
    rw [transform_eq _ _ _ hd, modeBlocks, hmode, henc]; rfl
  have hin : ∀ b ∈ blocks m data, b.length = 16 := fun _ hb => length_of_mem_blocks hd hb
  obtain ⟨hn, h16, -⟩ := cbcDecrypt_blocksLike ((blockCipher_lawful c).dec_length (handleKey ctx)) hiv hin
  obtain ⟨hblocks, hnew⟩ := cbcDecrypt_chain ((blockCipher c).dec (handleKey ctx)) iv (blocks m data)
  rw [length_blocks] at hn hblocks hnew
  have hchain : ∀ i ≤ m, (iv :: blocks m data).getD i [] = if i = 0 then iv else block data (i - 1) := fun i hi => by
    rw [getD_chain hin iv (by rwa [length_blocks]), flatten_blocks hd]
  rw [htr]
  refine ⟨fun i hi => ?_, ?_⟩
  · rw [← getD_eq_block h16 (by rwa [hn]), hblocks i hi, getD_blocks hd hi, hchain i (by omega)]
  · rw [hnew, hchain m (Nat.le_refl m)]

/-- Settles O43: the counter, and the increment as a number. -/
theorem ctrCountsModulo2Pow128 : Obligations.CtrCountsModulo2Pow128 := by
  refine ⟨fun c ctx iv data m hmode hiv hd => ?_, fun t _ => ⟨length_inc128 t, ?_⟩⟩
  · have htr : transform (blockCipher c) ctx iv data =
        ((ctrMode ((blockCipher c).enc (handleKey ctx)) iv (blocks m data)).1.flatten,
          (ctrMode ((blockCipher c).enc (handleKey ctx)) iv (blocks m data)).2) := by
      rw [transform_eq _ _ _ hd, modeBlocks, hmode]
    obtain ⟨hn, h16, -⟩ := ctrMode_blocksLike ((blockCipher_lawful c).enc_length (handleKey ctx)) hiv
      fun _ hb => length_of_mem_blocks hd hb
    obtain ⟨hblocks, hnew⟩ := ctrMode_counter ((blockCipher c).enc (handleKey ctx)) iv (blocks m data)
    rw [length_blocks] at hn hblocks hnew
    rw [htr]
    exact ⟨fun i hi => by rw [← getD_eq_block h16 (by rwa [hn]), hblocks i hi, getD_blocks hd hi], hnew⟩
  · rw [inc128, beNat_beBytes16, Nat.mod_mod]

/-- Settles O44. -/
theorem transformsChainThroughTheIv : Obligations.TransformsChainThroughTheIv :=
  fun c ctx iv _ _ _ _ ha hb => transform_append c ctx iv ha hb

/-- Settles O45: mode by mode on the blocks. -/
theorem decryptionUndoesEncryption : Obligations.DecryptionUndoesEncryption := by
  intro c e d iv data m hkey hlen hmode hmd hiv hd
  have hlaw := blockCipher_lawful c
  have hb : ∀ b ∈ blocks m data, b.length = 16 := fun _ h => length_of_mem_blocks hd h
  have hk : handleKey d = handleKey e := by rw [handleKey, handleKey, hkey, hlen]
  have hctr : ∀ d' : Context, d'.blockMode = .ctr → handleKey d' = handleKey e → e.blockMode = .ctr →
      (transform (blockCipher c) d' iv (transform (blockCipher c) e iv data).1).1 = data := fun d' hd' hk' he => by
    refine transform_transform hlaw hiv hd ?_
    simp only [modeBlocks, hd', he, hk']
    exact ctrMode_ctrMode (hlaw.enc_length _) hiv hb
  refine ⟨fun henc hdec => ?_, fun he => hctr e he rfl he⟩
  cases he : e.blockMode with
  | ecb =>
    refine transform_transform hlaw hiv hd ?_
    simp only [modeBlocks, ← hmode, he, henc, hdec, hk]
    exact ecb_ecb (hlaw.dec_enc _) iv hb
  | cbc =>
    refine transform_transform hlaw hiv hd ?_
    simp only [modeBlocks, ← hmode, he, henc, hdec, hk]
    exact cbcDecrypt_cbcEncrypt (hlaw.enc_length _) (hlaw.dec_enc _) hiv hb
  | ctr => exact hctr d (hmode ▸ he) hk he
  | reserved code => rw [he] at hmd; cases hmd

end Sys2Proof.Proofs
end

section
/-! The branches of the machine's functions, one equation for each: the control codes, the engine, the register accesses and the framer
(40_register_interface.md, 41_framer_queue.md, 42_engine_commands.md); then the statements that are about one branch. -/

namespace Sys2Proof.Machine

open Sys2Proof.Safety

variable {s : State}

/-! ### The control codes -/

theorem exec_ctrlStop_of_running (h : s.running = true) : exec .ctrlStop s = .next (holdHost .stop s) := by
  simp [exec, execCtrlStop, h]

theorem exec_ctrlStop_of_stopped (h : s.running = false) : exec .ctrlStop s = .next s := by
  simp [exec, execCtrlStop, h]

theorem exec_ctrlResetEngine_of_running (h : s.running = true) : exec .ctrlResetEngine s = .next (holdHost .resetEngine s) := by
  simp [exec, execCtrlResetEngine, h]

theorem exec_ctrlResetEngine_of_stopped (h : s.running = false) : exec .ctrlResetEngine s = .next (fullReset s) := by
  simp [exec, execCtrlResetEngine, h]

/-- A line that goes down, or stays down. -/
theorem irqEdge_lower (b : Bool) : irqEdge b false = if b then [.irqLower] else [] := by cases b <;> rfl

/-- The full reset, as the reset state with what it does not touch (70_reset_and_hazards R271). -/
theorem fullReset_eq (s : State) :
    fullReset s =
      { State.reset with
        cfg := s.cfg, pending := s.pending, mem := s.mem, events := s.events, dmaAnswers := s.dmaAnswers, freeCount := s.freeCount
        trace := s.trace ++ if s.irq then [.irqLower] else [] } := by
  simp [fullReset, irqUpdate, State.reset, irqLevel, irqEdge_lower]

theorem acknowledge_of_stop (h : s.pending ≠ .resetEngine) :
    acknowledge s = { s with running := false, stopReq := false, pending := .none } := if_neg h

theorem acknowledge_of_resetEngine (h : s.pending = .resetEngine) : acknowledge s = { fullReset s with pending := .none } := if_pos h

/-! ### The engine -/

theorem engineStep_of_unexecuted {c : Inflight} (hc : s.inflight = some c) (hp : c.phase ≠ .executed) : engineStep s = engineExecute c s := by
  simp only [engineStep, hc, if_neg hp]

theorem engineStep_of_stopReq (hi : s.inflight = none) (hs : s.stopReq = true) : engineStep s = .next (acknowledge s) := by
  simp only [engineStep, hi, hs, if_true]

theorem engineStep_of_idle (hi : s.inflight = none) (hs : s.stopReq = false) (h : s.running = false ∨ s.queue = []) :
    engineStep s = .next s := by
  rcases h with hr | hq
  · simp [engineStep, hi, hs, hr]
  · simp [engineStep, hi, hs, hq]

variable {c : Inflight} {w : Word} {rest : List Word}

theorem engineExecute_of_discarded (hw : c.cmd.words = w :: rest) (h0 : cmdWords s.cfg w = 0) :
    engineExecute c s = if c.phase = .fetched then .next (unrecognisedArm s) else .fault .illFormedCommand := by
  simp only [engineExecute, hw, if_pos h0]

theorem engineExecute_of_command {i : Instr} (hw : c.cmd.words = w :: rest) (h0 : cmdWords s.cfg w ≠ 0)
    (hd : decodeCommand s.cfg c.cmd.words = some i) :
    engineExecute c s = if phaseFits i c.phase then exec i s else .fault .illFormedCommand := by
  rw [hw] at hd
  simp only [engineExecute, hw, if_neg h0, hd]

theorem engineExecute_of_undecoded (hw : c.cmd.words = w :: rest) (h0 : cmdWords s.cfg w ≠ 0) (hd : decodeCommand s.cfg c.cmd.words = none) :
    engineExecute c s = .fault .illFormedCommand := by
  rw [hw] at hd
  simp only [engineExecute, hw, if_neg h0, hd]

/-- A command the framer makes has a descriptor that is a command (10_state R33). -/
theorem commandFormed_words {k : Cfg} {c : Command} (h : CommandFormed k c) : ∃ w rest, c.words = w :: rest ∧ cmdWords k w ≠ 0 := by
  obtain ⟨_ | ⟨w, rest⟩⟩ := c
  · exact absurd h id
  · exact ⟨w, rest, rfl, fun h0 => by simp [CommandFormed, h0] at h⟩

/-- A command of the framer's runs as what it decodes to, if its phase is one it has. -/
theorem engineStep_of_formed {i : Instr} (hc : s.inflight = some c) (hp : c.phase ≠ .executed) (hform : CommandFormed s.cfg c.cmd)
    (hd : decodeCommand s.cfg c.cmd.words = some i) (hfit : phaseFits i c.phase = true) : engineStep s = exec i s := by
  obtain ⟨w, rest, hw, h0⟩ := commandFormed_words hform
  rw [engineStep_of_unexecuted hc hp, engineExecute_of_command hw h0 hd, if_pos hfit]

/-! ### Steps -/

theorem step_of_engine {rest : List Event} (h : s.events = .engine :: rest) : step s = engineStep { s with events := rest } := by
  simp only [step, h]

theorem step_of_host {op : HostOp} {rest : List Event} (h : s.events = .host op :: rest) (hp : s.pending = .none) :
    step s = hostAccess op { s with events := rest } := by
  simp only [step, h, if_pos hp]

theorem step_of_held {op : HostOp} {rest : List Event} (h : s.events = .host op :: rest) (hp : s.pending ≠ .none) :
    step s = engineStep s := by
  simp only [step, h, if_neg hp]

theorem step_of_busRead {a : Addr} {rest : List Event} (h : s.events = .busRead a :: rest) :
    step s = busRead a { s with events := rest } := by
  simp only [step, h]

theorem step_of_busWrite {a : Addr} {b : Byte} {rest : List Event} (h : s.events = .busWrite a b :: rest) :
    step s = busWrite a b { s with events := rest } := by
  simp only [step, h]

theorem step_of_noEvent (h : s.events = []) : step s = engineStep s := by
  simp only [step, h]

/-! ### Register accesses -/

/-- An access with a meaning: 32 bits, at the offset, a multiple of 4, of a register of the map (40_register_interface R133). -/
abbrev ValidAccess (k : Cfg) (off width : Nat) : Prop := width = 32 ∧ off % 4 = 0 ∧ ∃ r : Reg, k.regmap.offset r = off

theorem accessReg_of_valid {k : Cfg} {off width : Nat} (h : ValidAccess k off width) : ∃ r, accessReg k off width = .ok r := by
  obtain ⟨rfl, h4, r, hr⟩ := h
  have hsome : (regAt k off).isSome := by
    rw [regAt, List.find?_isSome]
    exact ⟨r, by cases r <;> decide, by simp [hr]⟩
  obtain ⟨r', hr'⟩ := Option.isSome_iff_exists.1 hsome
  exact ⟨r', by simp [accessReg, h4, hr']⟩

theorem accessReg_of_invalid {k : Cfg} {off width : Nat} (h : ¬ ValidAccess k off width) :
    ∃ e ∈ [Refusal.accessWidth, .misalignedOffset, .undefinedOffset], accessReg k off width = .error e := by
  unfold accessReg
  by_cases hw : width = 32
  · by_cases h4 : off % 4 = 0
    · cases hr : regAt k off with
      | none => exact ⟨.undefinedOffset, by simp, by simp [hw, h4]⟩
      | some r => exact absurd ⟨hw, h4, r, regAt_some hr⟩ h
    · exact ⟨.misalignedOffset, by simp, by simp [hw, h4]⟩
  · exact ⟨.accessWidth, by simp, by simp [hw]⟩

theorem controlWrite_next (v : Word) (s : State) : ∃ t, controlWrite v s = .next t := by
  unfold controlWrite
  split
  · exact exec_next _ s
  · exact ⟨s, rfl⟩

/-- Every register write answers a next state. -/
theorem writeReg_next (r : Reg) (v : Word) (s : State) : ∃ t, writeReg r v s = .next t := by
  cases r with
  | control => exact controlWrite_next v s
  | commandFifo => exact ⟨_, framerWrite_eq v s⟩
  | keyId | intStatus | intEnable | watermarks | commandFifoStatus | flagCommand => exact ⟨_, rfl⟩

/-- An access goes on exactly when it has a meaning. -/
theorem hostAccess_of_valid {off width : Nat} (h : ValidAccess s.cfg off width) (v : Word) :
    (∃ t, hostAccess (.regRead off width) s = .next t) ∧ ∃ t, hostAccess (.regWrite off width v) s = .next t := by
  obtain ⟨r, hr⟩ := accessReg_of_valid h
  obtain ⟨t, ht⟩ := writeReg_next r v s
  exact ⟨⟨emit (.regRead off (readReg r s)) s, by simp only [hostAccess, hr]⟩, ⟨t, by simp only [hostAccess, hr, ht]⟩⟩

theorem hostAccess_of_invalid {off width : Nat} (h : ¬ ValidAccess s.cfg off width) (v : Word) :
    ∃ e ∈ [Refusal.accessWidth, .misalignedOffset, .undefinedOffset],
      hostAccess (.regRead off width) s = .refused e ∧ hostAccess (.regWrite off width v) s = .refused e := by
  obtain ⟨e, he, hr⟩ := accessReg_of_invalid h
  exact ⟨e, he, by simp only [hostAccess, hr], by simp only [hostAccess, hr]⟩

/-- A 32-bit access at a register's offset reaches the register. -/
theorem regWrite_offset (hm : s.cfg.regmap.Wf) (r : Reg) (v : Word) :
    hostAccess (.regWrite (s.cfg.regmap.offset r) 32 v) s = writeReg r v s := by
  simp only [hostAccess, accessReg_offset hm r]

theorem regRead_offset (hm : s.cfg.regmap.Wf) (r : Reg) :
    hostAccess (.regRead (s.cfg.regmap.offset r) 32) s =
      .next { s with trace := s.trace ++ [.regRead (s.cfg.regmap.offset r) (readReg r s)] } := by
  simp only [hostAccess, accessReg_offset hm r]; rfl

theorem default_wf : Cfg.default.Wf := by decide +kernel

/-! ### The framer -/

/-- A word written to `COMMAND_FIFO` (41_framer_queue R160, R161). -/
theorem regWrite_commandFifo (hm : s.cfg.regmap.Wf) (w : Word) :
    hostAccess (.regWrite s.cfg.regmap.commandFifo 32 w) s =
      .next (if s.framer.need = 0 ∧ cmdWords s.cfg w = 0 then discardWord s else acceptWord w s) :=
  (regWrite_offset hm .commandFifo w).trans (framerWrite_eq w s)

/-- An accepted word that is not the last of its command. -/
theorem acceptWord_of_partial {f : Framer} (hf : framerPush w s = f) (hn : f.buf.length ≠ f.need) :
    acceptWord w s = { s with depth := s.depth + 1, overflow := decide (s.depth + 1 > s.cfg.fifoCapacity), framer := f } := by
  simp [acceptWord, hf, hn, overflowOf]

/-- An accepted word that is the last of its command. -/
theorem acceptWord_of_full {f : Framer} (hf : framerPush w s = f) (hn : f.buf.length = f.need) :
    acceptWord w s =
      { s with
        depth := s.depth + 1, overflow := decide (s.depth + 1 > s.cfg.fifoCapacity)
        queue := s.queue ++ [⟨f.buf⟩], framer := ⟨[], 0⟩ } := by
  simp [acceptWord, hf, hn, overflowOf]

theorem framerPush_boundary (h : s.framer.need = 0) : framerPush w s = ⟨[w], cmdWords s.cfg w⟩ := if_pos h

theorem framerPush_inside (h : s.framer.need ≠ 0) : framerPush w s = ⟨s.framer.buf ++ [w], s.framer.need⟩ := if_neg h

theorem writeWords_cons_of_next {w : Word} {ws : List Word} {t : State}
    (h : hostAccess (.regWrite s.cfg.regmap.commandFifo 32 w) s = .next t) : writeWords (w :: ws) s = writeWords ws t := by
  simp only [writeWords, h]

/-- The words of a command after the first, written inside it: the last one moves the command to the queue (41_framer_queue R164, R165). -/
theorem writeWords_inside (ws : List Word) (hws : ws ≠ []) (s : State) (hm : s.cfg.regmap.Wf) {buf : List Word} {need : Nat}
    (hf : s.framer = ⟨buf, need⟩) (hneed : buf.length + ws.length = need) :
    writeWords ws s =
      .next
        { s with
          queue := s.queue ++ [⟨buf ++ ws⟩], framer := ⟨[], 0⟩, depth := s.depth + ws.length
          overflow := decide (s.depth + ws.length > s.cfg.fifoCapacity) } := by
  induction ws generalizing s buf with
  | nil => exact absurd rfl hws
  | cons w ws ih =>
    rw [List.length_cons] at hneed
    have hn : s.framer.need ≠ 0 := by rw [hf]; dsimp only; omega
    have hpush : framerPush w s = ⟨buf ++ [w], need⟩ := by rw [framerPush_inside hn, hf]
    have hwrite := regWrite_commandFifo hm w
    rw [if_neg fun h => hn h.1] at hwrite
    rw [writeWords_cons_of_next hwrite]
    cases ws with
    | nil => rw [acceptWord_of_full hpush (by simpa using hneed)]; rfl
    | cons w' ws =>
      rw [acceptWord_of_partial hpush (by simp at hneed ⊢; omega), ih (by simp) _ ?wf (buf := buf ++ [w]) ?framer ?length]
      case wf => exact hm
      case framer => rfl
      case length => rw [List.length_append, List.length_singleton]; omega
      simp [Nat.add_assoc, Nat.add_comm 1]

end Sys2Proof.Machine

namespace Sys2Proof.Proofs

open Sys2Proof.Machine Sys2Proof.Safety

/-- Settles O9. -/
theorem accessesOutsideTheMapAreRefused : Obligations.AccessesOutsideTheMapAreRefused := by
  refine ⟨fun off width v s => ⟨fun h => hostAccess_of_valid h v, fun h => ?_⟩, rfl⟩
  obtain ⟨e, -, hread, hwrite⟩ := hostAccess_of_invalid h v
  exact ⟨⟨e, hread⟩, ⟨e, hwrite⟩⟩

/-- Settles O10. -/
theorem statusAndEnableWrites : Obligations.StatusAndEnableWrites :=
  fun v _ hwf => ⟨regWrite_offset hwf.2.1 .intStatus v, regWrite_offset hwf.2.1 .intEnable v⟩

/-- Settles O12. -/
theorem startSetsTheEngineRunning : Obligations.StartSetsTheEngineRunning := fun _ => rfl

/-- Settles O13. -/
theorem stopHoldsTheHostWhileTheEngineRuns : Obligations.StopHoldsTheHostWhileTheEngineRuns :=
  fun _ => ⟨exec_ctrlStop_of_running, exec_ctrlStop_of_stopped⟩

/-- Settles O14. -/
theorem resetDrainsQueueAndFramer : Obligations.ResetDrainsQueueAndFramer := fun _ => rfl

/-- Settles O15. -/
theorem resetEngineResetsOrHolds : Obligations.ResetEngineResetsOrHolds :=
  fun s => ⟨exec_ctrlResetEngine_of_running, fun h => by rw [exec_ctrlResetEngine_of_stopped h, fullReset_eq]⟩

/-- Settles O16. -/
theorem otherControlValuesDoNothing : Obligations.OtherControlValuesDoNothing := by
  refine ⟨fun v s hwf h1 h2 h3 h4 => ?_, rfl⟩
  refine (regWrite_offset hwf.2.1 .control v).trans ?_
  rcases controlWrite_cases v s with ⟨h, -⟩ | ⟨h, -⟩ | ⟨h, -⟩ | ⟨h, -⟩ | ⟨-, h⟩
  · exact absurd h h1
  · exact absurd h h2
  · exact absurd h h3
  · exact absurd h h4
  · exact h

/-- Settles O19: the five cases of the framer's push. -/
theorem framerTakesOneWord : Obligations.FramerTakesOneWord := by
  intro w s hwf counted write
  have hwrite : write = _ := regWrite_commandFifo hwf.2.1 w
  refine ⟨fun hn h0 => ?_, fun hn h1 => ?_, fun hn h1 => ?_, fun hn hlast => ?_, fun hn hlast => ?_⟩
  · rw [hwrite, if_pos ⟨hn, h0⟩]; rfl
  · rw [hwrite, if_neg (by omega), acceptWord_of_full (framerPush_boundary hn) (by simp [h1])]
  · rw [hwrite, if_neg (by omega), acceptWord_of_partial (framerPush_boundary hn) (by simp; omega)]
  · rw [hwrite, if_neg (by omega), acceptWord_of_full (framerPush_inside hn) (by simpa using hlast)]
  · rw [hwrite, if_neg (by omega), acceptWord_of_partial (framerPush_inside hn) (by simpa using hlast)]

/-- Settles O20: the first word opens the command, or is the whole of it; the others are written inside it. -/
theorem aWholeCommandIsFramed : Obligations.AWholeCommandIsFramed := by
  intro w rest s hwf hlen hframer
  have hneed : s.framer.need = 0 := by rw [hframer]
  have hwrite := regWrite_commandFifo hwf.2.1 w
  rw [if_neg (by omega)] at hwrite
  rw [writeWords_cons_of_next hwrite]
  cases rest with
  | nil => rw [acceptWord_of_full (framerPush_boundary hneed) hlen.symm, ← hframer]; rfl
  | cons w' rest =>
    rw [acceptWord_of_partial (framerPush_boundary hneed) (by simp at hlen ⊢; omega),
      writeWords_inside (w' :: rest) (by simp) _ ?wf (buf := [w]) (need := cmdWords s.cfg w) ?framer ?length]
    case wf => exact hwf.2.1
    case framer => rfl
    case length => rw [hlen, List.length_singleton, Nat.add_comm]
    simp [hframer, Nat.add_assoc, Nat.add_comm 1]

/-- Settles O24. -/
theorem acknowledgementStopsAndReleases : Obligations.AcknowledgementStopsAndReleases := by
  intro s hs hi
  rw [engineStep_of_stopReq hi hs]
  exact ⟨fun h => by rw [acknowledge_of_stop h], fun h => by rw [acknowledge_of_resetEngine h, fullReset_eq]; rfl⟩

/-- Settles O25. -/
theorem anIdleEngineChangesNothing : Obligations.AnIdleEngineChangesNothing := fun _ => engineStep_of_idle

/-- Settles O26: an opcode that is none of the five has no words to count. -/
theorem theUnrecognisedArmRaisesAndExecutes : Obligations.TheUnrecognisedArmRaisesAndExecutes := by
  intro s ws w rest b hi hws hop
  simp only [List.mem_cons, List.not_mem_nil, or_false, not_or] at hop
  have h0 : cmdWords s.cfg w = 0 := cmdWords_of_discarded (by simp [descriptor, hop])
  rw [engineStep_of_unexecuted hi (by simp), engineExecute_of_discarded hws h0, if_pos rfl, unrecognisedArm, setPhase_raise, inPhase, hi]
  rfl

end Sys2Proof.Proofs
end

section
/-! What a step can do to the part of the state that the commands do not touch, said once on top of `StepForm`: a step of the command in
flight, a step that only moves registers, memory and the record, or one of the eight that move the queue, the engine or the framer. -/

namespace Sys2Proof.Machine

open Sys2Proof.Safety

/-- The configuration, the framer, the queue and the engine's controls are as they were. -/
structure ControlKept (s t : State) : Prop where
  cfg     : t.cfg = s.cfg
  depth   : t.depth = s.depth
  framer  : t.framer = s.framer
  queue   : t.queue = s.queue
  running : t.running = s.running
  stopReq : t.stopReq = s.stopReq
  pending : t.pending = s.pending

/-- The command in flight is the same command, in the same or a later phase. -/
abbrev SameCommand (s t : State) : Prop :=
  ∃ c c', s.inflight = some c ∧ t.inflight = some c' ∧ c'.cmd = c.cmd ∧ phaseRank c.phase ≤ phaseRank c'.phase

/-- The kinds of a step. `ev` and `rest` are the events that are left. -/
inductive StepKind (s : State) : State → Prop
  /-- The execute step of the command in flight (42_engine_commands R200), which it waits in or goes on from. -/
  | command (t) (hk : ControlKept s t) (hc : SameCommand s t) (hp : ∀ c, s.inflight = some c → c.phase ≠ .executed) : StepKind s t
  /-- A register access or another master's byte that moves nothing of the queue and the engine. -/
  | outside (t) (hk : ControlKept s t) (hi : t.inflight = s.inflight) : StepKind s t
  | complete (ev c) (hi : s.inflight = some c) (hp : c.phase = .executed) : StepKind s (Machine.complete c.cmd { s with events := ev })
  | acknowledge (ev) (hi : s.inflight = none) (hs : s.stopReq = true) : StepKind s (Machine.acknowledge { s with events := ev })
  | dequeue (ev c rest) (hi : s.inflight = none) (hr : s.running = true) (hq : s.queue = c :: rest) :
      StepKind s (Machine.dequeue c rest { s with events := ev })
  | accept (rest w) (hn : ¬ (s.framer.need = 0 ∧ cmdWords s.cfg w = 0)) : StepKind s (acceptWord w { s with events := rest })
  | start (rest) (he : s.events = .host (.regWrite s.cfg.regmap.control 32 s.cfg.ctrl.start) :: rest) (hp : s.pending = .none) :
      StepKind s { s with events := rest, running := true }
  | hold (rest p) (hp : s.pending = .none) (hr : s.running = true) (hn : p ≠ .none) : StepKind s (holdHost p { s with events := rest })
  | drain (rest) : StepKind s (Machine.drain { s with events := rest })
  | fullReset (rest) (hp : s.pending = .none) (hr : s.running = false) : StepKind s (Machine.fullReset { s with events := rest })

/-! ### The commands' execute steps -/

variable {s s' : State} {c : Inflight}

/-- A command step that ends in a change of phase. -/
theorem StepKind.setPhase {p : Phase} (hi : s.inflight = some c) (hp : c.phase ≠ .executed) (hk : ControlKept s s')
    (hs : s'.inflight = s.inflight) (hr : phaseRank c.phase ≤ phaseRank p) : StepKind s (setPhase p s') :=
  .command _ ⟨hk.cfg, hk.depth, hk.framer, hk.queue, hk.running, hk.stopReq, hk.pending⟩
    ⟨c, { c with phase := p }, hi, by simp [hs, hi], rfl, hr⟩ (by simp [hi, hp])

theorem StepKind.setBuffer {b : List Byte} {p : Phase} (hi : s.inflight = some c) (hp : c.phase ≠ .executed) (hk : ControlKept s s')
    (hs : s'.inflight = s.inflight) (hr : phaseRank c.phase ≤ phaseRank p) : StepKind s (setBuffer b p s') :=
  .command _ ⟨hk.cfg, hk.depth, hk.framer, hk.queue, hk.running, hk.stopReq, hk.pending⟩
    ⟨c, { c with phase := p, buf := b }, hi, by simp [hs, hi], rfl, hr⟩ (by simp [hi, hp])

theorem phaseRank_le_executed (p : Phase) : phaseRank p ≤ phaseRank .executed := by cases p <;> decide

theorem stepKind_keyExecute (hi : s.inflight = some c) (hp : c.phase ≠ .executed) (ev : List Event) (len : KeyLen) (d : KeyDesc)
    (ws : List Word) : StepKind s (keyExecute len d ws { s with events := ev }) := by
  rcases keyExecute_cases len d ws { s with events := ev } with ⟨-, h⟩ | ⟨-, h⟩ <;> rw [h]
  · exact .setPhase hi hp ⟨rfl, rfl, rfl, rfl, rfl, rfl, rfl⟩ rfl (phaseRank_le_executed _)
  · exact .setPhase hi hp ⟨rfl, rfl, rfl, rfl, rfl, rfl, rfl⟩ rfl (phaseRank_le_executed _)

theorem stepKind_flagExecute (hi : s.inflight = some c) (hp : c.phase ≠ .executed) (ev : List Event) (d : FlagFields) :
    StepKind s (flagExecute d { s with events := ev }) := by
  rcases flagExecute_cases d { s with events := ev } with ⟨-, h⟩ | ⟨-, h⟩ <;> rw [h]
  · exact .setPhase hi hp ⟨rfl, rfl, rfl, rfl, rfl, rfl, rfl⟩ rfl (phaseRank_le_executed _)
  · exact .setPhase hi hp ⟨rfl, rfl, rfl, rfl, rfl, rfl, rfl⟩ rfl (phaseRank_le_executed _)

/-- A command that waits for the oracle. -/
theorem StepKind.wait (hi : s.inflight = some c) (hp : c.phase ≠ .executed) (hk : ControlKept s s') (hs : s'.inflight = s.inflight) :
    StepKind s s' :=
  .command _ hk ⟨c, c, hi, hs.trans hi, rfl, Nat.le_refl _⟩ (by simp [hi, hp])

theorem stepKind_dataExecute (hi : s.inflight = some c) (hp : c.phase = .fetched) (ev : List Event) (d : DataFields) :
    StepKind s (dataExecute d { s with events := ev }) := by
  have hne : c.phase ≠ .executed := by simp [hp]
  rcases dataExecute_cases d { s with events := ev } with ⟨-, h⟩ | ⟨-, -, h⟩ | ⟨-, h⟩ <;> rw [h]
  · exact .setPhase hi hne ⟨rfl, rfl, rfl, rfl, rfl, rfl, rfl⟩ rfl (phaseRank_le_executed _)
  · exact .setPhase hi hne ⟨rfl, rfl, rfl, rfl, rfl, rfl, rfl⟩ rfl (phaseRank_le_executed _)
  · obtain ⟨-, ⟨a, f, tr, rfl⟩, ⟨b, -, hl⟩ | hl⟩ := dataLoad_cases d { s with events := ev } <;> rw [hl]
    · exact .setBuffer hi hne ⟨rfl, rfl, rfl, rfl, rfl, rfl, rfl⟩ rfl (by rw [hp]; decide)
    · exact .wait hi hne ⟨rfl, rfl, rfl, rfl, rfl, rfl, rfl⟩ rfl

theorem stepKind_dataWriteBack (hi : s.inflight = some c) (hp : c.phase ≠ .executed) (ev : List Event) (d : DataFields) :
    StepKind s (dataWriteBack d { s with events := ev }) := by
  obtain ⟨-, bs, ⟨a, f, tr, rfl⟩, -, h | h⟩ := dataWriteBack_cases d { s with events := ev } <;> rw [h]
  · exact .setPhase hi hp ⟨rfl, rfl, rfl, rfl, rfl, rfl, rfl⟩ rfl (phaseRank_le_executed _)
  · exact .wait hi hp ⟨rfl, rfl, rfl, rfl, rfl, rfl, rfl⟩ rfl

theorem stepKind_storeIvExecute (hi : s.inflight = some c) (hp : c.phase ≠ .executed) (ev : List Event) (d : StoreIvFields) :
    StepKind s (storeIvExecute d { s with events := ev }) := by
  obtain ⟨-, bs, ⟨a, f, tr, rfl⟩, -, h | h⟩ := storeIvExecute_cases d { s with events := ev } <;> rw [h]
  · exact .setPhase hi hp ⟨rfl, rfl, rfl, rfl, rfl, rfl, rfl⟩ rfl (phaseRank_le_executed _)
  · exact .wait hi hp ⟨rfl, rfl, rfl, rfl, rfl, rfl, rfl⟩ rfl

/-- Every step is of one of the kinds. -/
theorem step_kind {s t : State} (h : step s = .next t) : StepKind s t := by
  cases step_form h with
  | complete ev c hi hp => exact .complete ev c hi hp
  | unrecognised ev c w rest hi hp hw h0 =>
    exact .setPhase hi (by simp [hp]) ⟨rfl, rfl, rfl, rfl, rfl, rfl, rfl⟩ rfl (phaseRank_le_executed _)
  | key ev c i len d ws hi hp hd hf hk => exact stepKind_keyExecute hi hp ev len d ws
  | iv ev c d ws hi hp hd hf => exact .setPhase hi hp ⟨rfl, rfl, rfl, rfl, rfl, rfl, rfl⟩ rfl (phaseRank_le_executed _)
  | dataFetched ev c d hi hd hp => exact stepKind_dataExecute hi hp ev d
  | dataLoaded ev c d hi hd hp =>
    exact .setBuffer hi (by simp [hp]) ⟨rfl, rfl, rfl, rfl, rfl, rfl, rfl⟩ rfl (by rw [hp]; decide)
  | dataXformed ev c d hi hd hp => exact stepKind_dataWriteBack hi (by simp [hp]) ev d
  | storeIv ev c d hi hp hd hf => exact stepKind_storeIvExecute hi hp ev d
  | flag ev c d hi hp hd hf => exact stepKind_flagExecute hi hp ev d
  | acknowledge ev hi hs => exact .acknowledge ev hi hs
  | dequeue ev c rest hi hs hr hq => exact .dequeue ev c rest hi hr hq
  | accept rest w he hp hn => exact .accept rest w hn
  | start rest he hp => exact .start rest he hp
  | hold rest p hp hr hn => exact .hold rest p hp hr hn
  | drain rest hp => exact .drain rest
  | fullReset rest he hp hr => exact .fullReset rest hp hr
  | idle | read | discard | clearStatus | enable | watermarks | busRead | busWrite =>
    exact .outside _ ⟨rfl, rfl, rfl, rfl, rfl, rfl, rfl⟩ rfl

end Sys2Proof.Machine
end

section
/-! What a step can do to each field that carries a clause of the invariant: the cause of every change (10_state.md, 60_exceptions.md), with the
frames of the operations that `Laws/State` leaves out. -/

namespace Sys2Proof.Machine

open Sys2Proof.Safety

variable {s t : State}

/-! ### Frames -/

/-- KEY replaces its context, and touches nothing else but the status, the line and the phase. -/
theorem keyExecute_state (len : KeyLen) (d : KeyDesc) (ws : List Word) (s : State) :
    ∃ st ir tr, keyExecute len d ws s =
      { s with
        ctxs := s.ctxs.set d.ctx (keyContext s.cfg.keyselSoftware len d ws), intStatus := st, irq := ir, trace := tr
        inflight := inPhase s .executed } := by
  rcases keyExecute_cases len d ws s with ⟨-, h⟩ | ⟨-, h⟩ <;> exact ⟨_, _, _, h⟩

theorem flagExecute_state (d : FlagFields) (s : State) :
    ∃ st ir tr, flagExecute d s =
      { s with
        flagCommand := put s.cfg.regmap.flagCode (d.idCode.setWidth s.cfg.regmap.flagCodeBits), intStatus := st, irq := ir, trace := tr
        inflight := inPhase s .executed } := by
  rcases flagExecute_cases d s with ⟨-, h⟩ | ⟨-, h⟩ <;> exact ⟨_, _, _, h⟩

theorem dataLoad_state (d : DataFields) (s : State) :
    ∃ fl a f tr, dataLoad d s = { s with inflight := fl, dmaAnswers := a, freeCount := f, trace := tr } := by
  obtain ⟨-, ⟨a, f, tr, rfl⟩, ⟨b, -, h⟩ | h⟩ := dataLoad_cases d s <;> exact ⟨_, _, _, _, h⟩

/-- The first step of DATA touches nothing but the status, the line, the command in flight and the environment. -/
theorem dataExecute_state (d : DataFields) (s : State) :
    ∃ st ir fl a f tr, dataExecute d s =
      { s with intStatus := st, irq := ir, inflight := fl, dmaAnswers := a, freeCount := f, trace := tr } := by
  rcases dataExecute_cases d s with ⟨-, h⟩ | ⟨-, -, h⟩ | ⟨-, h⟩
  · exact ⟨_, _, _, _, _, _, h⟩
  · exact ⟨_, _, _, _, _, _, h⟩
  · obtain ⟨_, _, _, _, hl⟩ := dataLoad_state d s
    exact ⟨_, _, _, _, _, _, h.trans hl⟩

theorem dataWriteBack_state (d : DataFields) (s : State) :
    ∃ bs fl a f tr, bs.length ≤ dataLength d ∧ dataWriteBack d s =
      { s with mem := s.mem.writeBytes (dataDst d).toNat bs, inflight := fl, dmaAnswers := a, freeCount := f, trace := tr } := by
  obtain ⟨-, bs, ⟨a, f, tr, rfl⟩, hb, h | h⟩ := dataWriteBack_cases d s <;> exact ⟨bs, _, _, _, _, hb, h⟩

theorem storeIvExecute_state (d : StoreIvFields) (s : State) :
    ∃ bs fl a f tr, bs.length ≤ 16 ∧ storeIvExecute d s =
      { s with mem := s.mem.writeBytes (storeIvDst d).toNat bs, inflight := fl, dmaAnswers := a, freeCount := f, trace := tr } := by
  obtain ⟨-, bs, ⟨a, f, tr, rfl⟩, hb, h | h⟩ := storeIvExecute_cases d s <;> exact ⟨bs, _, _, _, _, hb, h⟩

@[simp] theorem acknowledge_cfg (s : State) : (acknowledge s).cfg = s.cfg := by unfold acknowledge; split <;> rfl
@[simp] theorem acknowledge_running (s : State) : (acknowledge s).running = false := by unfold acknowledge; split <;> rfl
@[simp] theorem acknowledge_stopReq (s : State) : (acknowledge s).stopReq = false := by unfold acknowledge; split <;> rfl
@[simp] theorem acknowledge_pending (s : State) : (acknowledge s).pending = .none := by unfold acknowledge; split <;> rfl
@[simp] theorem acknowledge_mem (s : State) : (acknowledge s).mem = s.mem := by unfold acknowledge; split <;> rfl
@[simp] theorem acknowledge_events (s : State) : (acknowledge s).events = s.events := by unfold acknowledge; split <;> rfl
@[simp] theorem acknowledge_dmaAnswers (s : State) : (acknowledge s).dmaAnswers = s.dmaAnswers := by unfold acknowledge; split <;> rfl

/-- With nothing in flight the acknowledgement leaves it so. -/
theorem acknowledge_inflight (h : s.inflight = none) : (acknowledge s).inflight = none := by
  unfold acknowledge; split
  · rfl
  · exact h

/-! ### The command in flight -/

theorem phase_of_inflight {c : Inflight} (h : s.inflight = some c) : s.phase = c.phase := by simp [State.phase, h]

theorem scratch_of_inflight {c : Inflight} (h : s.inflight = some c) : s.scratch = c.buf := by simp [State.scratch, h]

theorem executesKey_of_isKey {c : Inflight} {i : Instr} {len : KeyLen} {d : KeyDesc} {ws : List Word} (hi : s.inflight = some c)
    (hp : c.phase ≠ .executed) (hd : decodeCommand s.cfg c.cmd.words = some i) (hk : IsKey len d ws i) : ExecutesKey s len d ws := by
  rcases hk with ⟨rfl, rfl⟩ | ⟨rfl, rfl⟩ | ⟨rfl, rfl⟩ <;> exact ⟨c, hi, hp, hd⟩

/-! ### Causes, field by field -/

/-- No step changes the configuration (10_state R45). -/
theorem step_cfg (h : step s = .next t) : t.cfg = s.cfg := by
  cases step_kind h with
  | command _ hk | outside _ hk => exact hk.cfg
  | acknowledge ev => exact acknowledge_cfg _
  | complete | dequeue | accept | start | hold | drain | fullReset => rfl

/-- What a step does to the contexts (10_state R21, R24). -/
theorem step_ctxs (h : step s = .next t) :
    t.ctxs = s.ctxs ∨
    (∃ len d key, ExecutesKey s len d key ∧ t.ctxs = s.ctxs.set d.ctx (keyContext s.cfg.keyselSoftware len d key)) ∨
    (ResetsAll s ∧ t.ctxs = ⟨Context.empty, Context.empty⟩) := by
  cases step_form h with
  | key ev c i len d ws hi hp hd hf hk =>
    obtain ⟨st, ir, tr, he⟩ := keyExecute_state len d ws { s with events := ev }
    exact .inr (.inl ⟨len, d, ws, executesKey_of_isKey hi hp hd hk, by rw [he]⟩)
  | dataFetched ev c d => obtain ⟨_, _, _, _, _, _, he⟩ := dataExecute_state d { s with events := ev }; exact .inl (by rw [he])
  | dataXformed ev c d => obtain ⟨_, _, _, _, _, -, he⟩ := dataWriteBack_state d { s with events := ev }; exact .inl (by rw [he])
  | storeIv ev c d => obtain ⟨_, _, _, _, _, -, he⟩ := storeIvExecute_state d { s with events := ev }; exact .inl (by rw [he])
  | flag ev c d => obtain ⟨_, _, _, he⟩ := flagExecute_state d { s with events := ev }; exact .inl (by rw [he])
  | acknowledge ev hi hs =>
    rcases acknowledge_cases { s with events := ev } with ⟨hr, he⟩ | ⟨hr, he⟩
    · exact .inr (.inr ⟨.inr ⟨hi, hs, hr⟩, by rw [he]; rfl⟩)
    · exact .inl (by rw [he])
  | fullReset rest he hp hr => exact .inr (.inr ⟨.inl ⟨rest, he, hp, hr⟩, rfl⟩)
  | complete | unrecognised | iv | dataLoaded | dequeue | idle | read | discard | accept | start | hold | drain | clearStatus | enable
  | watermarks | busRead | busWrite => exact .inl rfl

/-- What a step does to the IV slots (10_state R25). -/
theorem step_ivs (h : step s = .next t) :
    t.ivs = s.ivs ∨
    (∃ d ws, Executes s (.iv d ws) ∧ t.ivs = s.ivs.set d.slot (bytesLe ws)) ∨
    (∃ d, Executes s (.data d) ∧ s.phase = .dataLoaded ∧ t.ivs = s.ivs.set d.ivCtx (dataResult d s).2) ∨
    (ResetsAll s ∧ t.ivs = ⟨zeroIv, zeroIv, zeroIv, zeroIv⟩) := by
  cases step_form h with
  | iv ev c d ws hi hp hd => exact .inr (.inl ⟨d, ws, ⟨c, hi, hp, hd⟩, rfl⟩)
  | dataLoaded ev c d hi hd hp =>
    exact .inr (.inr (.inl ⟨d, ⟨c, hi, by simp [hp], hd⟩, (phase_of_inflight hi).trans hp, rfl⟩))
  | key ev c i len d ws => obtain ⟨_, _, _, he⟩ := keyExecute_state len d ws { s with events := ev }; exact .inl (by rw [he])
  | dataFetched ev c d => obtain ⟨_, _, _, _, _, _, he⟩ := dataExecute_state d { s with events := ev }; exact .inl (by rw [he])
  | dataXformed ev c d => obtain ⟨_, _, _, _, _, -, he⟩ := dataWriteBack_state d { s with events := ev }; exact .inl (by rw [he])
  | storeIv ev c d => obtain ⟨_, _, _, _, _, -, he⟩ := storeIvExecute_state d { s with events := ev }; exact .inl (by rw [he])
  | flag ev c d => obtain ⟨_, _, _, he⟩ := flagExecute_state d { s with events := ev }; exact .inl (by rw [he])
  | acknowledge ev hi hs =>
    rcases acknowledge_cases { s with events := ev } with ⟨hr, he⟩ | ⟨hr, he⟩
    · exact .inr (.inr (.inr ⟨.inr ⟨hi, hs, hr⟩, by rw [he]; rfl⟩))
    · exact .inl (by rw [he])
  | fullReset rest he hp hr => exact .inr (.inr (.inr ⟨.inl ⟨rest, he, hp, hr⟩, rfl⟩))
  | complete | unrecognised | dequeue | idle | read | discard | accept | start | hold | drain | clearStatus | enable
  | watermarks | busRead | busWrite => exact .inl rfl

/-- What a step does to `INT_STATUS` (60_exceptions R240, R241, R257). -/
theorem step_status (h : step s = .next t) :
    t.intStatus = s.intStatus ∨
    (∃ c, Raises s c ∧ t.intStatus = s.intStatus ||| c.mask s.cfg) ∨
    (∃ v rest, s.events = .host (.regWrite s.cfg.regmap.intStatus 32 v) :: rest ∧ t.intStatus = s.intStatus &&& ~~~v) ∨
    (ResetsAll s ∧ t.intStatus = 0) := by
  cases step_form h with
  | unrecognised ev c w rest hi hp hw h0 => exact .inr (.inl ⟨.invalidCommand, .inr ⟨c, w, rest, hi, hp, hw, h0⟩, rfl⟩)
  | key ev c i len d ws hi hp hd hf hk =>
    rcases keyExecute_cases len d ws { s with events := ev } with ⟨-, he⟩ | ⟨hsel, he⟩
    · exact .inl (by rw [he]; rfl)
    · exact .inr (.inl ⟨.keyDisabled d.ctx, .inl ⟨len, d, ws, executesKey_of_isKey hi hp hd hk, rfl, hsel⟩, by rw [he]; rfl⟩)
  | dataFetched ev c d hi hd hp =>
    have hx : Executes s (.data d) := ⟨c, hi, by simp [hp], hd⟩
    have hf : s.phase = .fetched := (phase_of_inflight hi).trans hp
    rcases dataExecute_cases d { s with events := ev } with ⟨hl, he⟩ | ⟨hl, hdead, he⟩ | ⟨-, he⟩
    · exact .inr (.inl ⟨.invalidDataLength, ⟨d, hx, hf, hl⟩, by rw [he]; rfl⟩)
    · exact .inr (.inl ⟨.keyDisabled d.keyCtx, .inr ⟨d, hx, hf, rfl, hl, hdead⟩, by rw [he]; rfl⟩)
    · obtain ⟨_, _, _, _, hl⟩ := dataLoad_state d { s with events := ev }
      exact .inl (by rw [he, hl])
  | flag ev c d hi hp hd =>
    rcases flagExecute_cases d { s with events := ev } with ⟨hsend, he⟩ | ⟨-, he⟩
    · exact .inr (.inl ⟨.flagCommand, ⟨d, ⟨c, hi, hp, hd⟩, hsend⟩, by rw [he]; rfl⟩)
    · exact .inl (by rw [he]; rfl)
  | dataXformed ev c d => obtain ⟨_, _, _, _, _, -, he⟩ := dataWriteBack_state d { s with events := ev }; exact .inl (by rw [he])
  | storeIv ev c d => obtain ⟨_, _, _, _, _, -, he⟩ := storeIvExecute_state d { s with events := ev }; exact .inl (by rw [he])
  | discard rest w he hp hn h0 => exact .inr (.inl ⟨.invalidCommand, .inl ⟨w, rest, he, hn, h0⟩, rfl⟩)
  | clearStatus rest v he => exact .inr (.inr (.inl ⟨v, rest, he, rfl⟩))
  | acknowledge ev hi hs =>
    rcases acknowledge_cases { s with events := ev } with ⟨hr, he⟩ | ⟨hr, he⟩
    · exact .inr (.inr (.inr ⟨.inr ⟨hi, hs, hr⟩, by rw [he]; rfl⟩))
    · exact .inl (by rw [he])
  | fullReset rest he hp hr => exact .inr (.inr (.inr ⟨.inl ⟨rest, he, hp, hr⟩, rfl⟩))
  | complete | iv | dataLoaded | dequeue | idle | read | accept | start | hold | drain | enable | watermarks | busRead | busWrite =>
    exact .inl rfl

/-- What a step does to `FLAG_COMMAND` (10_state R34). -/
theorem step_flagCommand (h : step s = .next t) :
    t.flagCommand = s.flagCommand ∨
    (∃ v : BitVec s.cfg.regmap.flagCodeBits, t.flagCommand = put s.cfg.regmap.flagCode v) ∨ t.flagCommand = 0 := by
  cases step_form h with
  | flag ev c d => obtain ⟨_, _, _, he⟩ := flagExecute_state d { s with events := ev }; exact .inr (.inl ⟨_, by rw [he]⟩)
  | key ev c i len d ws => obtain ⟨_, _, _, he⟩ := keyExecute_state len d ws { s with events := ev }; exact .inl (by rw [he])
  | dataFetched ev c d => obtain ⟨_, _, _, _, _, _, he⟩ := dataExecute_state d { s with events := ev }; exact .inl (by rw [he])
  | dataXformed ev c d => obtain ⟨_, _, _, _, _, -, he⟩ := dataWriteBack_state d { s with events := ev }; exact .inl (by rw [he])
  | storeIv ev c d => obtain ⟨_, _, _, _, _, -, he⟩ := storeIvExecute_state d { s with events := ev }; exact .inl (by rw [he])
  | acknowledge ev hi hs =>
    rcases acknowledge_cases { s with events := ev } with ⟨-, he⟩ | ⟨-, he⟩
    · exact .inr (.inr (congrArg State.flagCommand he))
    · exact .inl (by rw [he])
  | fullReset => exact .inr (.inr rfl)
  | complete | unrecognised | iv | dataLoaded | dequeue | idle | read | discard | accept | start | hold | drain | clearStatus | enable
  | watermarks | busRead | busWrite => exact .inl rfl

/-- A step leaves memory as it is, or stores a string of bytes in it (20_memory R65, R71). -/
theorem step_mem (h : step s = .next t) : ∃ addr bs, t.mem = s.mem.writeBytes addr bs := by
  have kept : t.mem = s.mem → ∃ addr bs, t.mem = s.mem.writeBytes addr bs := fun he => ⟨0, [], he⟩
  cases step_form h with
  | dataXformed ev c d => obtain ⟨bs, _, _, _, _, -, he⟩ := dataWriteBack_state d { s with events := ev }; exact ⟨_, bs, by rw [he]⟩
  | storeIv ev c d => obtain ⟨bs, _, _, _, _, -, he⟩ := storeIvExecute_state d { s with events := ev }; exact ⟨_, bs, by rw [he]⟩
  | busWrite rest a b => exact ⟨a.toNat, [b], rfl⟩
  | flag ev c d => obtain ⟨_, _, _, he⟩ := flagExecute_state d { s with events := ev }; exact kept (by rw [he])
  | key ev c i len d ws => obtain ⟨_, _, _, he⟩ := keyExecute_state len d ws { s with events := ev }; exact kept (by rw [he])
  | dataFetched ev c d => obtain ⟨_, _, _, _, _, _, he⟩ := dataExecute_state d { s with events := ev }; exact kept (by rw [he])
  | acknowledge ev => exact kept (acknowledge_mem _)
  | complete | unrecognised | iv | dataLoaded | dequeue | idle | read | discard | accept | start | hold | drain | fullReset | clearStatus
  | enable | watermarks | busRead => exact kept rfl

/-- A step keeps the line at the level of `INT_STATUS` and `INT_ENABLE` (60_exceptions R252): a step that moves either updates the line. -/
theorem step_irq (hs : IrqConsistent s) (h : step s = .next t) : IrqConsistent t := by
  cases step_form h with
  | complete | unrecognised | discard | drain | fullReset | clearStatus | enable => rfl
  | key ev c i len d ws =>
    rcases keyExecute_cases len d ws { s with events := ev } with ⟨-, he⟩ | ⟨-, he⟩ <;> rw [he]
    · exact hs
    · rfl
  | flag ev c d =>
    rcases flagExecute_cases d { s with events := ev } with ⟨-, he⟩ | ⟨-, he⟩ <;> rw [he]
    · rfl
    · exact hs
  | dataFetched ev c d =>
    rcases dataExecute_cases d { s with events := ev } with ⟨-, he⟩ | ⟨-, -, he⟩ | ⟨-, he⟩ <;> rw [he]
    · rfl
    · rfl
    · obtain ⟨_, _, _, _, hl⟩ := dataLoad_state d { s with events := ev }
      rw [hl]; exact hs
  | dataXformed ev c d => obtain ⟨_, _, _, _, _, -, he⟩ := dataWriteBack_state d { s with events := ev }; rw [he]; exact hs
  | storeIv ev c d => obtain ⟨_, _, _, _, _, -, he⟩ := storeIvExecute_state d { s with events := ev }; rw [he]; exact hs
  | acknowledge ev =>
    rcases acknowledge_cases { s with events := ev } with ⟨-, he⟩ | ⟨-, he⟩ <;> rw [he]
    · rfl
    · exact hs
  | iv | dataLoaded | dequeue | idle | read | accept | start | hold | watermarks | busRead | busWrite => exact hs

end Sys2Proof.Machine
end

section
/-! The clauses of the invariant that say more than one field's cause: depth and framer (41_framer_queue R170), the queue, the command in
flight, the hold; then the invariant as a whole, and the statements that rest on it. -/

namespace Sys2Proof.Machine

open Sys2Proof.Safety

variable {s t : State}

/-! ### Depth, framer, queue -/

/-- A framer inside a command or at a boundary, as facts (10_state R31). -/
theorem framerConsistent_iff (s : State) :
    FramerConsistent s ↔
      (s.framer.buf = [] ∧ s.framer.need = 0) ∨
      ∃ w rest, s.framer.buf = w :: rest ∧ s.framer.need = cmdWords s.cfg w ∧ rest.length + 1 < s.framer.need := by
  unfold FramerConsistent
  cases h : s.framer.buf <;> simp

/-- At a boundary the framer is empty. -/
theorem framer_empty (hs : FramerConsistent s) (hn : s.framer.need = 0) : s.framer = ⟨[], 0⟩ := by
  rcases (framerConsistent_iff s).1 hs with ⟨hb, -⟩ | ⟨w, rest, -, -, hl⟩
  · exact congr (congrArg Framer.mk hb) hn
  · omega

/-- The accumulator after an accepted word: the words of one command, at most as many as it has (41_framer_queue R161). -/
theorem framerPush_spec (hs : FramerConsistent s) {w : Word} (hn : ¬ (s.framer.need = 0 ∧ cmdWords s.cfg w = 0)) :
    ∃ w0 rest, (framerPush w s).buf = w0 :: rest ∧ (framerPush w s).need = cmdWords s.cfg w0 ∧
      rest.length + 1 ≤ (framerPush w s).need ∧ rest.length = s.framer.buf.length := by
  rcases (framerConsistent_iff s).1 hs with ⟨hb, h0⟩ | ⟨w0, rest, hb, hneed, hl⟩
  · have hw : cmdWords s.cfg w ≠ 0 := fun h => hn ⟨h0, h⟩
    refine ⟨w, [], ?_⟩
    simp only [framerPush, if_pos h0, hb, List.length_nil]
    exact ⟨trivial, trivial, by omega, trivial⟩
  · refine ⟨w0, rest ++ [w], ?_⟩
    simp only [framerPush, if_neg (show s.framer.need ≠ 0 by omega), hb, List.length_append, List.length_cons]
    exact ⟨rfl, hneed, hl, rfl⟩

/-- The two cases of an accepted word: the last of its command, which goes to the queue, or not (R163 to R165). -/
theorem acceptWord_cases (hs : FramerConsistent s) {w : Word} (hn : ¬ (s.framer.need = 0 ∧ cmdWords s.cfg w = 0)) :
    (∃ w0 rest, cmdWords s.cfg w0 = rest.length + 1 ∧ rest.length = s.framer.buf.length ∧
      (acceptWord w s).queue = s.queue ++ [⟨w0 :: rest⟩] ∧ (acceptWord w s).framer = ⟨[], 0⟩) ∨
    (∃ w0 rest, rest.length + 1 < cmdWords s.cfg w0 ∧ rest.length = s.framer.buf.length ∧
      (acceptWord w s).queue = s.queue ∧ (acceptWord w s).framer = ⟨w0 :: rest, cmdWords s.cfg w0⟩) := by
  obtain ⟨w0, rest, hb, hneed, hle, hl⟩ := framerPush_spec hs hn
  rw [acceptWord_queue, acceptWord_framer]
  by_cases hfull : (framerPush w s).buf.length = (framerPush w s).need
  · rw [decide_eq_true hfull, if_pos rfl, if_pos rfl, hb]
    exact .inl ⟨w0, rest, by rw [← hneed, ← hfull, hb, List.length_cons], hl, rfl, rfl⟩
  · rw [decide_eq_false hfull, if_neg Bool.false_ne_true, if_neg Bool.false_ne_true]
    rw [hb, List.length_cons] at hfull
    exact .inr ⟨w0, rest, by omega, hl, rfl, congr (congrArg Framer.mk hb) hneed⟩

theorem inflightWords_of_inflight {c : Inflight} (h : s.inflight = some c) : inflightWords s = c.cmd.words.length := by
  simp [inflightWords, h]

theorem inflightWords_of_idle (h : s.inflight = none) : inflightWords s = 0 := by
  simp [inflightWords, h]

/-- The words in flight are a command's, so they are the same while the command is. -/
theorem inflightWords_of_sameCommand (h : SameCommand s t) : inflightWords t = inflightWords s := by
  obtain ⟨c, c', hs, ht, hcmd, -⟩ := h
  rw [inflightWords_of_inflight hs, inflightWords_of_inflight ht, hcmd]

/-- Depth and framer, with their fields and the words in flight as they were. -/
theorem depthFramer_kept (hk : ControlKept s t) (hw : inflightWords t = inflightWords s) (hd : DepthConsistent s)
    (hf : FramerConsistent s) : DepthConsistent t ∧ FramerConsistent t := by
  constructor
  · rw [DepthConsistent, hk.depth, hk.framer, hk.queue, hw]; exact hd
  · unfold FramerConsistent; rw [hk.cfg, hk.framer]; exact hf

/-- The depth of an empty framer and queue is the words in flight. -/
theorem depthFramer_empty (hd : t.depth = inflightWords t) (hf : t.framer = ⟨[], 0⟩) (hq : t.queue = []) :
    DepthConsistent t ∧ FramerConsistent t := by
  constructor
  · simp [DepthConsistent, hf, hq, hd]
  · unfold FramerConsistent; rw [hf]

theorem depthFramer_complete {c : Inflight} (ev : List Event) (hi : s.inflight = some c) (hd : DepthConsistent s)
    (hf : FramerConsistent s) :
    DepthConsistent (complete c.cmd { s with events := ev }) ∧ FramerConsistent (complete c.cmd { s with events := ev }) := by
  refine ⟨?_, hf⟩
  rw [DepthConsistent, inflightWords_of_inflight hi] at hd
  rw [DepthConsistent, inflightWords_of_idle rfl, complete_depth, complete_framer, complete_queue]
  dsimp only
  omega

theorem depthFramer_accept {w : Word} (rest : List Event) (hn : ¬ (s.framer.need = 0 ∧ cmdWords s.cfg w = 0)) (hd : DepthConsistent s)
    (hf : FramerConsistent s) :
    DepthConsistent (acceptWord w { s with events := rest }) ∧ FramerConsistent (acceptWord w { s with events := rest }) := by
  have hw : inflightWords (acceptWord w { s with events := rest }) = inflightWords s := rfl
  have hdepth : (acceptWord w { s with events := rest }).depth = s.depth + 1 := rfl
  rw [DepthConsistent] at hd
  rcases acceptWord_cases (s := { s with events := rest }) hf hn with ⟨w0, ws, hlen, hbuf, hq, hfr⟩ | ⟨w0, ws, hlen, hbuf, hq, hfr⟩
  · refine ⟨?_, (framerConsistent_iff _).2 (.inl (by rw [hfr]; exact ⟨rfl, rfl⟩))⟩
    rw [DepthConsistent, hw, hdepth, hq, hfr]
    simp only [List.map_append, List.map_cons, List.map_nil, List.sum_append, List.sum_singleton, List.length_nil, List.length_cons]
    simp only at hbuf
    omega
  · refine ⟨?_, (framerConsistent_iff _).2 (.inr ⟨w0, ws, by rw [hfr]; exact ⟨rfl, rfl, hlen⟩⟩)⟩
    rw [DepthConsistent, hw, hdepth, hq, hfr]
    simp only [List.length_cons]
    simp only at hbuf
    omega

/-- Every step keeps the equation of DEPTH, with the form of the framer (41_framer_queue R170). -/
theorem step_depth_framer (hd : DepthConsistent s) (hf : FramerConsistent s) (h : step s = .next t) :
    DepthConsistent t ∧ FramerConsistent t := by
  cases step_kind h with
  | command _ hk hc => exact depthFramer_kept hk (inflightWords_of_sameCommand hc) hd hf
  | outside _ hk hi => exact depthFramer_kept hk (by rw [inflightWords, hi, inflightWords]) hd hf
  | complete ev c hi => exact depthFramer_complete ev hi hd hf
  | acknowledge ev hi =>
    rcases acknowledge_cases { s with events := ev } with ⟨-, he⟩ | ⟨-, he⟩ <;> rw [he]
    · exact depthFramer_empty rfl rfl rfl
    · exact ⟨hd, hf⟩
  | dequeue ev c rest hi hr hq =>
    refine ⟨?_, hf⟩
    rw [DepthConsistent, hq, inflightWords_of_idle hi] at hd
    rw [DepthConsistent, dequeue_depth, dequeue_framer, dequeue_queue, inflightWords_of_inflight rfl, hd]
    simp only [List.map_cons, List.sum_cons]
    omega
  | accept rest w hn => exact depthFramer_accept rest hn hd hf
  | start | hold => exact ⟨hd, hf⟩
  | drain rest => exact depthFramer_empty rfl rfl rfl
  | fullReset rest => exact depthFramer_empty rfl rfl rfl

/-- Every step keeps the queue one of commands the framer makes (10_state R33). -/
theorem step_queueFormed (hf : FramerConsistent s) (hq : QueueFormed s) (h : step s = .next t) : QueueFormed t := by
  cases step_kind h with
  | command _ hk | outside _ hk => unfold QueueFormed; rw [hk.queue, hk.cfg]; exact hq
  | acknowledge ev =>
    rcases acknowledge_cases { s with events := ev } with ⟨-, he⟩ | ⟨-, he⟩ <;> rw [he]
    · exact List.forall_mem_nil _
    · exact hq
  | dequeue ev c rest hi hr hcons => exact fun x hx => hq x (by rw [hcons]; exact List.mem_cons_of_mem _ hx)
  | accept rest w hn =>
    rcases acceptWord_cases (s := { s with events := rest }) hf hn with ⟨w0, ws, hlen, -, hq', -⟩ | ⟨-, -, -, -, hq', -⟩ <;>
      unfold QueueFormed <;> rw [hq']
    · intro c hc
      rcases List.mem_append.1 hc with hc | hc
      · exact hq c hc
      · obtain rfl := List.mem_singleton.1 hc; exact hlen
    · exact hq
  | complete | start | hold => exact hq
  | drain | fullReset => exact List.forall_mem_nil _

end Sys2Proof.Machine
end

section
/-! The command in flight, the contexts and the hold under a step; then the invariant as a whole and the statements about every step that
rest on it: O27, O47 to O53, O55 and O56. -/

namespace Sys2Proof.Machine

open Sys2Proof.Safety

variable {s t : State} {c : Inflight}

/-! ### The buffer of the command in flight -/

/-- Only the DATA phases ask for something (10_state R39, R40). -/
theorem bufferFits_iff :
    BufferFits s c ↔ (c.phase = .dataLoaded ∨ c.phase = .dataXformed →
      ∃ d, decodeCommand s.cfg c.cmd.words = some (.data d) ∧ dataTouches d s = true ∧ c.buf.length = dataLength d) := by
  unfold BufferFits
  cases c.phase with
  | fetched | executed => simp
  | dataLoaded | dataXformed =>
    simp only [reduceCtorEq, or_true, true_or, forall_const]
    split
    · rename_i d hd; simp [hd]
    · rename_i hn; exact ⟨False.elim, fun ⟨d, hd, _⟩ => hn d hd⟩

theorem inflightFormed_iff :
    InflightFormed s ↔ ∀ c, s.inflight = some c → CommandFormed s.cfg c.cmd ∧ BufferFits s c ∧ s.running = true := by
  unfold InflightFormed
  cases s.inflight <;> simp

theorem bufferFits_of_phase (h : c.phase = .fetched ∨ c.phase = .executed) : BufferFits s c :=
  bufferFits_iff.2 fun hp => by rcases h with h | h <;> rw [h] at hp <;> simp at hp

/-- Whether a buffer fits depends on the configuration and the contexts alone. -/
theorem bufferFits_congr (hcfg : t.cfg = s.cfg) (hctxs : t.ctxs = s.ctxs) (h : BufferFits s c) : BufferFits t c := by
  rw [bufferFits_iff] at h ⊢
  simpa only [hcfg, dataTouches, State.ctx, hctxs] using h

/-- A DATA in one of its phases has passed its checks and has a buffer of its length. -/
theorem data_in_flight (hf : InflightFormed s) (hi : s.inflight = some c) {d : DataFields}
    (hd : decodeCommand s.cfg c.cmd.words = some (.data d)) (hp : c.phase = .dataLoaded ∨ c.phase = .dataXformed) :
    dataTouches d s = true ∧ c.buf.length = dataLength d := by
  obtain ⟨-, hb, -⟩ := inflightFormed_iff.1 hf c hi
  obtain ⟨d', hd', hb⟩ := bufferFits_iff.1 hb hp
  rw [hd] at hd'
  obtain rfl : d = d' := by injection hd' with h; injection h
  exact hb

/-- The checks that DATA has passed, as facts (42_engine_commands R187). -/
theorem dataTouches_iff (d : DataFields) (s : State) :
    dataTouches d s = true ↔ dataLength d % 16 = 0 ∧ (s.ctx d.keyCtx).enabled = true ∧ (s.ctx d.keyCtx).handle = .active := by
  simp [dataTouches, lengthOk, ctxLive]

/-- The transform of a loaded DATA: a buffer of the same length, and an IV of 16 bytes (43_cipher_modes R222). -/
theorem dataResult_lengths (hivs : IvsFormed s) {d : DataFields} (htouch : dataTouches d s = true)
    (hlen : s.scratch.length = dataLength d) : (dataResult d s).1.length = dataLength d ∧ (dataResult d s).2.length = 16 := by
  have hmod := ((dataTouches_iff d s).1 htouch).1
  have h := transform_lengths (blockCipher_lawful s.cfg.aes) (s.ctx d.keyCtx) (hivs d.ivCtx)
    (show s.scratch.length = 16 * (dataLength d / 16) by omega)
  exact ⟨h.1.trans hlen, h.2⟩

/-- What the first step of DATA leaves in flight: done, loaded with its length, or still waiting (42_engine_commands R187, R190). -/
theorem bufferFits_dataExecute (hi : s.inflight = some c) {d : DataFields} (hd : decodeCommand s.cfg c.cmd.words = some (.data d))
    (hp : c.phase = .fetched) {c' : Inflight} (hc' : (dataExecute d s).inflight = some c') : BufferFits (dataExecute d s) c' := by
  rcases dataExecute_cases d s with ⟨-, he⟩ | ⟨-, -, he⟩ | ⟨htouch, he⟩ <;> rw [he] at hc' ⊢
  · simp only [setPhase_inflight, raise_inflight, hi, Option.map_some, Option.some.injEq] at hc'
    subst hc'; exact bufferFits_of_phase (.inr rfl)
  · simp only [setPhase_inflight, raise_inflight, hi, Option.map_some, Option.some.injEq] at hc'
    subst hc'; exact bufferFits_of_phase (.inr rfl)
  · obtain ⟨-, ⟨a, f, tr, rfl⟩, ⟨b, hb, hl⟩ | hl⟩ := dataLoad_cases d s <;> rw [hl] at hc' ⊢
    · simp only [setBuffer_inflight, hi, Option.map_some, Option.some.injEq] at hc'
      subst hc'; exact bufferFits_iff.2 fun _ => ⟨d, hd, htouch, hb⟩
    · obtain rfl : c = c' := Option.some.inj (hi.symm.trans hc')
      exact bufferFits_of_phase (.inl hp)

/-- A command that is done asks nothing of its buffer. -/
theorem bufferFits_inPhase (ht : t.inflight = inPhase s .executed) : ∀ c', t.inflight = some c' → BufferFits t c' := by
  intro c' hc'
  rw [ht, inPhase] at hc'
  obtain ⟨c, -, rfl⟩ := Option.map_eq_some_iff.1 hc'
  exact bufferFits_of_phase (.inr rfl)

/-- A command that stays as it is, with its context, keeps its buffer. -/
theorem bufferFits_kept (hf : InflightFormed s) (hcfg : t.cfg = s.cfg) (hctxs : t.ctxs = s.ctxs) (ht : t.inflight = s.inflight) :
    ∀ c', t.inflight = some c' → BufferFits t c' :=
  fun c' hc' => bufferFits_congr hcfg hctxs (inflightFormed_iff.1 hf c' (ht ▸ hc')).2.1

theorem bufferFits_idle (ht : t.inflight = none) : ∀ c', t.inflight = some c' → BufferFits t c' :=
  fun c' hc' => by rw [ht] at hc'; cases hc'

/-- Every step leaves a buffer that fits its phase in flight. -/
theorem step_bufferFits (hf : InflightFormed s) (hivs : IvsFormed s) (h : step s = .next t) :
    ∀ c', t.inflight = some c' → BufferFits t c' := by
  cases step_form h with
  | complete | fullReset => exact bufferFits_idle rfl
  | acknowledge ev hi => exact bufferFits_idle (acknowledge_inflight hi)
  | unrecognised | iv => exact bufferFits_inPhase rfl
  | key ev c i len d ws => obtain ⟨_, _, _, he⟩ := keyExecute_state len d ws { s with events := ev }; rw [he]; exact bufferFits_inPhase rfl
  | flag ev c d => obtain ⟨_, _, _, he⟩ := flagExecute_state d { s with events := ev }; rw [he]; exact bufferFits_inPhase rfl
  | dataFetched ev c d hi hd hp => exact fun c' hc' => bufferFits_dataExecute (s := { s with events := ev }) hi hd hp hc'
  | dataLoaded ev c d hi hd hp =>
    intro c' hc'
    obtain ⟨htouch, hlen⟩ := data_in_flight hf hi hd (.inl hp)
    rw [← scratch_of_inflight hi] at hlen
    rw [dataTransform_inflight] at hc'
    obtain ⟨c0, h0, rfl⟩ := Option.map_eq_some_iff.1 hc'
    obtain rfl : c = c0 := Option.some.inj (hi.symm.trans h0)
    exact bufferFits_iff.2 fun _ => ⟨d, hd, htouch, (dataResult_lengths hivs htouch hlen).1⟩
  | dataXformed ev c d =>
    obtain ⟨-, bs, ⟨a, f, tr, rfl⟩, -, he | he⟩ := dataWriteBack_cases d { s with events := ev } <;> rw [he]
    · exact bufferFits_inPhase rfl
    · exact bufferFits_kept hf rfl rfl rfl
  | storeIv ev c d =>
    obtain ⟨-, bs, ⟨a, f, tr, rfl⟩, -, he | he⟩ := storeIvExecute_cases d { s with events := ev } <;> rw [he]
    · exact bufferFits_inPhase rfl
    · exact bufferFits_kept hf rfl rfl rfl
  | dequeue ev c rest =>
    intro c' hc'
    rw [dequeue_inflight, Option.some.injEq] at hc'
    subst hc'; exact bufferFits_of_phase (.inl rfl)
  | idle | read | discard | accept | start | hold | drain | clearStatus | enable | watermarks | busRead | busWrite =>
    exact bufferFits_kept hf rfl rfl rfl

/-- Every step leaves a command of the framer's in flight, on a running engine (10_state R33, 42_engine_commands R180). -/
theorem step_commandFormed (hf : InflightFormed s) (hq : QueueFormed s) (h : step s = .next t) :
    ∀ c', t.inflight = some c' → CommandFormed t.cfg c'.cmd ∧ t.running = true := by
  have hs := inflightFormed_iff.1 hf
  intro c' hc'
  cases step_kind h with
  | command _ hk hc =>
    obtain ⟨c, c'', hi, ht, hcmd, -⟩ := hc
    obtain rfl : c'' = c' := Option.some.inj (ht.symm.trans hc')
    obtain ⟨hform, -, hrun⟩ := hs c hi
    rw [hcmd, hk.cfg, hk.running]
    exact ⟨hform, hrun⟩
  | outside _ hk hi =>
    obtain ⟨hform, -, hrun⟩ := hs c' (hi ▸ hc')
    rw [hk.cfg, hk.running]
    exact ⟨hform, hrun⟩
  | dequeue ev c rest hi hr hcons =>
    rw [dequeue_inflight, Option.some.injEq] at hc'
    subst hc'
    exact ⟨hq c (by rw [hcons]; exact List.mem_cons_self), hr⟩
  | start rest => exact ⟨(hs c' hc').1, rfl⟩
  | accept | hold | drain => exact ⟨(hs c' hc').1, (hs c' hc').2.2⟩
  | acknowledge ev hi =>
    have hidle : (acknowledge { s with events := ev }).inflight = none := acknowledge_inflight hi
    rw [hidle] at hc'; cases hc'
  | complete | fullReset => cases hc'

theorem step_inflightFormed (hf : InflightFormed s) (hq : QueueFormed s) (hivs : IvsFormed s) (h : step s = .next t) :
    InflightFormed t :=
  inflightFormed_iff.2 fun c' hc' =>
    ⟨(step_commandFormed hf hq h c' hc').1, step_bufferFits hf hivs h c' hc', (step_commandFormed hf hq h c' hc').2⟩

/-! ### Contexts and IV slots -/

/-- A word that is no command is none of the five, whatever its row (30_encoding R105, R106). -/
theorem not_isCommand_of_discardedRow {k : Cfg} {w : Word} {i : Instr} (h : discardedRow k w = some i) : ¬ IsCommand i := by
  unfold discardedRow at h
  split at h
  · obtain rfl := Option.some.inj h; simp [IsCommand]
  · unfold unrecognisedRow at h
    split at h
    case h_12 => cases h
    all_goals obtain rfl := Option.some.inj h; simp [IsCommand]

/-- A KEY command that was decoded has the words of its length class and fields that fit (30_encoding R93, R94). -/
theorem isKey_of_decode {k : Cfg} {words : List Word} {i : Instr} (h : decodeCommand k words = some i) {len : KeyLen} {d : KeyDesc}
    {ws : List Word} (hk : IsKey len d ws i) : ws.length = len.words ∧ d.fits k = true := by
  cases words with
  | nil => cases h
  | cons w rest =>
    rcases decodeAs_cases h with ⟨-, hl, rfl⟩ | ⟨-, hl, rfl⟩ | ⟨-, hl, rfl⟩ | ⟨-, hl, rfl⟩ | ⟨-, hl, rfl⟩ | ⟨-, hl, rfl⟩ | ⟨-, -, rfl⟩ |
      ⟨-, -, hrow⟩
    iterate 3
      simp [IsKey] at hk
      obtain ⟨rfl, rfl, rfl⟩ := hk
      exact ⟨hl, keyDescOf_fits k w⟩
    iterate 4 simp [IsKey] at hk
    refine absurd ?_ (not_isCommand_of_discardedRow hrow)
    rcases hk with ⟨-, rfl⟩ | ⟨-, rfl⟩ | ⟨-, rfl⟩ <;> simp [IsCommand]

theorem executesKey_spec {len : KeyLen} {d : KeyDesc} {ws : List Word} (h : ExecutesKey s len d ws) :
    ws.length = len.words ∧ d.fits s.cfg = true := by
  cases len <;> obtain ⟨c, -, -, hd⟩ := h <;> exact isKey_of_decode hd (by simp [IsKey])

/-- An IV command that was decoded has four payload words (30_encoding R97). -/
theorem length_of_decode_iv {k : Cfg} {words : List Word} {d : IvDesc} {ws : List Word}
    (h : decodeCommand k words = some (.iv d ws)) : ws.length = 4 := by
  cases words with
  | nil => cases h
  | cons w rest =>
    rcases decodeAs_cases h with ⟨-, -, e⟩ | ⟨-, -, e⟩ | ⟨-, -, e⟩ | ⟨-, hl, e⟩ | ⟨-, -, e⟩ | ⟨-, -, e⟩ | ⟨-, -, e⟩ | ⟨-, -, hrow⟩
    case inr.inr.inr.inl => injection e with _ e; rw [e, hl]
    case inr.inr.inr.inr.inr.inr.inr => exact absurd (by simp [IsCommand]) (not_isCommand_of_discardedRow hrow)
    all_goals cases e

theorem keyWords_le (len : KeyLen) : len.words ≤ 8 := by cases len <;> decide

/-- The key bytes of a length class are the bytes of its words (43_cipher_modes R221). -/
theorem keyBytes_eq (len : KeyLen) : keyBytes len = 4 * len.words := by cases len <;> rfl

/-- The context a KEY leaves, operands that fit and a payload of its length class given (42_engine_commands R181 to R183). -/
theorem contextFormed_keyContext {k : Cfg} {len : KeyLen} {d : KeyDesc} {ws : List Word} (hl : ws.length = len.words)
    (hd : d.fits k = true) : ContextFormed k (keyContext k.keyselSoftware len d ws) := by
  simp only [KeyDesc.fits, Bool.and_eq_true] at hd
  obtain ⟨⟨⟨hsel, hfunc⟩, hmode⟩, hid⟩ := hd
  have hle := keyWords_le len
  have hbytes : (bytesLe ws).length = keyBytes len := by rw [length_bytesLe, hl, keyBytes_eq]
  refine ⟨?_, ?_, ?_, ?_, of_decide_eq_true hsel, of_decide_eq_true hfunc, hmode, of_decide_eq_true hid⟩
  · by_cases h : d.keySelect = k.keyselSoftware ∧ d.blockMode.isMode = true
    · simp [keyContext, h]
    · simp [keyContext, h]
  · exact of_decide_eq_true
  · simp only [keyContext, paddedKey, List.length_append, hbytes, keyBytes_eq, List.length_replicate, hl]
    omega
  · simp only [keyContext, paddedKey]
    rw [← hbytes, List.drop_left, hbytes, keyBytes_eq, hl]

theorem contextFormed_empty (k : Cfg) : ContextFormed k Context.empty := by
  refine ⟨?_, ?_, ?_, ?_, ?_, ?_, rfl, ?_⟩ <;> simp [Context.empty, keyBytes]

theorem step_contextsFormed (hctxs : ContextsFormed s) (h : step s = .next t) : ContextsFormed t := by
  unfold ContextsFormed
  rw [step_cfg h]
  intro n
  rcases step_ctxs h with he | ⟨len, d, ws, hx, he⟩ | ⟨-, he⟩ <;> rw [State.ctx, he]
  · exact hctxs n
  · by_cases hn : n = d.ctx
    · obtain ⟨hl, hd⟩ := executesKey_spec hx
      rw [hn, Contexts.get_set_same]
      exact contextFormed_keyContext hl hd
    · rw [Contexts.get_set_other _ _ hn]; exact hctxs n
  · rw [show (Contexts.mk Context.empty Context.empty).get n = Context.empty by rw [Contexts.get, ite_self]]
    exact contextFormed_empty s.cfg

theorem IvSlots.get_zero (k : Fin 4) : (IvSlots.mk zeroIv zeroIv zeroIv zeroIv).get k = zeroIv := by
  match k with
  | 0 | 1 | 2 | 3 => rfl

/-- A slot after one was set to 16 bytes. -/
theorem length_get_set {v : IvSlots} (hv : ∀ k, (v.get k).length = 16) (j : Fin 4) {x : List Byte} (hx : x.length = 16) (k : Fin 4) :
    ((v.set j x).get k).length = 16 := by
  by_cases hk : k = j
  · rw [hk, IvSlots.get_set_same, hx]
  · rw [IvSlots.get_set_other _ _ hk, hv]

theorem step_ivsFormed (hf : InflightFormed s) (hivs : IvsFormed s) (h : step s = .next t) : IvsFormed t := by
  intro k
  rcases step_ivs h with he | ⟨d, ws, ⟨c, -, -, hd⟩, he⟩ | ⟨d, ⟨c, hi, -, hd⟩, hp, he⟩ | ⟨-, he⟩ <;> rw [State.iv, he]
  · exact hivs k
  · exact length_get_set hivs d.slot (by rw [length_bytesLe, length_of_decode_iv hd]) k
  · obtain ⟨htouch, hlen⟩ := data_in_flight hf hi hd (.inl ((phase_of_inflight hi).symm.trans hp))
    rw [← scratch_of_inflight hi] at hlen
    exact length_get_set hivs d.ivCtx (dataResult_lengths hivs htouch hlen).2 k
  · rw [IvSlots.get_zero]; rfl

/-! ### Status, FLAG_COMMAND, the hold -/

theorem step_statusReservedZero (hs : StatusReservedZero s) (h : step s = .next t) : StatusReservedZero t := by
  unfold StatusReservedZero
  rw [step_cfg h]
  rcases step_status h with he | ⟨c, -, he⟩ | ⟨v, rest, -, he⟩ | ⟨-, he⟩ <;> rw [he]
  · exact hs
  · rw [BitVec.and_or_distrib_right, hs, mask_defined]; rfl
  · rw [BitVec.and_assoc, BitVec.and_comm (~~~v), ← BitVec.and_assoc, hs]; exact BitVec.zero_and
  · exact BitVec.zero_and

/-- A field alone in a word leaves the other bits 0. -/
theorem spare_put {lo n : Nat} (v : BitVec n) : spare [(lo, n)] (put lo v) = 0 := by
  have h := spare_pack (fs := [⟨(lo, n), v⟩]) (x := 0) (by simp [clearOf])
  simpa [pack] using h

theorem step_flagHighZero (hs : FlagHighZero s) (h : step s = .next t) : FlagHighZero t := by
  unfold FlagHighZero
  rw [step_cfg h]
  rcases step_flagCommand h with he | ⟨v, he⟩ | he <;> rw [he]
  · exact hs
  · exact spare_put v
  · exact BitVec.zero_and

theorem step_holdConsistent (hs : HoldConsistent s) (h : step s = .next t) : HoldConsistent t := by
  unfold HoldConsistent at hs ⊢
  cases step_kind h with
  | command _ hk | outside _ hk => rw [hk.stopReq, hk.pending]; exact hs
  | acknowledge ev => simp
  | hold rest p hp hr hn => simpa using hn
  | fullReset rest hp => simpa using hp
  | complete | dequeue | accept | start | drain => exact hs

/-- Every step keeps the invariant. -/
theorem step_inv (hs : Inv s) (h : step s = .next t) : Inv t where
  depth    := (step_depth_framer hs.depth hs.framer h).1
  irq      := step_irq hs.irq h
  framer   := (step_depth_framer hs.depth hs.framer h).2
  queue    := step_queueFormed hs.framer hs.queue h
  inflight := step_inflightFormed hs.inflight hs.queue hs.ivs h
  ctxs     := step_contextsFormed hs.ctxs h
  ivs      := step_ivsFormed hs.inflight hs.ivs h
  status   := step_statusReservedZero hs.status h
  flag     := step_flagHighZero hs.flag h
  hold     := step_holdConsistent hs.hold h
  mem      := by obtain ⟨addr, bs, hm⟩ := step_mem h; rw [hm]; exact Memory.wf_writeBytes hs.mem addr bs

/-- The fields of `COMMAND_FIFO_STATUS` (40_register_interface R140). -/
def fifoFields (s : State) : List Filled :=
  [⟨(s.cfg.regmap.emptyBit, 1), flagBit (fifoEmpty s)⟩, ⟨(s.cfg.regmap.fullBit, 1), flagBit (fifoFull s)⟩,
    ⟨(s.cfg.regmap.overflowBit, 1), flagBit s.overflow⟩, ⟨(s.cfg.regmap.lowBit, 1), flagBit (fifoLow s)⟩,
    ⟨(s.cfg.regmap.level, s.cfg.regmap.levelBits), BitVec.ofNat s.cfg.regmap.levelBits s.depth⟩]

theorem commandFifoStatus_eq_pack (s : State) : commandFifoStatus s = pack (fifoFields s) 0 := by
  simp [commandFifoStatus, fifoFields, pack, BitVec.or_assoc]

theorem fifoFields_wf (hm : s.cfg.regmap.Wf) : FieldsWf ((fifoFields s).map Sigma.fst) := by
  obtain ⟨-, -, -, -, hfields, -, -⟩ := hm
  exact hfields

/-- A flag of `COMMAND_FIFO_STATUS` reads as what its bit is filled with. -/
theorem bitAt_commandFifoStatus (hm : s.cfg.regmap.Wf) {i : Nat} {b : Bool} (h : (⟨(i, 1), flagBit b⟩ : Filled) ∈ fifoFields s) :
    bitAt (commandFifoStatus s) i = b := by
  rw [commandFifoStatus_eq_pack]
  exact bitAt_of_bits (bits_pack (fifoFields_wf hm) h (by simp [bits]))

theorem bitAt_emptyBit (hm : s.cfg.regmap.Wf) : bitAt (commandFifoStatus s) s.cfg.regmap.emptyBit = fifoEmpty s :=
  bitAt_commandFifoStatus hm List.mem_cons_self

/-- Under the invariant no words are outstanding exactly when framer, queue and engine are empty (41_framer_queue R170). -/
theorem depth_eq_zero_iff (hs : Inv s) : s.depth = 0 ↔ s.framer = ⟨[], 0⟩ ∧ s.queue = [] ∧ s.inflight = none := by
  have hd := hs.depth
  constructor
  · intro h0
    rw [DepthConsistent, h0] at hd
    have hform : ∀ {c : Command}, CommandFormed s.cfg c → c.words.length ≠ 0 := by
      rintro ⟨_ | ⟨w, ws⟩⟩ hc
      · exact absurd hc id
      · exact Nat.succ_ne_zero _
    refine ⟨?_, ?_, ?_⟩
    · rcases (framerConsistent_iff s).1 hs.framer with ⟨-, hn⟩ | ⟨w, rest, hb, -, -⟩
      · exact framer_empty hs.framer hn
      · rw [hb, List.length_cons] at hd; omega
    · cases hq : s.queue with
      | nil => rfl
      | cons c rest =>
        have := hform (hs.queue c (by rw [hq]; exact List.mem_cons_self))
        rw [hq, List.map_cons, List.sum_cons] at hd
        omega
    · cases hi : s.inflight with
      | none => rfl
      | some c =>
        have := hform (inflightFormed_iff.1 hs.inflight c hi).1
        rw [inflightWords_of_inflight hi] at hd
        omega
  · rintro ⟨hf, hq, hi⟩
    rw [hd, hf, hq, inflightWords_of_idle hi]; rfl

end Sys2Proof.Machine

namespace Sys2Proof.Proofs

open Sys2Proof.Machine Sys2Proof.Safety

/-- Settles O27: only the completion takes a command away; the full reset and the acknowledgement find none in flight. -/
theorem aCommandIsNeverPreempted : Obligations.ACommandIsNeverPreempted := by
  intro s t c hs hi h
  have hrun := (inflightFormed_iff.1 hs.inflight c hi).2.2
  cases step_kind h with
  | command _ hk hc =>
    obtain ⟨c0, c', hi', ht, hcmd, hrank⟩ := hc
    obtain rfl : c = c0 := Option.some.inj (hi.symm.trans hi')
    exact .inl ⟨c', ht, hcmd, hrank⟩
  | outside _ hk hi' => exact .inl ⟨c, hi'.trans hi, rfl, Nat.le_refl _⟩
  | complete ev c0 hi' hp =>
    obtain rfl : c = c0 := Option.some.inj (hi.symm.trans hi')
    exact .inr ⟨hp, rfl⟩
  | acknowledge _ hi' | dequeue _ _ _ hi' => rw [hi] at hi'; cases hi'
  | fullReset _ _ hr => rw [hrun] at hr; cases hr
  | accept | start | hold | drain => exact .inl ⟨c, hi, rfl, Nat.le_refl _⟩

/-- Settles O47. -/
theorem theLineFollowsItsLevel : Obligations.TheLineFollowsItsLevel := fun _ _ => step_irq

/-- Settles O48: of the causes of a change, only a raised condition sets a bit. -/
theorem statusBitsAreSetOnlyByTheirCauses : Obligations.StatusBitsAreSetOnlyByTheirCauses := by
  intro s t h hset
  rcases step_status h with he | ⟨c, hc, he⟩ | ⟨v, rest, -, he⟩ | ⟨-, he⟩
  · rw [he] at hset; exact absurd (BitVec.and_not_self _) hset
  · exact ⟨c, hc, he⟩
  · rw [he, BitVec.and_assoc, BitVec.and_comm (~~~v), ← BitVec.and_assoc] at hset; simp at hset
  · rw [he] at hset; exact absurd BitVec.zero_and hset

/-- Settles O49: of the causes of a change, a raised condition clears no bit. -/
theorem statusBitsAreClearedOnlyByHostOrReset : Obligations.StatusBitsAreClearedOnlyByHostOrReset := by
  intro s t h hclear
  rcases step_status h with he | ⟨c, -, he⟩ | hw | hr
  · rw [he] at hclear; exact absurd (BitVec.and_not_self _) hclear
  · rw [he, BitVec.not_or, ← BitVec.and_assoc] at hclear; simp at hclear
  · exact .inl hw
  · exact .inr hr

/-- Settles O50. -/
theorem contextsChangeOnlyByKeyOrReset : Obligations.ContextsChangeOnlyByKeyOrReset := by
  intro s t n h hne
  rcases step_ctxs h with he | ⟨len, d, key, hx, he⟩ | ⟨hr, he⟩
  · exact absurd (by rw [State.ctx, he]; rfl) hne
  · by_cases hn : d.ctx = n
    · exact .inl ⟨len, d, key, hx, hn, by rw [State.ctx, he, hn, Contexts.get_set_same]⟩
    · exact absurd (by rw [State.ctx, he, Contexts.get_set_other _ _ (Ne.symm hn)]; rfl) hne
  · exact .inr ⟨hr, by rw [State.ctx, he, Contexts.get, ite_self]⟩

/-- Settles O51. -/
theorem ivSlotsChangeOnlyByIvDataOrReset : Obligations.IvSlotsChangeOnlyByIvDataOrReset := by
  intro s t k h hne
  rcases step_ivs h with he | ⟨d, ws, hx, he⟩ | ⟨d, hx, hp, he⟩ | ⟨hr, he⟩
  · exact absurd (by rw [State.iv, he]; rfl) hne
  · by_cases hk : d.slot = k
    · exact .inl ⟨d, ws, hx, hk, by rw [State.iv, he, hk, IvSlots.get_set_same]⟩
    · exact absurd (by rw [State.iv, he, IvSlots.get_set_other _ _ (Ne.symm hk)]; rfl) hne
  · by_cases hk : d.ivCtx = k
    · exact .inr (.inl ⟨d, hx, hp, hk, by rw [State.iv, he, hk, IvSlots.get_set_same, dataResult, hk]⟩)
    · exact absurd (by rw [State.iv, he, IvSlots.get_set_other _ _ (Ne.symm hk)]; rfl) hne
  · exact .inr (.inr ⟨hr, by rw [State.iv, he, IvSlots.get_zero]; rfl⟩)

/-- A flag that stays neither rises nor falls. -/
theorem neither_of_kept {a b : Bool} (h : b = a) {p q : Prop} : (a = false → b = true → p) ∧ (a = true → b = false → q) := by
  subst h; cases b <;> simp

/-- Settles O52: of the kinds of a step only START, the acknowledgement, the completion and the full reset of a stopped engine move `running`. -/
theorem theEngineStartsAndStopsOnlyAsTold : Obligations.TheEngineStartsAndStopsOnlyAsTold := by
  intro s t h
  cases step_kind h with
  | command _ hk | outside _ hk => exact neither_of_kept hk.running
  | complete ev c hi hp =>
    cases hstop : flagStops s.cfg c.cmd with
    | false => exact neither_of_kept (by simp [hstop])
    | true =>
      refine ⟨fun _ h2 => by simp [hstop] at h2, fun _ _ => .inr ?_⟩
      cases hw : c.cmd.words with
      | nil => simp [flagStops, hw] at hstop
      | cons w rest =>
        obtain ⟨hop, hbit⟩ := (flagStops_iff hw s.cfg).1 hstop
        exact ⟨c, w, rest, hi, hp, hw, hop, hbit⟩
  | acknowledge ev hi hs => exact ⟨fun _ h2 => by simp at h2, fun _ _ => .inl ⟨hi, hs⟩⟩
  | start rest he hp => exact ⟨fun _ _ => ⟨rest, he, hp⟩, fun _ h2 => by simp at h2⟩
  | fullReset rest hp hr => exact neither_of_kept hr.symm
  | dequeue | accept | hold | drain => exact neither_of_kept rfl

/-- Settles O53: DEPTH under a step, and EMPTY as its view. -/
theorem depthCountsTheOutstandingWords : Obligations.DepthCountsTheOutstandingWords := by
  refine ⟨fun s t hd hf h => step_depth_framer hd hf h, fun s hwf hs => ?_⟩
  rw [readReg, bitAt_emptyBit hwf.2.1, fifoEmpty, decide_eq_true_iff, depth_eq_zero_iff hs]

/-- Settles O55: clause by clause on the reset state. -/
theorem theInvariantHoldsAtReset : Obligations.TheInvariantHoldsAtReset where
  depth    := rfl
  irq      := rfl
  framer   := rfl
  queue    := List.forall_mem_nil _
  inflight := trivial
  ctxs     := by decide +kernel
  ivs      := by decide +kernel
  status   := by decide +kernel
  flag     := by decide +kernel
  hold     := by decide
  mem      := ⟨List.Pairwise.nil, List.forall_mem_nil _⟩

/-- Settles O56. -/
theorem everyStepKeepsTheInvariant : Obligations.EveryStepKeepsTheInvariant :=
  fun _ _ h => ⟨fun hs => step_inv hs h, step_cfg h⟩

end Sys2Proof.Proofs
end

section
/-! Nothing public depends on keys, IV slots, buffers and memory (statement O58). A step is compared with the same step from the state's own
public view, so that the two runs of the statement meet in the view they share. -/

namespace Sys2Proof.Machine

open Sys2Proof.Safety

variable {s a b : State} {f g : State → State}

@[simp] theorem publicView_cfg (s : State) : (publicView s).cfg = s.cfg := rfl

/-! ### The view, and operations that do not look behind it -/

@[simp] theorem publicObs_publicObs (o : Obs) : publicObs (publicObs o) = publicObs o := by cases o <;> rfl

@[simp] theorem publicCtx_publicCtx (c : Context) : publicCtx (publicCtx c) = publicCtx c := rfl

/-- An operation whose public result depends on what is public alone. -/
abbrev Blind (f : State → State) : Prop := ∀ s, publicView (f (publicView s)) = publicView (f s)

theorem Blind.congr (hf : Blind f) (h : publicView a = publicView b) : publicView (f a) = publicView (f b) := by
  rw [← hf a, h, hf b]

theorem publicObs_irqEdge (x y : Bool) : (irqEdge x y).map publicObs = irqEdge x y := by
  cases x <;> cases y <;> rfl

@[simp] theorem publicView_publicView (s : State) : publicView (publicView s) = publicView s := by
  simp [publicView, Function.comp_def]

theorem blind_id : Blind fun s => s := publicView_publicView

theorem blind_emit (o : Obs) : Blind (emit o) := fun s => by simp [publicView, emit, Function.comp_def]

theorem blind_raise (c : Condition) : Blind (raise c) := fun s => by
  simp [publicView, raise, irqUpdate, publicObs_irqEdge, Function.comp_def]

theorem blind_clearStatus (v : Word) : Blind (clearStatus v) := fun s => by
  simp [publicView, clearStatus, irqUpdate, publicObs_irqEdge, Function.comp_def]

theorem blind_enable (v : Word) : Blind fun s => irqUpdate { s with intEnable := v } := fun s => by
  simp [publicView, irqUpdate, publicObs_irqEdge, Function.comp_def]

theorem blind_watermarks (v : Word) : Blind fun s => { s with watermarks := v } := fun s => by
  simp [publicView, Function.comp_def]

theorem blind_running (v : Bool) : Blind fun s => { s with running := v } := fun s => by
  simp [publicView, Function.comp_def]

theorem blind_setCtx (n : Fin 2) (x : Context) : Blind (setCtx n x) := fun s => by
  by_cases h : n = 0 <;> simp [publicView, setCtx, Contexts.set, h, Function.comp_def]

theorem blind_setPhase (p : Phase) : Blind (setPhase p) := fun s => by
  simp [publicView, setPhase, Function.comp_def]

theorem blind_skipFree (n : Nat) : Blind (skipFree n) := fun s => by
  simp [publicView, skipFree, Function.comp_def]

theorem blind_takeAnswer : Blind takeAnswer := fun s => by
  cases h : s.dmaAnswers <;> simp [publicView, takeAnswer, h, Function.comp_def]

theorem blind_drain : Blind drain := fun s => by
  cases h : s.inflight <;> simp [publicView, drain, inflightWords, h, irqUpdate, publicObs_irqEdge, Function.comp_def]

theorem blind_fullReset : Blind fullReset := fun s => by
  simp [publicView, fullReset, irqUpdate, publicObs_irqEdge, Function.comp_def]

theorem blind_storeFlag (d : FlagFields) : Blind (storeFlag d) := fun s => by
  simp [publicView, storeFlag, Function.comp_def]

theorem blind_holdHost (p : Pending) : Blind (holdHost p) := fun s => by
  simp [publicView, holdHost, Function.comp_def]

theorem blind_acknowledge : Blind acknowledge := fun s => by
  by_cases h : s.pending = .resetEngine <;>
    simp [publicView, acknowledge, h, fullReset, irqUpdate, publicObs_irqEdge, Function.comp_def]

theorem blind_complete (c : Command) : Blind (complete c) := fun s => by
  cases h : flagStops s.cfg c <;> simp [publicView, complete, h, irqUpdate, publicObs_irqEdge, Function.comp_def]

theorem blind_dequeue (c : Command) (rest : List Command) : Blind (dequeue c rest) := fun s => by
  simp [publicView, dequeue, Function.comp_def]

theorem blind_acceptWord (w : Word) : Blind (acceptWord w) := fun s => by
  have hpush : framerPush w (publicView s) = framerPush w s := rfl
  rw [acceptWord, acceptWord, hpush]
  simp [publicView, Function.comp_def]

/-! ### What is behind the view -/

@[simp] theorem publicView_setIv (k : Fin 4) (x : List Byte) (s : State) : publicView (setIv k x s) = publicView s := rfl

@[simp] theorem publicView_mem (m : Memory) (s : State) : publicView { s with mem := m } = publicView s := rfl

@[simp] theorem publicView_setBuffer (x : List Byte) (p : Phase) (s : State) :
    publicView (setBuffer x p s) = publicView (setPhase p s) := by
  simp [publicView, setBuffer, setPhase, Function.comp_def]

theorem publicView_busRead (a : Addr) (x y : Byte) (s : State) :
    publicView (emit (.busRead a x) s) = publicView (emit (.busRead a y) s) := by
  simp [publicView, emit, publicObs]

theorem publicView_ctx (s : State) (n : Fin 2) : (publicView s).ctx n = publicCtx (s.ctx n) := by
  simp only [State.ctx, publicView, Contexts.get]; split <;> rfl

@[simp] theorem publicView_phase (s : State) : (publicView s).phase = s.phase := by
  cases h : s.inflight <;> simp [State.phase, publicView, h]

/-! ### Reading a register -/

/-- What a register reads as is public (40_register_interface R132). -/
theorem readReg_publicView (r : Reg) (s : State) : readReg r (publicView s) = readReg r s := by
  cases r with
  | keyId => simp only [readReg, keyId, publicView_ctx, keyIdPart, publicCtx]; rfl
  | control | intStatus | intEnable | watermarks | commandFifoStatus | flagCommand | commandFifo => rfl

/-! ### The commands -/

theorem blind_keyExecute (len : KeyLen) (d : KeyDesc) (ws : List Word) : Blind (keyExecute len d ws) := fun s => by
  have hset := blind_setCtx d.ctx (keyContext s.cfg.keyselSoftware len d ws) s
  by_cases h : d.keySelect = s.cfg.keyselSoftware
  · rw [keyExecute, keyExecute, publicView_cfg, if_pos h, if_pos h]
    exact (blind_setPhase _).congr hset
  · rw [keyExecute, keyExecute, publicView_cfg, if_neg h, if_neg h]
    exact (blind_setPhase _).congr ((blind_raise _).congr hset)

theorem blind_ivExecute (d : IvDesc) (ws : List Word) : Blind (ivExecute d ws) := fun s =>
  (blind_setPhase _).congr (by simp)

theorem blind_flagExecute (d : FlagFields) : Blind (flagExecute d) := fun s => by
  have hstore := blind_storeFlag d s
  cases h : d.sendInt with
  | true => simp only [flagExecute, h, if_true]; exact (blind_setPhase _).congr ((blind_raise _).congr hstore)
  | false => simp only [flagExecute, h]; exact (blind_setPhase _).congr hstore

/-- The oracle's answer and the length of an access decide whether a read is answered, and what of it is public. -/
theorem memRead_publicView (addr : Addr) (n : Nat) (s : State) :
    (memRead addr n (publicView s)).1.isSome = (memRead addr n s).1.isSome ∧
    publicView (memRead addr n (publicView s)).2 = publicView (memRead addr n s).2 := by
  have hans : nextAnswer (publicView s) = nextAnswer s := rfl
  by_cases hn : n = 0
  · subst hn; simp [memRead_zero]
  · cases h : nextAnswer s with
    | ok =>
      rw [memRead_ok hn h, memRead_ok hn (hans.trans h)]
      exact ⟨rfl, (blind_emit _).congr (blind_takeAnswer s)⟩
    | fail =>
      rw [memRead_fail hn h, memRead_fail hn (hans.trans h)]
      exact ⟨rfl, (blind_skipFree n).congr ((blind_emit _).congr (blind_takeAnswer s))⟩
    | noAnswer =>
      rw [memRead_noAnswer hn h, memRead_noAnswer hn (hans.trans h)]
      exact ⟨rfl, blind_takeAnswer s⟩

/-- The same for a write, whatever bytes it stores. -/
theorem memWrite_publicView (addr : Addr) (n : Nat) (v w : List Byte) (s : State) :
    (memWrite addr n v (publicView s)).1 = (memWrite addr n w s).1 ∧
    publicView (memWrite addr n v (publicView s)).2 = publicView (memWrite addr n w s).2 := by
  have hans : nextAnswer (publicView s) = nextAnswer s := rfl
  have htake : ∀ m m' : Memory, publicView { takeAnswer (publicView s) with mem := m } = publicView { takeAnswer s with mem := m' } :=
    fun m m' => (publicView_mem m _).trans ((blind_takeAnswer s).trans (publicView_mem m' _).symm)
  by_cases hn : n = 0
  · subst hn; simp [memWrite_zero]
  · cases h : nextAnswer s with
    | ok =>
      rw [memWrite_ok hn h, memWrite_ok hn (hans.trans h)]
      exact ⟨rfl, (blind_emit _).congr (htake _ _)⟩
    | fail =>
      rw [memWrite_fail hn h, memWrite_fail hn (hans.trans h)]
      exact ⟨rfl, (blind_skipFree n).congr ((blind_emit _).congr (htake _ _))⟩
    | noAnswer =>
      rw [memWrite_noAnswer hn h, memWrite_noAnswer hn (hans.trans h)]
      exact ⟨rfl, blind_takeAnswer s⟩

/-- Of the load, whether it is answered is public, and the bytes are not. -/
theorem publicView_dataLoad (d : DataFields) (s : State) :
    publicView (dataLoad d s) =
      if (memRead (dataSrc d) (dataLength d) s).1.isSome
      then publicView (setPhase .dataLoaded (memRead (dataSrc d) (dataLength d) s).2)
      else publicView (memRead (dataSrc d) (dataLength d) s).2 := by
  unfold dataLoad
  rcases memRead (dataSrc d) (dataLength d) s with ⟨_ | x, s'⟩ <;> simp

theorem blind_dataLoad (d : DataFields) : Blind (dataLoad d) := fun s => by
  obtain ⟨hsome, hview⟩ := memRead_publicView (dataSrc d) (dataLength d) s
  rw [publicView_dataLoad, publicView_dataLoad, hsome, hview, (blind_setPhase _).congr hview]

theorem blind_dataExecute (d : DataFields) : Blind (dataExecute d) := fun s => by
  have hlive : ctxLive ((publicView s).ctx d.keyCtx) = ctxLive (s.ctx d.keyCtx) := by rw [publicView_ctx]; rfl
  unfold dataExecute
  rw [hlive]
  split
  · exact (blind_setPhase _).congr (blind_raise _ s)
  · split
    · exact (blind_setPhase _).congr (blind_raise _ s)
    · exact blind_dataLoad d s

theorem blind_dataTransform (d : DataFields) : Blind (dataTransform d) := fun s => by
  simp only [dataTransform, publicView_setBuffer]
  exact (blind_setPhase _).congr (by simp)

theorem blind_dataWriteBack (d : DataFields) : Blind (dataWriteBack d) := fun s => by
  obtain ⟨hdone, hview⟩ := memWrite_publicView (dataDst d) (dataLength d) (publicView s).scratch s.scratch s
  unfold dataWriteBack
  generalize memWrite (dataDst d) (dataLength d) (publicView s).scratch (publicView s) = r at hdone hview
  generalize memWrite (dataDst d) (dataLength d) s.scratch s = r' at hdone hview
  obtain ⟨done, t⟩ := r
  obtain ⟨done', t'⟩ := r'
  obtain rfl : done = done' := hdone
  cases done with
  | true => exact (blind_setPhase _).congr hview
  | false => exact hview

theorem blind_storeIvExecute (d : StoreIvFields) : Blind (storeIvExecute d) := fun s => by
  obtain ⟨hdone, hview⟩ := memWrite_publicView (storeIvDst d) 16 (storeIvBytes d (publicView s)) (storeIvBytes d s) s
  unfold storeIvExecute
  generalize memWrite (storeIvDst d) 16 (storeIvBytes d (publicView s)) (publicView s) = r at hdone hview
  generalize memWrite (storeIvDst d) 16 (storeIvBytes d s) s = r' at hdone hview
  obtain ⟨done, t⟩ := r
  obtain ⟨done', t'⟩ := r'
  obtain rfl : done = done' := hdone
  cases done with
  | true => exact (blind_setPhase _).congr ((blind_skipFree _).congr hview)
  | false => exact hview

/-! ### Steps -/

/-- The public part of how a step ends. -/
def publicOutcome : Outcome → Outcome
  | .next s => .next (publicView s)
  | .fault e => .fault e
  | .refused e => .refused e

theorem publicSame_iff {o₁ o₂ : Outcome} : PublicSame o₁ o₂ ↔ publicOutcome o₁ = publicOutcome o₂ := by
  cases o₁ <;> cases o₂ <;> simp [PublicSame, publicOutcome]

theorem exec_public (i : Instr) (s : State) : PublicSame (exec i (publicView s)) (exec i s) := by
  cases i with
  | key128 d key => exact blind_keyExecute .k128 d key s
  | key192 d key => exact blind_keyExecute .k192 d key s
  | key256 d key => exact blind_keyExecute .k256 d key s
  | iv d words => exact blind_ivExecute d words s
  | data d =>
    simp only [exec, execData, publicView_phase]
    cases s.phase with
    | fetched => exact blind_dataExecute d s
    | dataLoaded => exact blind_dataTransform d s
    | dataXformed => exact blind_dataWriteBack d s
    | executed => exact blind_id s
  | storeIv d => exact blind_storeIvExecute d s
  | flag d => exact blind_flagExecute d s
  | keyReserved | unrec0 | unrec3 | unrec4 | unrec7 | unrec9 | unrec10 | unrec11 | unrec12 | unrec13 | unrec14 | unrec15 =>
    exact blind_raise .invalidCommand s
  | ctrlStart => exact blind_running true s
  | ctrlStop =>
    cases h : s.running with
    | true => rw [exec_ctrlStop_of_running h, exec_ctrlStop_of_running (s := publicView s) h]; exact blind_holdHost .stop s
    | false => rw [exec_ctrlStop_of_stopped h, exec_ctrlStop_of_stopped (s := publicView s) h]; exact blind_id s
  | ctrlReset => exact blind_drain s
  | ctrlResetEngine =>
    cases h : s.running with
    | true =>
      rw [exec_ctrlResetEngine_of_running h, exec_ctrlResetEngine_of_running (s := publicView s) h]
      exact blind_holdHost .resetEngine s
    | false =>
      rw [exec_ctrlResetEngine_of_stopped h, exec_ctrlResetEngine_of_stopped (s := publicView s) h]
      exact blind_fullReset s

/-- The race check reads the command in flight and whether its context is live (20_memory R71). -/
theorem inDestination_publicView (x : Addr) (s : State) : inDestination x (publicView s) = inDestination x s := by
  have htouch : ∀ d, dataTouches d (publicView s) = dataTouches d s := fun d => by rw [dataTouches, publicView_ctx]; rfl
  cases h : s.inflight with
  | none => simp [inDestination, publicView, h]
  | some c =>
    have h' : (publicView s).inflight = some { c with buf := [] } := by simp [publicView, h]
    simp only [inDestination, h, h', publicView_cfg, htouch]

theorem inSource_publicView (x : Addr) (s : State) : inSource x (publicView s) = inSource x s := by
  have htouch : ∀ d, dataTouches d (publicView s) = dataTouches d s := fun d => by rw [dataTouches, publicView_ctx]; rfl
  cases h : s.inflight with
  | none => simp [inSource, publicView, h]
  | some c =>
    have h' : (publicView s).inflight = some { c with buf := [] } := by simp [publicView, h]
    simp only [inSource, h, h', publicView_cfg, htouch]

theorem engineExecute_public (c : Inflight) (x : List Byte) (s : State) :
    PublicSame (engineExecute { c with buf := x } (publicView s)) (engineExecute c s) := by
  cases hw : c.cmd.words with
  | nil => simp only [engineExecute, hw]; exact rfl
  | cons w rest =>
    by_cases h0 : cmdWords s.cfg w = 0
    · rw [engineExecute_of_discarded hw h0, engineExecute_of_discarded (s := publicView s) (c := { c with buf := x }) hw h0]
      dsimp only
      split
      · exact (blind_setPhase _).congr (blind_raise _ s)
      · exact rfl
    · cases hd : decodeCommand s.cfg c.cmd.words with
      | none =>
        rw [engineExecute_of_undecoded hw h0 hd, engineExecute_of_undecoded (s := publicView s) (c := { c with buf := x }) hw h0 hd]
        exact rfl
      | some i =>
        rw [engineExecute_of_command hw h0 hd, engineExecute_of_command (s := publicView s) (c := { c with buf := x }) hw h0 hd]
        dsimp only
        split
        · exact exec_public i s
        · exact rfl

theorem engineStep_public (s : State) : PublicSame (engineStep (publicView s)) (engineStep s) := by
  cases h : s.inflight with
  | some c =>
    have h' : (publicView s).inflight = some { c with buf := [] } := by simp [publicView, h]
    by_cases hp : c.phase = .executed
    · rw [engineStep_of_executed h hp, engineStep_of_executed h' hp]; exact blind_complete c.cmd s
    · rw [engineStep_of_unexecuted h hp, engineStep_of_unexecuted h' hp]; exact engineExecute_public c [] s
  | none =>
    have h' : (publicView s).inflight = none := by simp [publicView, h]
    cases hs : s.stopReq with
    | true => rw [engineStep_of_stopReq h hs, engineStep_of_stopReq h' hs]; exact blind_acknowledge s
    | false =>
      cases hr : s.running with
      | false => rw [engineStep_of_idle h hs (.inl hr), engineStep_of_idle h' hs (.inl hr)]; exact blind_id s
      | true =>
        cases hq : s.queue with
        | nil => rw [engineStep_of_idle h hs (.inr hq), engineStep_of_idle h' hs (.inr hq)]; exact blind_id s
        | cons c rest =>
          rw [engineStep_of_queued hr hs h hq, engineStep_of_queued (s := publicView s) hr hs h' hq]
          exact blind_dequeue c rest s

theorem writeReg_public (r : Reg) (v : Word) (s : State) : PublicSame (writeReg r v (publicView s)) (writeReg r v s) := by
  cases r with
  | control =>
    simp only [writeReg, controlWrite, publicView_cfg]
    cases decodeControl s.cfg v with
    | some i => exact exec_public i s
    | none => exact blind_id s
  | commandFifo =>
    rw [writeReg, writeReg, framerWrite_eq, framerWrite_eq]
    by_cases h : s.framer.need = 0 ∧ cmdWords s.cfg v = 0
    · rw [if_pos h, if_pos (show (publicView s).framer.need = 0 ∧ cmdWords (publicView s).cfg v = 0 from h)]
      exact blind_raise _ s
    · rw [if_neg h, if_neg (show ¬ ((publicView s).framer.need = 0 ∧ cmdWords (publicView s).cfg v = 0) from h)]
      exact blind_acceptWord v s
  | intStatus => exact blind_clearStatus v s
  | intEnable => exact blind_enable v s
  | watermarks => exact blind_watermarks v s
  | keyId | commandFifoStatus | flagCommand => exact blind_id s

theorem hostAccess_public (op : HostOp) (s : State) : PublicSame (hostAccess op (publicView s)) (hostAccess op s) := by
  cases op with
  | regRead off width =>
    simp only [hostAccess, publicView_cfg, readReg_publicView]
    cases accessReg s.cfg off width with
    | ok r => exact blind_emit _ s
    | error e => exact rfl
  | regWrite off width v =>
    simp only [hostAccess, publicView_cfg]
    cases accessReg s.cfg off width with
    | ok r => exact writeReg_public r v s
    | error e => exact rfl

theorem busRead_public (x : Addr) (s : State) : PublicSame (busRead x (publicView s)) (busRead x s) := by
  simp only [busRead, inDestination_publicView]
  cases inDestination x s with
  | true => exact rfl
  | false => exact ((blind_emit _) s).trans (publicView_busRead x _ _ s)

theorem busWrite_public (x : Addr) (y : Byte) (s : State) : PublicSame (busWrite x y (publicView s)) (busWrite x y s) := by
  simp only [busWrite, inDestination_publicView, inSource_publicView]
  cases inDestination x s || inSource x s with
  | true => exact rfl
  | false => exact publicView_publicView s

/-- A step from the public view of a state is, in what is public, the step from the state. -/
theorem step_public (s : State) : PublicSame (step (publicView s)) (step s) := by
  cases h : s.events with
  | nil => rw [step_of_noEvent h, step_of_noEvent (s := publicView s) h]; exact engineStep_public s
  | cons e rest =>
    cases e with
    | engine =>
      rw [step_of_engine h, step_of_engine (s := publicView s) h]
      exact engineStep_public { s with events := rest }
    | host op =>
      by_cases hp : s.pending = .none
      · rw [step_of_host h hp, step_of_host (s := publicView s) h hp]
        exact hostAccess_public op { s with events := rest }
      · rw [step_of_held h hp, step_of_held (s := publicView s) h hp]
        exact engineStep_public s
    | busRead x =>
      rw [step_of_busRead h, step_of_busRead (s := publicView s) h]
      exact busRead_public x { s with events := rest }
    | busWrite x y =>
      rw [step_of_busWrite h, step_of_busWrite (s := publicView s) h]
      exact busWrite_public x y { s with events := rest }

end Sys2Proof.Machine

namespace Sys2Proof.Proofs

open Sys2Proof.Machine Sys2Proof.Safety

/-- Settles O58: both runs agree with the run from the view they share. -/
theorem publicStateDoesNotDependOnSecrets : Obligations.PublicStateDoesNotDependOnSecrets := by
  intro s₁ s₂ h
  have h₁ := publicSame_iff.1 (step_public s₁)
  have h₂ := publicSame_iff.1 (step_public s₂)
  rw [h] at h₁
  exact publicSame_iff.2 (h₁.symm.trans h₂)

end Sys2Proof.Proofs
end

section
/-! The operands and the commands: bytes and addresses, KEY, IV, DATA and STORE_IV, branch by branch (20_memory.md, 42_engine_commands.md), then the
statements about them. -/

namespace Sys2Proof.Machine

open Sys2Proof.Safety

variable {s : State} {c : Inflight} {d : DataFields}

/-! ### Operands -/

/-- A DMA address, if its extension fits its field. -/
theorem dmaAddr_lt {n : Nat} {ext : Word} (lo : Word) (h : fitsIn n ext = true) : (dmaAddr lo ext).toNat < 2 ^ (32 + n) := by
  have hext : ext.toNat + 1 ≤ 2 ^ n := of_decide_eq_true h
  calc (dmaAddr lo ext).toNat
      = lo.toNat + 2 ^ 32 * ext.toNat := dmaAddr_toNat lo ext
    _ < 2 ^ 32 * (ext.toNat + 1) := by have := lo.isLt; omega
    _ ≤ 2 ^ 32 * 2 ^ n := Nat.mul_le_mul_left _ hext
    _ = 2 ^ (32 + n) := (Nat.pow_add ..).symm

theorem bytesLe_cons (w : Word) (ws : List Word) : bytesLe (w :: ws) = bytesLeWord w ++ bytesLe ws := by simp [bytesLe]

theorem getElem?_bytesLeWord (w : Word) {j : Nat} (hj : j < 4) : (bytesLeWord w)[j]? = some (w.extractLsb' (8 * j) 8) := by
  match j, hj with
  | 0, _ | 1, _ | 2, _ | 3, _ => rfl

/-- Byte `j` of word `k` (42_engine_commands R182; D22). -/
theorem getElem?_bytesLe {ws : List Word} {k j : Nat} (hk : k < ws.length) (hj : j < 4) :
    (bytesLe ws)[4 * k + j]? = some (ws[k].extractLsb' (8 * j) 8) := by
  induction ws generalizing k with
  | nil => exact absurd hk (by simp)
  | cons w ws ih =>
    have hlen : (bytesLeWord w).length = 4 := rfl
    rw [bytesLe_cons]
    cases k with
    | zero =>
      rw [Nat.mul_zero, Nat.zero_add, List.getElem?_append_left (by omega)]
      exact getElem?_bytesLeWord w hj
    | succ k =>
      rw [List.getElem?_append_right (by omega), hlen, show 4 * (k + 1) + j - 4 = 4 * k + j by omega]
      exact ih (by simpa using hk)

/-! ### The phases of DATA -/

theorem setBuffer_of_inflight (hi : s.inflight = some c) (b : List Byte) (p : Phase) :
    setBuffer b p s = { s with inflight := some { c with phase := p, buf := b } } := by
  simp [setBuffer, hi]

theorem setPhase_of_inflight (hi : s.inflight = some c) (p : Phase) :
    setPhase p s = { s with inflight := some { c with phase := p } } := by
  simp [setPhase, hi]

theorem exec_data_of_loaded (h : s.phase = .dataLoaded) (d : DataFields) : exec (.data d) s = .next (dataTransform d s) := by
  simp only [exec, execData, h]

theorem exec_data_of_xformed (h : s.phase = .dataXformed) (d : DataFields) : exec (.data d) s = .next (dataWriteBack d s) := by
  simp only [exec, execData, h]

theorem exec_data_of_executed (h : s.phase = .executed) (d : DataFields) : exec (.data d) s = .next s := by
  simp only [exec, execData, h]

theorem dataExecute_of_touches (h : dataTouches d s = true) : dataExecute d s = dataLoad d s := by
  obtain ⟨hl, hc⟩ := (Bool.and_eq_true _ _).mp h
  rw [dataExecute, if_neg (by simp [hl]), if_neg (by simp [hc])]

/-- The checks of DATA are its length and its context (42_engine_commands R188, R189). -/
theorem dataExecute_of_dead (hl : dataLength d % 16 = 0)
    (h : ¬ ((s.ctx d.keyCtx).enabled = true ∧ (s.ctx d.keyCtx).handle = .active)) :
    dataExecute d s = setPhase .executed (raise (.keyDisabled d.keyCtx) s) := by
  have hc : ctxLive (s.ctx d.keyCtx) = false := by
    rw [Bool.eq_false_iff]; intro hc; exact h (by simpa [ctxLive] using hc)
  rw [dataExecute, if_neg (by simp [lengthOk, hl]), if_pos hc]

theorem dataLoad_of_zero (hn : dataLength d = 0) : dataLoad d s = setBuffer [] .dataLoaded s := by
  simp only [dataLoad, hn, memRead_zero]

theorem dataLoad_of_ok (hn : dataLength d ≠ 0) (h : nextAnswer s = .ok) :
    dataLoad d s =
      setBuffer (s.mem.readBytes (dataSrc d).toNat (dataLength d)) .dataLoaded (emit (.dmaRead (dataSrc d) (dataLength d)) (takeAnswer s)) := by
  simp only [dataLoad, memRead_ok hn h]

theorem dataLoad_of_fail (hn : dataLength d ≠ 0) (h : nextAnswer s = .fail) :
    dataLoad d s =
      setBuffer (draw (dataLength d) (takeAnswer s)) .dataLoaded
        (skipFree (dataLength d) (emit (.dmaRead (dataSrc d) (dataLength d)) (takeAnswer s))) := by
  simp only [dataLoad, memRead_fail hn h]

theorem dataLoad_of_noAnswer (hn : dataLength d ≠ 0) (h : nextAnswer s = .noAnswer) : dataLoad d s = takeAnswer s := by
  simp only [dataLoad, memRead_noAnswer hn h]

theorem dataWriteBack_of_zero (hn : dataLength d = 0) : dataWriteBack d s = setPhase .executed s := by
  simp only [dataWriteBack, hn, memWrite_zero]

theorem dataWriteBack_of_ok (hn : dataLength d ≠ 0) (h : nextAnswer s = .ok) :
    dataWriteBack d s =
      setPhase .executed (emit (.dmaWrite (dataDst d) (dataLength d))
        { takeAnswer s with mem := s.mem.writeBytes (dataDst d).toNat (s.scratch.take (dataLength d)) }) := by
  simp only [dataWriteBack, memWrite_ok hn h]

theorem dataWriteBack_of_fail (hn : dataLength d ≠ 0) (h : nextAnswer s = .fail) :
    dataWriteBack d s =
      setPhase .executed (skipFree (dataLength d) (emit (.dmaWrite (dataDst d) (dataLength d))
        { takeAnswer s with mem := s.mem.writeBytes (dataDst d).toNat (draw (dataLength d) (takeAnswer s)) })) := by
  simp only [dataWriteBack, memWrite_fail hn h]

theorem dataWriteBack_of_noAnswer (hn : dataLength d ≠ 0) (h : nextAnswer s = .noAnswer) : dataWriteBack d s = takeAnswer s := by
  simp only [dataWriteBack, memWrite_noAnswer hn h]

/-- The frame of DATA, in every phase (42_engine_commands R194). -/
theorem exec_data_frame {t : State} (h : exec (.data d) s = .next t) :
    ∃ st ir v bs fl a f tr,
      t = { s with
        intStatus := st, irq := ir, ivs := v, mem := s.mem.writeBytes (dataDst d).toNat bs, inflight := fl, dmaAnswers := a
        freeCount := f, trace := tr } ∧
      (s.phase ≠ .fetched → st = s.intStatus ∧ ir = s.irq) ∧ (s.phase ≠ .dataLoaded → v = s.ivs) ∧
      (s.phase ≠ .dataXformed → bs = []) ∧ bs.length ≤ dataLength d ∧ ∀ k, k ≠ d.ivCtx → v.get k = s.iv k := by
  cases hp : s.phase with
  | fetched =>
    rw [exec_data_of_fetched hp] at h; injection h with h
    obtain ⟨st, ir, fl, a, f, tr, he⟩ := dataExecute_state d s
    exact ⟨st, ir, s.ivs, [], fl, a, f, tr, h.symm.trans he, by simp, by simp, by simp, by simp, fun _ _ => rfl⟩
  | dataLoaded =>
    rw [exec_data_of_loaded hp] at h; injection h with h
    exact ⟨s.intStatus, s.irq, s.ivs.set d.ivCtx (dataResult d s).2, [], _, _, _, _, h.symm, by simp, by simp, by simp, by simp,
      fun _ hk => IvSlots.get_set_other _ _ hk⟩
  | dataXformed =>
    rw [exec_data_of_xformed hp] at h; injection h with h
    obtain ⟨bs, fl, a, f, tr, hb, he⟩ := dataWriteBack_state d s
    exact ⟨s.intStatus, s.irq, s.ivs, bs, fl, a, f, tr, h.symm.trans he, by simp, by simp, by simp, hb, fun _ _ => rfl⟩
  | executed =>
    rw [exec_data_of_executed hp] at h; injection h with h
    exact ⟨s.intStatus, s.irq, s.ivs, [], s.inflight, _, _, _, h.symm, by simp, by simp, by simp, by simp, fun _ _ => rfl⟩

/-! ### STORE_IV -/

variable {e : StoreIvFields}

theorem storeIvExecute_of_ok (h : nextAnswer s = .ok) :
    storeIvExecute e s =
      setPhase .executed (skipFree (storeIvDrawn e) (emit (.dmaWrite (storeIvDst e) 16)
        { takeAnswer s with mem := s.mem.writeBytes (storeIvDst e).toNat ((storeIvBytes e s).take 16) })) := by
  simp only [storeIvExecute, memWrite_ok (by decide : (16 : Nat) ≠ 0) h]

theorem storeIvExecute_of_fail (h : nextAnswer s = .fail) :
    storeIvExecute e s =
      setPhase .executed (skipFree (storeIvDrawn e) (skipFree 16 (emit (.dmaWrite (storeIvDst e) 16)
        { takeAnswer s with mem := s.mem.writeBytes (storeIvDst e).toNat (draw 16 (takeAnswer s)) }))) := by
  simp only [storeIvExecute, memWrite_fail (by decide : (16 : Nat) ≠ 0) h]

theorem storeIvExecute_of_noAnswer (h : nextAnswer s = .noAnswer) : storeIvExecute e s = takeAnswer s := by
  simp only [storeIvExecute, memWrite_noAnswer (by decide : (16 : Nat) ≠ 0) h]

/-! ### KEY -/

theorem keyExecute_of_software {len : KeyLen} {d : KeyDesc} {ws : List Word} (h : d.keySelect = s.cfg.keyselSoftware) :
    keyExecute len d ws s = setPhase .executed (setCtx d.ctx (keyContext s.cfg.keyselSoftware len d ws) s) := by
  rw [keyExecute, if_pos h]

theorem keyExecute_of_other {len : KeyLen} {d : KeyDesc} {ws : List Word} (h : d.keySelect ≠ s.cfg.keyselSoftware) :
    keyExecute len d ws s =
      setPhase .executed (raise (.keyDisabled d.ctx) (setCtx d.ctx (keyContext s.cfg.keyselSoftware len d ws) s)) := by
  rw [keyExecute, if_neg h]

/-- The three KEY instructions run the one execute step. -/
theorem exec_key {len : KeyLen} {d : KeyDesc} {ws : List Word} {i : Instr}
    (h : (len, i) ∈ [(KeyLen.k128, Instr.key128 d ws), (.k192, .key192 d ws), (.k256, .key256 d ws)]) (s : State) :
    exec i s = .next (keyExecute len d ws s) := by
  simp only [List.mem_cons, List.not_mem_nil, or_false, Prod.mk.injEq] at h
  rcases h with ⟨rfl, rfl⟩ | ⟨rfl, rfl⟩ | ⟨rfl, rfl⟩ <;> rfl

end Sys2Proof.Machine

namespace Sys2Proof.Proofs

open Sys2Proof.Machine Sys2Proof.Safety

/-- Settles O6. -/
theorem dmaRangesStayBelowTheTop : Obligations.DmaRangesStayBelowTheTop := by
  refine ⟨dmaAddr_toNat, fun k d h => ?_, fun k d h => ?_, rfl, rfl⟩
  · simp only [DataFields.fits, Bool.and_eq_true] at h
    obtain ⟨⟨hlen, hdst⟩, hsrc⟩ := h
    have hl : dataLength d < 2 ^ k.lenBits := of_decide_eq_true hlen
    exact ⟨Nat.add_le_add (dmaAddr_lt d.srcLo hsrc).le hl.le, Nat.add_le_add (dmaAddr_lt d.dstLo hdst).le hl.le⟩
  · simp only [StoreIvFields.fits, Bool.and_eq_true] at h
    exact Nat.add_le_add_right (dmaAddr_lt d.dstLo h.2).le 16

/-- Settles O7. -/
theorem keyBytesAreLittleEndianWords : Obligations.KeyBytesAreLittleEndianWords := by
  intro ws hws
  refine ⟨by rw [paddedKey, List.length_append, length_bytesLe, List.length_replicate]; omega, fun k j hk hj => ?_, fun i h1 h2 => ?_⟩
  · rw [paddedKey, List.getElem?_append_left (by rw [length_bytesLe]; omega), getElem?_bytesLe hk hj]
  · rw [paddedKey, List.getElem?_append_right (by rw [length_bytesLe]; omega), length_bytesLe,
      List.getElem?_replicate_of_lt (by omega)]

/-- Settles O21: the twelve rows have the one meaning. -/
theorem discardedWordsOnlySetInvalidCommand : Obligations.DiscardedWordsOnlySetInvalidCommand := by
  intro lo hi r s i hmem
  simp only [List.mem_cons, List.not_mem_nil, or_false] at hmem
  rcases hmem with rfl | rfl | rfl | rfl | rfl | rfl | rfl | rfl | rfl | rfl | rfl | rfl <;> rfl

/-- Settles O28. -/
theorem keyWithSoftwareKeyEnablesItsContext : Obligations.KeyWithSoftwareKeyEnablesItsContext := by
  intro d key s len i hsel hmem
  refine ⟨s.ctxs.set d.ctx (keyContext s.cfg.keyselSoftware len d key), ?_, ?_, fun n hn => Contexts.get_set_other _ _ hn⟩
  · rw [exec_key hmem, keyExecute_of_software hsel, setPhase_eq_inPhase]; rfl
  · rw [Contexts.get_set_same, keyContext]; simp [hsel, paddedKey]

/-- Settles O29. -/
theorem keyWithAnotherKeyDisablesItsContext : Obligations.KeyWithAnotherKeyDisablesItsContext := by
  intro d key s len i hsel hmem
  refine ⟨s.ctxs.set d.ctx (keyContext s.cfg.keyselSoftware len d key), ?_, ?_, fun n hn => Contexts.get_set_other _ _ hn⟩
  · rw [exec_key hmem, keyExecute_of_other hsel, setPhase_raise]; rfl
  · rw [Contexts.get_set_same, keyContext]; simp [hsel, paddedKey]

/-- Settles O30. -/
theorem ivLoadsItsSlot : Obligations.IvLoadsItsSlot := fun _ _ _ =>
  ⟨_, rfl, IvSlots.get_set_same _ _ _, fun _ hk => IvSlots.get_set_other _ _ hk⟩

/-- Settles O32: the length passes the first check, the context fails the second. -/
theorem dataWithADeadContextAborts : Obligations.DataWithADeadContextAborts := by
  intro d s hphase _ hlen hdead
  rw [exec_data_of_fetched hphase, dataExecute_of_dead hlen hdead, setPhase_raise]

/-- Settles O33: the checks pass, and the load is one read with its four outcomes. -/
theorem dataLoadsItsSource : Obligations.DataLoadsItsSource := by
  intro d s c hi hp hlen hen hact loaded accessed
  have hexec : exec (.data d) s = .next (dataLoad d s) := by
    rw [exec_data_of_fetched ((phase_of_inflight hi).trans hp), dataExecute_of_touches ((dataTouches_iff d s).2 ⟨hlen, hen, hact⟩)]
  rw [hexec]
  refine ⟨fun hn => ?_, fun hn h => ?_, fun hn h => ?_, fun hn h => ?_⟩
  · rw [dataLoad_of_zero hn, setBuffer_of_inflight hi]
  · rw [dataLoad_of_ok hn h, setBuffer_of_inflight (by exact hi)]; rfl
  · exact ⟨_, _, length_draw _ (takeAnswer s), by rw [dataLoad_of_fail hn h, setBuffer_of_inflight (by exact hi)]; rfl⟩
  · rw [dataLoad_of_noAnswer hn h]

/-- Settles O34. -/
theorem dataTransformsItsBuffer : Obligations.DataTransformsItsBuffer := by
  intro d s c hi hp
  refine ⟨(dataResult d s).1, (dataResult d s).2, s.ivs.set d.ivCtx (dataResult d s).2, ?_, ?_, IvSlots.get_set_same _ _ _,
    fun _ hk => IvSlots.get_set_other _ _ hk⟩
  · rw [dataResult, scratch_of_inflight hi]
  · rw [exec_data_of_loaded ((phase_of_inflight hi).trans hp), dataTransform, setBuffer_of_inflight (by exact hi)]; rfl

/-- Settles O35: the write back is one write with its four outcomes. -/
theorem dataWritesItsDestination : Obligations.DataWritesItsDestination := by
  intro d s c hi hp hbuf hwf written
  rw [exec_data_of_xformed ((phase_of_inflight hi).trans hp)]
  refine ⟨fun hn => ?_, fun hn h => ?_, fun hn h => ?_, fun hn h => ?_⟩
  · rw [dataWriteBack_of_zero hn, setPhase_of_inflight hi]
  · refine ⟨s.mem.writeBytes (dataDst d).toNat c.buf, ?_, fun i hlt => Memory.read_writeBytes_inside hwf _ _ hlt, fun a ha =>
      Memory.read_writeBytes_outside _ _ _ (hbuf ▸ ha)⟩
    rw [dataWriteBack_of_ok hn h, setPhase_of_inflight (by exact hi), scratch_of_inflight hi, List.take_of_length_le hbuf.le]; rfl
  · refine ⟨s.mem.writeBytes (dataDst d).toNat (draw (dataLength d) (takeAnswer s)), (takeAnswer s).freeCount + dataLength d, ?_,
      fun a ha => Memory.read_writeBytes_outside _ _ _ ?_⟩
    · rw [dataWriteBack_of_fail hn h, setPhase_of_inflight (by exact hi)]; rfl
    · rw [length_draw]; exact ha
  · rw [dataWriteBack_of_noAnswer hn h]

/-- Settles O36. -/
theorem dataChangesOnlyItsOwn : Obligations.DataChangesOnlyItsOwn := by
  intro d s t h
  obtain ⟨st, ir, v, bs, fl, a, f, tr, rfl, hstatus, hivs, hmem, hlen, hslots⟩ := exec_data_frame h
  refine ⟨rfl, hslots, rfl, rfl, rfl, rfl, rfl, rfl, rfl, rfl, rfl, rfl, rfl, hstatus, hivs, fun hp a => ?_, fun a ha => ?_⟩
  · rw [hmem hp]; rfl
  · exact Memory.read_writeBytes_outside _ _ _ (by omega)

/-- Settles O37: the three steps, one after the other. -/
theorem dataMovesTheTransformedSource : Obligations.DataMovesTheTransformedSource := by
  intro d s c rest hi hp hlen hn hen hact hiv hwf hans
  have hread := (dataLoadsItsSource d s c hi hp hlen hen hact).2.1 hn (by simp [nextAnswer, hans])
  obtain ⟨out, iv, v, htransform, hstep, hnew, hother⟩ := dataTransformsItsBuffer d
    { takeAnswer s with
      inflight := some { c with phase := .dataLoaded, buf := s.mem.readBytes (dataSrc d).toNat (dataLength d) }
      trace := s.trace ++ [.dmaRead (dataSrc d) (dataLength d)] } _ rfl rfl
  have htransform : transform (blockCipher s.cfg.aes) (s.ctx d.keyCtx) (s.iv d.ivCtx)
      (s.mem.readBytes (dataSrc d).toNat (dataLength d)) = (out, iv) := htransform
  have hout := (transform_lengths (blockCipher_lawful s.cfg.aes) (s.ctx d.keyCtx) hiv
    (data := s.mem.readBytes (dataSrc d).toNat (dataLength d)) (m := dataLength d / 16) (by rw [Memory.length_readBytes]; omega)).1
  rw [htransform, Memory.length_readBytes] at hout
  obtain ⟨m, hwrite, hinside, houtside⟩ := (dataWritesItsDestination d
    { takeAnswer s with
      ivs := v
      inflight := some { c with phase := .dataXformed, buf := out }
      trace := s.trace ++ [.dmaRead (dataSrc d) (dataLength d)] } _ rfl rfl hout hwf).2.1 hn (by simp [nextAnswer, takeAnswer, hans])
  refine ⟨_, _, _, out, iv, hread, hstep, hwrite, htransform, hout, hinside, houtside, hnew, hother, ?_⟩
  simp [takeAnswer, hans]

/-- Settles O38: one write of 16 bytes with its three outcomes. -/
theorem storeIvWritesItsSlot : Obligations.StoreIvWritesItsSlot := by
  intro d s hivs hwf written
  have hexec : exec (.storeIv d) s = .next (storeIvExecute d s) := rfl
  rw [hexec]
  refine ⟨fun h => ?_, fun h => ?_, fun h => ?_⟩
  · refine ⟨s.mem.writeBytes (storeIvDst d).toNat (storeIvBytes d s), (takeAnswer s).freeCount + storeIvDrawn d, ?_, fun k hk => ?_,
      fun a ha => Memory.read_writeBytes_outside _ _ _ ?_⟩
    · rw [storeIvExecute_of_ok h, List.take_of_length_le (length_storeIvBytes d hivs).le]; rfl
    · obtain ⟨hbytes, hdrawn⟩ := storeIv_of_slot hk s
      rw [hbytes, hdrawn]
      exact ⟨rfl, fun i hlt => Memory.read_writeBytes_inside hwf _ _ hlt⟩
    · rw [length_storeIvBytes d hivs]; exact ha
  · refine ⟨s.mem.writeBytes (storeIvDst d).toNat (draw 16 (takeAnswer s)), (takeAnswer s).freeCount + 16 + storeIvDrawn d, ?_,
      fun a ha => Memory.read_writeBytes_outside _ _ _ ?_⟩
    · rw [storeIvExecute_of_fail h, setPhase_eq_inPhase]; simp only [skipFree, emit, inPhase, written]; rfl
    · rw [length_draw]; exact ha
  · rw [storeIvExecute_of_noAnswer h]

/-- Settles O46. -/
theorem raisingSetsTheBitAndTheLine : Obligations.RaisingSetsTheBitAndTheLine :=
  ⟨fun c s => ⟨irqLevel (s.intStatus ||| c.mask s.cfg) s.intEnable, by simp [irqLevel], rfl⟩, by decide⟩

/-- Settles O54. -/
theorem resetLeavesTheTableOfValues : Obligations.ResetLeavesTheTableOfValues := by
  unfold Obligations.ResetLeavesTheTableOfValues
  exact ⟨rfl, rfl, rfl, by decide, rfl, rfl, rfl, rfl, rfl, rfl, rfl, rfl, rfl, rfl, rfl, rfl, rfl, rfl, rfl⟩

end Sys2Proof.Proofs
end

section
/-! What the registers read as, as numbers, and what a write to the read-only ones does (40_register_interface.md): statements O8 and O11. -/

namespace Sys2Proof

/-! ### A packed word as a sum -/

theorem put_eq_ofNat {n : Nat} (lo : Nat) (v : BitVec n) : put lo v = BitVec.ofNat 32 (v.toNat * 2 ^ lo) := by
  apply BitVec.eq_of_toNat_eq
  simp [put, Nat.shiftLeft_eq]

/-- A field that reads 0 is free for a value to be put there. -/
theorem put_and_of_bits {lo n : Nat} (v : BitVec n) {y : Word} (h : bits y lo n = 0) : put lo v &&& y = 0 := by
  ext i hi
  simp only [← BitVec.getLsbD_eq_getElem, BitVec.getLsbD_and, getLsbD_put]
  by_cases hin : lo ≤ i ∧ i < lo + n
  · have hb := congrArg (fun b : BitVec n => b.getLsbD (i - lo)) h
    simp only [bits, BitVec.getLsbD_extractLsb', show lo + (i - lo) = i by omega] at hb
    simp [show i - lo < n by omega] at hb
    simp [hb]
  · by_cases hlo : lo ≤ i
    · simp [BitVec.getLsbD_of_ge v (i - lo) (by omega)]
    · simp [hlo]

/-- The value of a packed word: its fields do not overlap, so they add up. -/
theorem pack_eq_ofNat {fs : List Filled} (hw : FieldsWf (fs.map Sigma.fst)) :
    pack fs 0 = BitVec.ofNat 32 (fs.map fun f => f.2.toNat * 2 ^ f.1.1).sum := by
  induction fs with
  | nil => rfl
  | cons f fs ih =>
    have hbits : bits (pack fs 0) f.1.1 f.1.2 = 0 := by
      have h := bits_pack (fs := ⟨f.1, 0⟩ :: fs) (x := 0) hw List.mem_cons_self (by simp [bits])
      simpa [pack, put] using h
    simp only [fieldsWf_iff, List.map_cons, List.forall_mem_cons, List.pairwise_cons] at hw
    rw [List.map_cons, List.sum_cons, BitVec.ofNat_add, ← put_eq_ofNat, ← ih (fieldsWf_iff.2 ⟨hw.1.2, hw.2.2⟩),
      BitVec.add_eq_or_of_and_eq_zero _ _ (put_and_of_bits f.2 hbits)]
    rfl

@[simp] theorem toNat_flagBit (b : Bool) : (flagBit b).toNat = if b then 1 else 0 := by cases b <;> rfl

theorem bitAt_or (a b : Word) (i : Nat) : bitAt (a ||| b) i = (bitAt a i || bitAt b i) := BitVec.getLsbD_or

/-- A flag shows in its bit alone. -/
theorem bitAt_put_flag {lo i : Nat} (h : i ≠ lo) (b : Bool) : bitAt (put lo (flagBit b)) i = false := by
  rw [bitAt, getLsbD_put]
  by_cases hlo : lo ≤ i
  · rw [BitVec.getLsbD_of_ge _ _ (by omega)]; simp
  · simp [hlo]

end Sys2Proof

namespace Sys2Proof.Machine

variable {s : State}

/-! ### The registers with fields, at the default -/

/-- The fields of `KEY_ID` (10_state R35). -/
def keyIdFields (s : State) : List Filled :=
  [⟨(s.cfg.regmap.keySelect0, s.cfg.regmap.keySelectBits), (s.ctx 0).keySelect.setWidth _⟩,
    ⟨(s.cfg.regmap.enabled0, 1), flagBit (s.ctx 0).enabled⟩,
    ⟨(s.cfg.regmap.commandId0, s.cfg.regmap.commandIdBits), (s.ctx 0).commandId.setWidth _⟩,
    ⟨(s.cfg.regmap.keySelect1, s.cfg.regmap.keySelectBits), (s.ctx 1).keySelect.setWidth _⟩,
    ⟨(s.cfg.regmap.enabled1, 1), flagBit (s.ctx 1).enabled⟩,
    ⟨(s.cfg.regmap.commandId1, s.cfg.regmap.commandIdBits), (s.ctx 1).commandId.setWidth _⟩]

theorem default_keyId_places :
    RegMap.default.keySelect0 = 0 ∧ RegMap.default.enabled0 = 3 ∧ RegMap.default.commandId0 = 8 ∧ RegMap.default.keySelect1 = 16 ∧
    RegMap.default.enabled1 = 19 ∧ RegMap.default.commandId1 = 24 ∧ RegMap.default.keySelectBits = 3 ∧
    RegMap.default.commandIdBits = 8 := by decide

theorem keyId_eq_pack (s : State) : keyId s = pack (keyIdFields s) 0 := by
  simp [keyId, keyIdPart, keyIdFields, pack, BitVec.or_assoc]

/-- `KEY_ID` as a number. -/
theorem keyId_eq_ofNat (hm : s.cfg.regmap.Wf) :
    let m := s.cfg.regmap
    keyId s = BitVec.ofNat 32
      ((s.ctx 0).keySelect.toNat % 2 ^ m.keySelectBits * 2 ^ m.keySelect0 + (flagBit (s.ctx 0).enabled).toNat * 2 ^ m.enabled0 +
        (s.ctx 0).commandId.toNat % 2 ^ m.commandIdBits * 2 ^ m.commandId0 +
        (s.ctx 1).keySelect.toNat % 2 ^ m.keySelectBits * 2 ^ m.keySelect1 + (flagBit (s.ctx 1).enabled).toNat * 2 ^ m.enabled1 +
        (s.ctx 1).commandId.toNat % 2 ^ m.commandIdBits * 2 ^ m.commandId1) := by
  intro m
  obtain ⟨-, -, -, hfields, -⟩ := hm
  rw [keyId_eq_pack, pack_eq_ofNat (by exact hfields)]
  simp [keyIdFields, Nat.add_assoc, m]

theorem commandFifoStatus_eq_ofNat (hm : s.cfg.regmap.Wf) :
    commandFifoStatus s = BitVec.ofNat 32 ((fifoFields s).map fun f => f.2.toNat * 2 ^ f.1.1).sum := by
  rw [commandFifoStatus_eq_pack, pack_eq_ofNat (fifoFields_wf hm)]

/-- The threshold field of `WATERMARKS` at the default is its low byte (10_state R28; D16). -/
theorem fifoLow_default (hc : s.cfg = Cfg.default) : fifoLow s = decide (s.depth < s.watermarks.toNat % 2 ^ 8) := by
  have h : (bits s.watermarks s.cfg.regmap.lowThreshold s.cfg.regmap.lowThresholdBits).toNat = s.watermarks.toNat % 2 ^ 8 := by
    rw [hc]; simp [bits, Cfg.default, RegMap.default]
  rw [fifoLow, h]

end Sys2Proof.Machine

namespace Sys2Proof.Proofs

open Sys2Proof.Machine Sys2Proof.Safety

/-- Settles O8: a read goes on with the value of the register; the two registers with fields are the sums of their fields. -/
theorem readsReturnTheRegisterAndChangeNothing : Obligations.ReadsReturnTheRegisterAndChangeNothing := by
  intro s hc reads field
  have hmap : s.cfg.regmap = RegMap.default := congrArg Cfg.regmap hc
  have hm : s.cfg.regmap.Wf := hmap ▸ default_wf.2.1
  have flag : ∀ b n, (flagBit b).toNat * 2 ^ n = field b n := by
    intro b n; cases b <;> simp [field]
  have read : ∀ r v, readReg r s = v → reads (RegMap.default.offset r) v := by
    rintro r v rfl
    have h := regRead_offset hm r
    rwa [hmap] at h
  refine ⟨read .control 0 rfl, read .keyId _ ?_, read .intStatus _ rfl, read .intEnable _ rfl, read .watermarks _ rfl,
    read .commandFifoStatus _ ?_, read .flagCommand _ rfl, read .commandFifo 0 rfl⟩
  · have h : readReg .keyId s = _ := keyId_eq_ofNat hm
    obtain ⟨hks0, hen0, hid0, hks1, hen1, hid1, hks, hid⟩ := default_keyId_places
    simpa only [hmap, hks0, hen0, hid0, hks1, hen1, hid1, hks, hid, flag, pow_zero, Nat.mul_one] using h
  · refine (commandFifoStatus_eq_ofNat hm).trans (congrArg (BitVec.ofNat 32) ?_)
    have hcap : s.cfg.fifoCapacity = 128 := congrArg Cfg.fifoCapacity hc
    simp only [fifoFields, fifoEmpty, fifoFull, fifoLow_default hc, hmap, hcap, RegMap.default, List.map_cons, List.map_nil,
      List.sum_cons, List.sum_nil, BitVec.toNat_ofNat, flag, Nat.add_zero, Nat.add_assoc]

/-- Settles O11: of the fields of the view only LOW depends on `WATERMARKS`. -/
theorem watermarkAndReadOnlyWrites : Obligations.WatermarkAndReadOnlyWrites := by
  intro v s hc
  have hmap : s.cfg.regmap = RegMap.default := congrArg Cfg.regmap hc
  have hm : s.cfg.regmap.Wf := hmap ▸ default_wf.2.1
  have write : ∀ r, hostAccess (.regWrite (RegMap.default.offset r) 32 v) s = writeReg r v s := fun r => hmap ▸ regWrite_offset hm r v
  refine ⟨⟨{ s with watermarks := v }, write .watermarks, rfl, ?_, fun i hi hne => ?_⟩, write .keyId, write .commandFifoStatus,
    write .flagCommand⟩
  · have hlow : s.cfg.regmap.lowBit = 3 := congrArg RegMap.lowBit hmap
    have hbit := bitAt_commandFifoStatus (s := { s with watermarks := v }) hm (i := 3) (b := fifoLow { s with watermarks := v })
      (by rw [← hlow]; simp [fifoFields])
    rw [hbit, fifoLow_default (s := { s with watermarks := v }) hc, decide_eq_true_eq]
  · have hlow : i ≠ s.cfg.regmap.lowBit := fun h => hne (h.trans (congrArg RegMap.lowBit hmap))
    simp only [commandFifoStatus, bitAt_or, bitAt_put_flag hlow]
    rfl

end Sys2Proof.Proofs
end

section
/-! What a step does next: the instruction it runs, the held host, what can stop it, the races of another master, and the way to quiescence
(statements O17, O18, O57, O59 and O60). -/

namespace Sys2Proof.Machine

open Sys2Proof.Safety

variable {s t : State} {c : Inflight}

/-! ### The engine, the host's hold and the events -/

/-- A command changes neither the hold of the host nor the events that wait. -/
theorem exec_command_waiting {i : Instr} (hi : IsCommand i) (h : exec i s = .next t) : t.pending = s.pending ∧ t.events = s.events := by
  rcases exec_command_cases hi h with ⟨len, d, ws, -, rfl⟩ | ⟨d, ws, -, rfl⟩ | ⟨d, -, -, rfl⟩ | ⟨d, -, -, rfl⟩ | ⟨d, -, -, rfl⟩ |
    ⟨d, -, -, rfl⟩ | ⟨d, -, rfl⟩ | ⟨d, -, rfl⟩
  · obtain ⟨_, _, _, he⟩ := keyExecute_state len d ws s; rw [he]; exact ⟨rfl, rfl⟩
  · exact ⟨rfl, rfl⟩
  · obtain ⟨_, _, _, _, _, _, he⟩ := dataExecute_state d s; rw [he]; exact ⟨rfl, rfl⟩
  · exact ⟨rfl, rfl⟩
  · obtain ⟨_, _, _, _, _, -, he⟩ := dataWriteBack_state d s; rw [he]; exact ⟨rfl, rfl⟩
  · exact ⟨rfl, rfl⟩
  · obtain ⟨_, _, _, _, _, -, he⟩ := storeIvExecute_state d s; rw [he]; exact ⟨rfl, rfl⟩
  · obtain ⟨_, _, _, he⟩ := flagExecute_state d s; rw [he]; exact ⟨rfl, rfl⟩

/-- Of the engine's steps only the acknowledgement lifts the hold (42_engine_commands R203). -/
theorem engineStep_waiting (h : engineStep s = .next t) (hack : ¬ (s.stopReq = true ∧ s.inflight = none)) :
    t.pending = s.pending ∧ t.events = s.events := by
  rcases engineStep_cases h with ⟨c, -, -, rfl⟩ | ⟨c, w, rest, -, -, -, -, rfl⟩ | ⟨c, i, -, -, -, hi, -, h⟩ | ⟨hi, hs, -⟩ |
    ⟨c, rest, -, -, -, -, rfl⟩ | ⟨-, -, -, rfl⟩
  · exact ⟨rfl, rfl⟩
  · exact ⟨rfl, rfl⟩
  · exact exec_command_waiting hi h
  · exact absurd ⟨hs, hi⟩ hack
  · exact ⟨rfl, rfl⟩
  · exact ⟨rfl, rfl⟩

/-- A command in flight that fits its phase runs: the DATA phases hold a DATA (10_state R39). -/
theorem phaseFits_of_bufferFits {i : Instr} (hb : BufferFits s c) (hd : decodeCommand s.cfg c.cmd.words = some i) :
    phaseFits i c.phase = true := by
  rw [bufferFits_iff] at hb
  cases hp : c.phase with
  | fetched | executed => rfl
  | dataLoaded | dataXformed =>
    obtain ⟨d, hdata, -⟩ := hb (by simp [hp])
    obtain rfl : Instr.data d = i := Option.some.inj (hdata.symm.trans hd)
    rfl

/-- With a command in flight before its last phase, the engine's step is an instruction of a command. -/
theorem engineStep_exec (hf : InflightFormed s) (hc : s.inflight = some c) (hp : c.phase ≠ .executed) :
    ∃ i, decodeCommand s.cfg c.cmd.words = some i ∧ IsCommand i ∧ engineStep s = exec i s := by
  obtain ⟨hform, hbuf, -⟩ := inflightFormed_iff.1 hf c hc
  obtain ⟨w, rest, hw, h0⟩ := commandFormed_words hform
  obtain ⟨i, hd⟩ := decodeCommand_of_formed hform
  exact ⟨i, hd, isCommand_of_decode h0 (hw ▸ hd), engineStep_of_formed hc hp hform hd (phaseFits_of_bufferFits hbuf hd)⟩

/-- The engine's step always goes on from a well-formed command in flight, or none (42_engine_commands R200). -/
theorem engineStep_next (hf : InflightFormed s) : ∃ t, engineStep s = .next t := by
  cases hi : s.inflight with
  | some c =>
    by_cases hp : c.phase = .executed
    · exact ⟨_, engineStep_of_executed hi hp⟩
    · obtain ⟨i, -, -, h⟩ := engineStep_exec hf hi hp
      rw [h]; exact exec_next i s
  | none =>
    cases hs : s.stopReq with
    | true => exact ⟨_, engineStep_of_stopReq hi hs⟩
    | false =>
      cases hr : s.running with
      | false => exact ⟨_, engineStep_of_idle hi hs (.inl hr)⟩
      | true =>
        cases hq : s.queue with
        | nil => exact ⟨_, engineStep_of_idle hi hs (.inr hq)⟩
        | cons c rest => exact ⟨_, engineStep_of_queued hr hs hi hq⟩

/-- A host access goes on, or is refused for its width or its offset (40_register_interface R133). -/
theorem hostAccess_total (op : HostOp) (s : State) :
    (∃ t, hostAccess op s = .next t) ∨
    ∃ r ∈ [Refusal.accessWidth, .misalignedOffset, .undefinedOffset], hostAccess op s = .refused r := by
  cases op with
  | regRead off width =>
    by_cases h : ValidAccess s.cfg off width
    · exact .inl (hostAccess_of_valid h 0).1
    · obtain ⟨r, hr, hread, -⟩ := hostAccess_of_invalid h 0
      exact .inr ⟨r, hr, hread⟩
  | regWrite off width v =>
    by_cases h : ValidAccess s.cfg off width
    · exact .inl (hostAccess_of_valid h v).2
    · obtain ⟨r, hr, -, hwrite⟩ := hostAccess_of_invalid h v
      exact .inr ⟨r, hr, hwrite⟩

/-! ### Another master's byte -/

theorem inRange_iff {a base : Addr} {n : Nat} : inRange a base n = true ↔ base.toNat ≤ a.toNat ∧ a.toNat < base.toNat + n :=
  decide_eq_true_iff

/-- The destination ranges raced on: of a DATA that passes its checks, and of a STORE_IV (20_memory R71). -/
theorem inDestination_iff {a : Addr} :
    inDestination a s = true ↔ ∃ c, s.inflight = some c ∧
      ((∃ d, decodeCommand s.cfg c.cmd.words = some (.data d) ∧ dataTouches d s = true ∧ inRange a (dataDst d) (dataLength d) = true) ∨
        ∃ d, decodeCommand s.cfg c.cmd.words = some (.storeIv d) ∧ inRange a (storeIvDst d) 16 = true) := by
  unfold inDestination
  cases s.inflight with
  | none => simp
  | some c =>
    simp only [Option.some.injEq, exists_eq_left']
    split
    · rename_i d hd; simp [hd]
    · rename_i d hd; simp [hd]
    · rename_i h1 h2
      exact ⟨fun h => absurd h (by simp), fun h => by
        rcases h with ⟨d, hd, -⟩ | ⟨d, hd, -⟩
        · exact absurd hd (h1 d)
        · exact absurd hd (h2 d)⟩

/-- The source range raced on: of a DATA that passes its checks and has not read it. -/
theorem inSource_iff {a : Addr} :
    inSource a s = true ↔ ∃ c d, s.inflight = some c ∧ c.phase = .fetched ∧ decodeCommand s.cfg c.cmd.words = some (.data d) ∧
      dataTouches d s = true ∧ inRange a (dataSrc d) (dataLength d) = true := by
  unfold inSource
  cases s.inflight with
  | none => simp
  | some c =>
    simp only [Option.some.injEq, exists_and_left, exists_eq_left']
    split
    · rename_i d hd; simp [hd, and_assoc]
    · rename_i h1
      exact ⟨fun h => absurd h (by simp), fun ⟨_, d, hd, _⟩ => absurd hd (h1 d)⟩

theorem busRead_of_race {a : Addr} (h : inDestination a s = true) : busRead a s = .fault .dmaRace := by rw [busRead, if_pos h]

theorem busRead_of_free {a : Addr} (h : ¬ inDestination a s = true) : busRead a s = .next (emit (.busRead a (s.mem.read a.toNat)) s) := by
  rw [busRead, if_neg h]

theorem busWrite_of_race {a : Addr} {b : Byte} (h : inDestination a s = true ∨ inSource a s = true) : busWrite a b s = .fault .dmaRace := by
  rw [busWrite, if_pos (by simpa using h)]

theorem busWrite_of_free {a : Addr} {b : Byte} (h : ¬ (inDestination a s = true ∨ inSource a s = true)) :
    busWrite a b s = .next { s with mem := s.mem.write a.toNat b } := by
  rw [busWrite, if_neg (by simpa using h)]

/-! ### The way to quiescence -/

/-- The answers the oracle may be asked for from a phase on: a read and a write, or a write (42_engine_commands R190, R192, R195). -/
def phaseAnswers : Phase → Nat
  | .fetched => 2
  | .dataLoaded | .dataXformed => 1
  | .executed => 0

/-- The answers what is queued and in flight may ask for. -/
def answersNeeded (s : State) : Nat := 2 * s.queue.length + (s.inflight.map fun c => phaseAnswers c.phase).getD 0

theorem phaseAnswers_pos {p : Phase} (h : p ≠ .executed) : 0 < phaseAnswers p := by
  cases p with
  | fetched | dataLoaded | dataXformed => decide
  | executed => exact absurd rfl h

theorem phaseAnswers_le (p : Phase) : phaseAnswers p ≤ 2 := by cases p <;> decide

theorem answersNeeded_of_inflight (hi : s.inflight = some c) : answersNeeded s = 2 * s.queue.length + phaseAnswers c.phase := by
  simp [answersNeeded, hi]

theorem answersNeeded_of_idle (hi : s.inflight = none) : answersNeeded s = 2 * s.queue.length := by simp [answersNeeded, hi]

theorem engineWork_of_inflight (hi : s.inflight = some c) :
    engineWork s = 5 * s.queue.length + (if s.stopReq then 1 else 0) + (4 - phaseRank c.phase) := by
  simp only [engineWork, hi]
  cases c.phase <;> rfl

theorem engineWork_of_idle (hi : s.inflight = none) : engineWork s = 5 * s.queue.length + (if s.stopReq then 1 else 0) := by
  simp only [engineWork, hi, Nat.add_zero]

/-- No event waits, every listed answer is one, and there are enough of them. -/
structure Supplied (s : State) : Prop where
  events  : s.events = []
  answers : ∀ a ∈ s.dmaAnswers, a ≠ .noAnswer
  enough  : answersNeeded s ≤ s.dmaAnswers.length

theorem nextAnswer_of_supplied (hs : Supplied s) (h : 0 < answersNeeded s) : nextAnswer s = .ok ∨ nextAnswer s = .fail := by
  cases hl : s.dmaAnswers with
  | nil => have := hs.enough; rw [hl] at this; simp at this; omega
  | cons a rest =>
    have ha := hs.answers a (by simp [hl])
    have hn : nextAnswer s = a := by simp only [nextAnswer, hl]
    rw [hn]
    cases a with
    | ok => exact .inl rfl
    | fail => exact .inr rfl
    | noAnswer => exact absurd rfl ha

/-- The command in flight goes to a later phase, taking no more answers than the phases differ by; queue, stop request and events stay. -/
def Advances (c : Inflight) (s t : State) : Prop :=
  ∃ c' n, t.inflight = some c' ∧ t.dmaAnswers = s.dmaAnswers.drop n ∧ phaseRank c.phase < phaseRank c'.phase ∧
    phaseAnswers c'.phase + n ≤ phaseAnswers c.phase ∧ t.queue = s.queue ∧ t.stopReq = s.stopReq ∧ t.events = s.events

theorem phaseRank_lt_executed {p : Phase} (h : p ≠ .executed) : phaseRank p < phaseRank .executed := by
  cases p with
  | fetched | dataLoaded | dataXformed => decide
  | executed => exact absurd rfl h

/-- A step that executes the command without asking the oracle. -/
theorem advances_to_executed (hp : c.phase ≠ .executed) (hi : t.inflight = some { c with phase := .executed })
    (ha : t.dmaAnswers = s.dmaAnswers) (hq : t.queue = s.queue) (hs : t.stopReq = s.stopReq) (he : t.events = s.events) : Advances c s t :=
  ⟨_, 0, hi, ha, phaseRank_lt_executed hp, Nat.zero_le _, hq, hs, he⟩

theorem dataLoad_advances {d : DataFields} (hi : s.inflight = some c) (hp : c.phase = .fetched)
    (hans : nextAnswer s = .ok ∨ nextAnswer s = .fail) : Advances c s (dataLoad d s) := by
  have hrank : phaseRank c.phase < phaseRank .dataLoaded := by rw [hp]; decide
  have hneed : phaseAnswers .dataLoaded + 1 ≤ phaseAnswers c.phase := by rw [hp]; decide
  by_cases hn : dataLength d = 0
  · rw [dataLoad_of_zero hn, setBuffer_of_inflight hi]
    exact ⟨_, 0, rfl, rfl, hrank, by dsimp only; omega, rfl, rfl, rfl⟩
  · rcases hans with h | h
    · rw [dataLoad_of_ok hn h, setBuffer_of_inflight (by exact hi)]
      exact ⟨_, 1, rfl, List.drop_one.symm, hrank, hneed, rfl, rfl, rfl⟩
    · rw [dataLoad_of_fail hn h, setBuffer_of_inflight (by exact hi)]
      exact ⟨_, 1, rfl, List.drop_one.symm, hrank, hneed, rfl, rfl, rfl⟩

theorem dataExecute_advances {d : DataFields} (hi : s.inflight = some c) (hp : c.phase = .fetched)
    (hans : nextAnswer s = .ok ∨ nextAnswer s = .fail) : Advances c s (dataExecute d s) := by
  rcases dataExecute_cases d s with ⟨-, h⟩ | ⟨-, -, h⟩ | ⟨-, h⟩ <;> rw [h]
  · exact advances_to_executed (by simp [hp]) (by simp [hi]) rfl rfl rfl rfl
  · exact advances_to_executed (by simp [hp]) (by simp [hi]) rfl rfl rfl rfl
  · exact dataLoad_advances hi hp hans

theorem dataTransform_advances {d : DataFields} (hi : s.inflight = some c) (hp : c.phase = .dataLoaded) :
    Advances c s (dataTransform d s) := by
  have hrank : phaseRank c.phase < phaseRank .dataXformed := by rw [hp]; decide
  have hneed : phaseAnswers .dataXformed + 0 ≤ phaseAnswers c.phase := by rw [hp]; decide
  rw [dataTransform, setBuffer_of_inflight (by exact hi)]
  exact ⟨_, 0, rfl, rfl, hrank, hneed, rfl, rfl, rfl⟩

theorem dataWriteBack_advances {d : DataFields} (hi : s.inflight = some c) (hp : c.phase = .dataXformed)
    (hans : nextAnswer s = .ok ∨ nextAnswer s = .fail) : Advances c s (dataWriteBack d s) := by
  have hrank : phaseRank c.phase < phaseRank .executed := by rw [hp]; decide
  have hneed : phaseAnswers .executed + 1 ≤ phaseAnswers c.phase := by rw [hp]; decide
  by_cases hn : dataLength d = 0
  · rw [dataWriteBack_of_zero hn]
    exact advances_to_executed (by simp [hp]) (by simp [hi]) rfl rfl rfl rfl
  · rcases hans with h | h
    · rw [dataWriteBack_of_ok hn h, setPhase_of_inflight (by exact hi)]
      exact ⟨_, 1, rfl, List.drop_one.symm, hrank, hneed, rfl, rfl, rfl⟩
    · rw [dataWriteBack_of_fail hn h, setPhase_of_inflight (by exact hi)]
      exact ⟨_, 1, rfl, List.drop_one.symm, hrank, hneed, rfl, rfl, rfl⟩

theorem storeIvExecute_advances {d : StoreIvFields} (hi : s.inflight = some c) (hp : c.phase = .fetched)
    (hans : nextAnswer s = .ok ∨ nextAnswer s = .fail) : Advances c s (storeIvExecute d s) := by
  have hrank : phaseRank c.phase < phaseRank .executed := by rw [hp]; decide
  have hneed : phaseAnswers .executed + 1 ≤ phaseAnswers c.phase := by rw [hp]; decide
  rcases hans with h | h
  · rw [storeIvExecute_of_ok h, setPhase_of_inflight (by exact hi)]
    exact ⟨_, 1, rfl, List.drop_one.symm, hrank, hneed, rfl, rfl, rfl⟩
  · rw [storeIvExecute_of_fail h]
    exact ⟨{ c with phase := .executed }, 1, by simp [hi], by simp, hrank, hneed, by simp, by simp, by simp⟩

/-- The step of a command in flight, while the oracle answers. -/
theorem exec_advances {i : Instr} (hf : InflightFormed s) (hi : s.inflight = some c) (hp : c.phase ≠ .executed)
    (hd : decodeCommand s.cfg c.cmd.words = some i) (hcmd : IsCommand i) (hans : nextAnswer s = .ok ∨ nextAnswer s = .fail)
    (h : exec i s = .next t) : Advances c s t := by
  have hph : c.phase = s.phase := (phase_of_inflight hi).symm
  rcases exec_command_cases hcmd h with ⟨len, d, ws, -, rfl⟩ | ⟨d, ws, -, rfl⟩ | ⟨d, -, hphase, rfl⟩ | ⟨d, -, hphase, rfl⟩ |
    ⟨d, -, hphase, rfl⟩ | ⟨d, -, hphase, -⟩ | ⟨d, rfl, rfl⟩ | ⟨d, -, rfl⟩
  · obtain ⟨_, _, _, he⟩ := keyExecute_state len d ws s
    rw [he]; exact advances_to_executed hp (by simp [inPhase, hi]) rfl rfl rfl rfl
  · exact advances_to_executed hp (by simp [ivExecute, hi]) rfl rfl rfl rfl
  · exact dataExecute_advances hi (hph.trans hphase) hans
  · exact dataTransform_advances hi (hph.trans hphase)
  · exact dataWriteBack_advances hi (hph.trans hphase) hans
  · exact absurd (hph.trans hphase) hp
  · have hfit := phaseFits_of_bufferFits (inflightFormed_iff.1 hf c hi).2.1 hd
    cases hcp : c.phase with
    | fetched => exact storeIvExecute_advances hi hcp hans
    | dataLoaded | dataXformed => rw [hcp] at hfit; cases hfit
    | executed => exact absurd hcp hp
  · obtain ⟨_, _, _, he⟩ := flagExecute_state d s
    rw [he]; exact advances_to_executed hp (by simp [inPhase, hi]) rfl rfl rfl rfl

/-- A phase later is less to do, and enough answers stay enough. -/
theorem Advances.progress (h : Advances c s t) (hi : s.inflight = some c) (hs : Supplied s) :
    Supplied t ∧ engineWork t < engineWork s := by
  obtain ⟨c', n, hi', ha, hrank, hneed, hq, hstop, he⟩ := h
  have henough := hs.enough
  have hlast := phaseRank_le_executed c'.phase
  have h3 : phaseRank .executed = 3 := rfl
  rw [answersNeeded_of_inflight hi] at henough
  refine ⟨⟨he.trans hs.events, fun a hmem => hs.answers a (List.mem_of_mem_drop (ha ▸ hmem)), ?_⟩, ?_⟩
  · rw [answersNeeded_of_inflight hi', hq, ha, List.length_drop]; omega
  · rw [engineWork_of_inflight hi, engineWork_of_inflight hi', hq, hstop]; omega

theorem acknowledge_progress (hi : s.inflight = none) (hstop : s.stopReq = true) (hs : Supplied s) :
    Supplied (acknowledge s) ∧ engineWork (acknowledge s) < engineWork s := by
  have hrest : (acknowledge s).inflight = none ∧ (acknowledge s).queue.length ≤ s.queue.length := by
    rcases acknowledge_cases s with ⟨-, h⟩ | ⟨-, h⟩ <;> rw [h]
    · exact ⟨rfl, Nat.zero_le _⟩
    · exact ⟨hi, Nat.le_refl _⟩
  have henough := hs.enough
  rw [answersNeeded_of_idle hi] at henough
  refine ⟨⟨by simp [hs.events], by simpa using hs.answers, ?_⟩, ?_⟩
  · rw [answersNeeded_of_idle hrest.1, acknowledge_dmaAnswers]; omega
  · rw [engineWork_of_idle hi, engineWork_of_idle hrest.1, hstop, acknowledge_stopReq, if_pos rfl, if_neg (by decide)]; omega

theorem dequeue_progress {q : Command} {rest : List Command} (hi : s.inflight = none) (hq : s.queue = q :: rest) (hs : Supplied s) :
    Supplied (dequeue q rest s) ∧ engineWork (dequeue q rest s) < engineWork s := by
  have henough := hs.enough
  rw [answersNeeded_of_idle hi, hq, List.length_cons] at henough
  refine ⟨⟨hs.events, hs.answers, ?_⟩, ?_⟩
  · rw [answersNeeded_of_inflight rfl]; exact henough
  · rw [engineWork_of_idle hi, engineWork_of_inflight rfl, hq, List.length_cons]
    change 5 * rest.length + (if s.stopReq then 1 else 0) + 4 < _
    omega

/-- A machine that is not quiescent takes a step, and has less to do after it. -/
theorem step_progress (hinv : Inv s) (hs : Supplied s) (hq : ¬ Quiescent s) :
    ∃ t, step s = .next t ∧ Supplied t ∧ engineWork t < engineWork s := by
  rw [step_of_noEvent hs.events]
  have henough := hs.enough
  cases hi : s.inflight with
  | some c =>
    by_cases hp : c.phase = .executed
    · rw [answersNeeded_of_inflight hi] at henough
      refine ⟨_, engineStep_of_executed hi hp, ⟨hs.events, hs.answers, ?_⟩, ?_⟩
      · rw [answersNeeded_of_idle rfl]; exact le_trans (Nat.le_add_right _ _) henough
      · rw [engineWork_of_idle rfl, engineWork_of_inflight hi, hp]; exact Nat.lt_succ_self _
    · obtain ⟨i, hd, hcmd, hexec⟩ := engineStep_exec hinv.inflight hi hp
      obtain ⟨t, ht⟩ := exec_next i s
      have hneed : 0 < answersNeeded s := by
        rw [answersNeeded_of_inflight hi]; exact Nat.add_pos_right _ (phaseAnswers_pos hp)
      exact ⟨t, hexec.trans ht, (exec_advances hinv.inflight hi hp hd hcmd (nextAnswer_of_supplied hs hneed) ht).progress hi hs⟩
  | none =>
    cases hstop : s.stopReq with
    | true => exact ⟨_, engineStep_of_stopReq hi hstop, acknowledge_progress hi hstop hs⟩
    | false =>
      have hpend : s.pending = .none := by
        by_contra hne
        exact absurd (hinv.hold.2 hne) (by simp [hstop])
      have hbusy : ¬ (s.queue = [] ∨ s.running = false) := fun h => hq ⟨hi, hstop, hpend, h⟩
      cases hqueue : s.queue with
      | nil => exact absurd (.inl hqueue) hbusy
      | cons c rest =>
        have hrun : s.running = true := by simpa using fun h => hbusy (.inr h)
        exact ⟨_, engineStep_of_queued hrun hstop hi hqueue, dequeue_progress hi hqueue hs⟩

theorem run_succ (h : step s = .next t) (k : Nat) : Host.Core.run core (k + 1) s = Host.Core.run core k t := by
  have h : core.step s = .next t := h
  simp only [Host.Core.run, h]

/-- From the invariant, with enough answers, the machine comes to rest within its work (70_reset_and_hazards R290). -/
theorem quiescence (n : Nat) (s : State) (hinv : Inv s) (hs : Supplied s) (hn : engineWork s ≤ n) :
    ∃ k t, k ≤ engineWork s ∧ Host.Core.run core k s = .next t ∧ Quiescent t := by
  induction n generalizing s with
  | zero =>
    by_cases hq : Quiescent s
    · exact ⟨0, s, Nat.zero_le _, rfl, hq⟩
    · obtain ⟨t, -, -, hlt⟩ := step_progress hinv hs hq
      omega
  | succ n ih =>
    by_cases hq : Quiescent s
    · exact ⟨0, s, Nat.zero_le _, rfl, hq⟩
    · obtain ⟨t, hstep, hsup, hlt⟩ := step_progress hinv hs hq
      obtain ⟨k, u, hk, hrun, hu⟩ := ih t (step_inv hinv hstep) hsup (by omega)
      exact ⟨k + 1, u, by omega, (run_succ hstep k).trans hrun, hu⟩

end Sys2Proof.Machine

namespace Sys2Proof.Proofs

open Sys2Proof.Machine Sys2Proof.Safety

/-- Settles O17: the held host's step is the engine's, whose acknowledgement alone lifts the hold. -/
theorem holdLastsUntilTheAcknowledgement : Obligations.HoldLastsUntilTheAcknowledgement := by
  intro s op rest he hp
  rw [step_of_held he hp]
  refine ⟨rfl, fun t h hack => engineStep_waiting h hack, fun hs hi => ⟨acknowledge s, engineStep_of_stopReq hi hs, ?_⟩⟩
  exact ⟨acknowledge_pending s, acknowledge_running s, acknowledge_stopReq s, acknowledge_events s⟩

/-- Settles O18. -/
theorem stepRunsTheDecodedInstruction : Obligations.StepRunsTheDecodedInstruction := by
  refine ⟨fun s c i rest hi hp hform hd hfit he => ?_, fun s v i rest hwf hp he hd => ?_, fun s w i rest hwf hp he hn h0 hd => ?_⟩
  · rw [step_of_engine he]
    exact engineStep_of_formed (s := { s with events := rest }) hi hp hform hd hfit
  · rw [step_of_host he hp]
    refine (regWrite_offset (s := { s with events := rest }) hwf.2.1 .control v).trans ?_
    simp only [writeReg, controlWrite, hd]
  · rw [step_of_host he hp]
    refine (regWrite_commandFifo (s := { s with events := rest }) hwf.2.1 w).trans ?_
    rw [if_pos ⟨hn, h0⟩]
    rw [decode_discarded ((cmdWords_eq_zero hwf.1).1 h0)] at hd
    exact (exec_discarded hd _).symm

/-- Settles O57: the engine's steps go on, a host access goes on or is refused, another master's goes on or races. -/
theorem onlyTheOutsideStopsTheMachine : Obligations.OnlyTheOutsideStopsTheMachine := by
  intro s hs
  cases he : s.events with
  | nil => exact .inl (step_of_noEvent he ▸ engineStep_next hs.inflight)
  | cons e rest =>
    cases e with
    | engine => exact .inl (step_of_engine he ▸ engineStep_next (s := { s with events := rest }) hs.inflight)
    | host op =>
      by_cases hp : s.pending = .none
      · rw [step_of_host he hp]
        rcases hostAccess_total op { s with events := rest } with h | ⟨r, hr, h⟩
        · exact .inl h
        · exact .inr (.inl ⟨op, rest, r, rfl, h, hr⟩)
      · exact .inl (step_of_held he hp ▸ engineStep_next hs.inflight)
    | busRead a =>
      rw [step_of_busRead he]
      by_cases h : inDestination a { s with events := rest } = true
      · exact .inr (.inr ⟨a, rest, .inl rfl, busRead_of_race h⟩)
      · exact .inl ⟨_, busRead_of_free h⟩
    | busWrite a b =>
      rw [step_of_busWrite he]
      by_cases h : inDestination a { s with events := rest } = true ∨ inSource a { s with events := rest } = true
      · exact .inr (.inr ⟨a, rest, .inr ⟨b, rfl⟩, busWrite_of_race h⟩)
      · exact .inl ⟨_, busWrite_of_free h⟩

/-- Settles O59: two answers for each command, queued or in flight, are as many as they can ask for. -/
theorem theEngineReachesQuiescence : Obligations.TheEngineReachesQuiescence := by
  intro s hinv he hans hlen
  refine quiescence _ s hinv ⟨he, hans, le_trans ?_ hlen⟩ le_rfl
  cases hi : s.inflight with
  | none => rw [answersNeeded_of_idle hi]; omega
  | some c => rw [answersNeeded_of_inflight hi]; have := phaseAnswers_le c.phase; omega

/-- Settles O60: the race checks, in the words of the statement. -/
theorem otherMastersRaceOnlyOnBuffersInFlight : Obligations.OtherMastersRaceOnlyOnBuffersInFlight := by
  intro a s rest inside checked written unread
  have hwritten : written ↔ inDestination a { s with events := rest } = true := by
    simp only [inDestination_iff, dataTouches_iff, inRange_iff]; rfl
  have hunread : unread ↔ inSource a { s with events := rest } = true := by
    simp only [inSource_iff, dataTouches_iff, inRange_iff]; rfl
  rw [hwritten, hunread]
  refine ⟨fun b he => ?_, fun he => ?_⟩
  · rw [step_of_busWrite he]
    exact ⟨busWrite_of_race, fun h => ⟨_, busWrite_of_free h, fun hm => Memory.read_write_same hm _ _, fun x hx =>
      Memory.read_write_other _ _ hx⟩⟩
  · rw [step_of_busRead he]
    exact ⟨busRead_of_race, busRead_of_free⟩

end Sys2Proof.Proofs
end
